-- ==== Sys2Proof/Word.lean ====
section
/-! DEFINITION. The word types of DSPB (spec/00_scope.md R9, R13): every register, command word and scratch
word is 32 bits, a FIFO entry is 8 bits. A binary32 value is its 32-bit pattern. -/

namespace Sys2Proof

/-- A FIFO entry or one byte of the scratch memory (R9). -/
abbrev Byte := BitVec 8

/-- A 32-bit register, command word or scratch word (R9). -/
abbrev Word := BitVec 32

/-- An IEEE 754 binary32 value, held as its bit pattern (R13, R15). -/
abbrev F32 := BitVec 32

/-- A complex value as its (real part, imaginary part) (spec/43_fft_magnitude.md R323). -/
abbrev Cplx (α : Type) := α × α

end Sys2Proof
end

