-- ==== Sys2Proof/Config.lean ====
section
/-! DEFINITION. The parameters of DSPB-1 (spec/00_scope.md R8) and the values the spec leaves open.
An `opaque` constant has no body: nothing in Lean can evaluate it or prove a value of it, so a theorem that
mentions one holds for every value it could have. -/

namespace Sys2Proof.Config

/-- NMAX, the maximum sample count (R8). -/
def nmax : Nat := 4096

/-- SCR_WORDS, the scratch size in words (R8). -/
def scrWords : Nat := 8192

/-- SCR_BYTES, the scratch size in bytes (R8). -/
def scrBytes : Nat := 32768

/-- MAX_TONES, the tone register-file size (R8). -/
def maxTones : Nat := 8

/-- CODE_MAX, the largest quantizer code (R8). -/
def codeMax : Nat := 4095

/-- MID, the nominal code midpoint and half-scale (R8). -/
def mid : Nat := 2048

/-- FIR_MAX_TAPS, the taps of one filter bank (R8). -/
def firMaxTaps : Nat := 64

/-- FFT_LENGTHS, the supported transform lengths, largest first (R8). -/
def fftLengths : List Nat := [4096, 2048, 1024, 512, 256, 128, 64, 32, 16]

/-- PKT_PAYLOAD, the payload bytes of one block (R8). -/
def pktPayload : Nat := 128

/-- PKT_BYTES, the packet length (R8). -/
def pktBytes : Nat := 133

/-- BLOCK_ID, the value the ID register reads as: OPEN in the spec (spec/10_state.md R43,
spec/92_eei_decisions.md D46). DESIGN CHOICE (log 7): a free value. -/
opaque blockId : Word

/-- The unnormalized sine routine behind `fsin`: OPEN in the spec (spec/41_synthesis.md R235, D20).
DESIGN CHOICE (log 6): a free value; Machine/Float.lean's `fsin` adds the two properties R235 grants. -/
opaque fsinRaw : F32 → F32

/-- The word an unspecified SCR read draws, for each read in turn (spec/20_memory.md R129, U3).
DESIGN CHOICE (log 8): a free value, indexed by the counter `State.draws`. -/
opaque busyRead : Nat → Word

end Sys2Proof.Config
end

