-- ==== Sys2Proof/Machine/Arith.lean ====
section
/-! DEFINITION. The integer arithmetic of spec/00_scope.md R11, R12 and R15: floor shifts, clamping, square roots,
Q15 codes, and the readings of a scratch word as a code, a Q15 value or an unsigned integer. -/

namespace Sys2Proof.Machine

/-- `a >> k` on an unbounded integer: floor(a / 2^k) (R11). -/
def sra (a : Int) (k : Nat) : Int := a / ((2 ^ k : Nat) : Int)

/-- `clamp(a, lo, hi)` (R11). -/
def clamp (a lo hi : Int) : Int := if a < lo then lo else if hi < a then hi else a

/-- `sat16(a)` (R11). -/
def sat16 (a : Int) : Int := clamp a (-32768) 32767

/-- The digit-by-digit square root, `fuel` base-4 digits long. -/
def isqrtAux : Nat → Nat → Nat
  | 0, _ => 0
  | fuel + 1, n =>
    let r := 2 * isqrtAux fuel (n / 4)
    if (r + 1) * (r + 1) ≤ n then r + 1 else r

/-- `isqrt(p)`: the largest m with m·m ≤ p (R11). -/
def isqrt (n : Nat) : Nat := isqrtAux (Nat.log2 n / 2 + 1) n

/-- `round_half_away(num / den)` for den > 0 (R12). -/
def roundHalfAway (num : Int) (den : Nat) : Int :=
  if num < 0 then -(((2 * num.natAbs + den) / (2 * den) : Nat) : Int)
  else (((2 * num.natAbs + den) / (2 * den) : Nat) : Int)

/-- `q15(num / den)` for den > 0 (R12). -/
def q15Rat (num : Int) (den : Nat) : Int := clamp (roundHalfAway (num * 32768) den) (-32768) 32767

/-- `asU16(w)` (R15). -/
def asU16 (w : Word) : Nat := (w.extractLsb' 0 16).toNat

/-- `asQ15(w)` (R15). -/
def asQ15 (w : Word) : Int := (w.extractLsb' 0 16).toInt

/-- `wordU16(c) = zext_32(c)` (R15). -/
def wordU16 (c : Nat) : Word := BitVec.ofNat 32 c

/-- `wordQ15(q) = trunc_32(q)`, the sign-extended word (R15). -/
def wordQ15 (q : Int) : Word := BitVec.ofInt 32 q

end Sys2Proof.Machine
end

