-- ==== Sys2Proof/Machine/Float.lean ====
section
/-! DEFINITION. IEEE 754 binary32 as spec/00_scope.md R13 uses it: round to nearest even, one rounding per
operation, subnormals kept, every NaN result the canonical 0x7FC00000, no flags.
Every finite binary32 value is a whole number of units of 2^-149, so an operation computes its exact result
as a rational number of units and rounds once. -/

namespace Sys2Proof.Machine

/-- The canonical quiet NaN (R13). -/
def f32Nan : F32 := 0x7FC00000#32

/-- The pattern of +∞. -/
def f32Inf : Nat := 0x7F800000

/-- The sign bit. -/
def f32Neg (x : F32) : Bool := x.getLsbD 31

/-- The exponent field. -/
def f32Exp (x : F32) : Nat := (x.extractLsb' 23 8).toNat

/-- The fraction field. -/
def f32Frac (x : F32) : Nat := (x.extractLsb' 0 23).toNat

/-- x is a NaN. -/
def f32IsNan (x : F32) : Bool := f32Exp x == 255 && f32Frac x != 0

/-- x is +∞ or −∞. -/
def f32IsInf (x : F32) : Bool := f32Exp x == 255 && f32Frac x == 0

/-- x is finite. -/
def f32IsFinite (x : F32) : Bool := f32Exp x != 255

/-- The magnitude of a finite x in units of 2^-149. -/
def f32Units (x : F32) : Nat :=
  if f32Exp x = 0 then f32Frac x else (2 ^ 23 + f32Frac x) * 2 ^ (f32Exp x - 1)

/-- The value of a finite x in units of 2^-149. -/
def f32Int (x : F32) : Int := if f32Neg x then -(f32Units x : Int) else f32Units x

/-- num / den rounded to the nearest integer, ties to even (den > 0). -/
def rne (num den : Nat) : Nat :=
  let q := num / den
  let r := num % den
  if 2 * r < den then q else if den < 2 * r then q + 1 else q + q % 2

/-- The pattern (without sign) of num/den units of 2^-149, rounded to nearest even; overflow gives ∞.
With e the power of two that leaves 24 significant bits, the pattern is e·2^23 plus the rounded significand: a
significand below 2^23 (e = 0) is subnormal, the implicit bit of a normal one adds 1 to the exponent field, and
so does the carry of a significand rounded up to 2^24. -/
def f32RoundMag (num den : Nat) : Nat :=
  let e := Nat.log2 (num / den) - 23
  min (e * 2 ^ 23 + rne num (den * 2 ^ e)) f32Inf

/-- The pattern with this sign and magnitude pattern. -/
def f32Pack (neg : Bool) (mag : Nat) : F32 := BitVec.ofNat 32 (if neg then 2 ^ 31 + mag else mag)

/-- `f32(num / den)` of a real given as a rational, den > 0 (R13); an exact 0 is +0. -/
def f32OfRat (num : Int) (den : Nat) : F32 :=
  f32Pack (num < 0) (f32RoundMag (num.natAbs * 2 ^ 149) den)

/-- `f32(n)` of an integer n ≥ 0 (R13). -/
def f32OfNat (n : Nat) : F32 := f32OfRat n 1

/-- −x: the sign bit flipped. -/
def f32Flip (x : F32) : F32 := x ^^^ 0x80000000#32

/-- `fadd` (R13). An exact zero sum is +0, but (−0) + (−0) = −0. -/
def f32Add (x y : F32) : F32 :=
  if f32IsNan x || f32IsNan y then f32Nan
  else if f32IsInf x then (if f32IsInf y && f32Neg x != f32Neg y then f32Nan else x)
  else if f32IsInf y then y
  else
    let s := f32Int x + f32Int y
    if s = 0 then f32Pack (f32Neg x && f32Neg y) 0
    else f32Pack (s < 0) (f32RoundMag s.natAbs 1)

/-- `fsub` (R13). -/
def f32Sub (x y : F32) : F32 := f32Add x (f32Flip y)

/-- `fmul` (R13). -/
def f32Mul (x y : F32) : F32 :=
  let neg := f32Neg x != f32Neg y
  if f32IsNan x || f32IsNan y then f32Nan
  else if f32IsInf x then (if f32IsFinite y && f32Units y == 0 then f32Nan else f32Pack neg f32Inf)
  else if f32IsInf y then (if f32Units x == 0 then f32Nan else f32Pack neg f32Inf)
  else f32Pack neg (f32RoundMag (f32Units x * f32Units y) (2 ^ 149))

/-- `fdiv` (R13). -/
def f32Div (x y : F32) : F32 :=
  let neg := f32Neg x != f32Neg y
  if f32IsNan x || f32IsNan y then f32Nan
  else if f32IsInf x then (if f32IsInf y then f32Nan else f32Pack neg f32Inf)
  else if f32IsInf y then f32Pack neg 0
  else if f32Units y = 0 then (if f32Units x = 0 then f32Nan else f32Pack neg f32Inf)
  else f32Pack neg (f32RoundMag (f32Units x * 2 ^ 149) (f32Units y))

/-- `fsqrt` (R13). The root of u units of 2^-149 is the square root of u·2^149 units; it has more than 25 bits, so
an inexact root may be replaced by its floor plus one half before the one rounding. -/
def f32Sqrt (x : F32) : F32 :=
  if f32IsNan x then f32Nan
  else if f32IsFinite x && f32Units x == 0 then x
  else if f32Neg x then f32Nan
  else if f32IsInf x then x
  else
    let p := f32Units x * 2 ^ 149
    let r := isqrt p
    f32Pack false (f32RoundMag (if r * r = p then 2 * r else 2 * r + 1) 2)

/-- A key that orders the values of all binary32 patterns but NaNs (−0 and +0 alike). -/
def f32Key (x : F32) : Int :=
  if f32IsInf x then (if f32Neg x then -(2 ^ 300 : Int) else 2 ^ 300) else f32Int x

/-- x < y as IEEE 754 compares: false when either is a NaN. -/
def f32Lt (x y : F32) : Bool := !f32IsNan x && !f32IsNan y && decide (f32Key x < f32Key y)

/-- `fclamp(x, lo, hi)`: lo if x is a NaN or x < lo, hi if x > hi, else x (R13). -/
def f32Clamp (x lo hi : F32) : F32 :=
  if f32IsNan x || f32Lt x lo then lo else if f32Lt hi x then hi else x

/-- `ftrunc_u(x)` for x ≥ 0: the integer toward zero (R13). -/
def f32Trunc (x : F32) : Nat := f32Units x / 2 ^ 149

/-- TWO_PI = f32(2π) (spec/41_synthesis.md R234). -/
def f32TwoPi : F32 := 0x40C90FDB#32

/-- 1.0. -/
def f32One : F32 := 0x3F800000#32

/-- 2.0. -/
def f32Two : F32 := 0x40000000#32

/-- |x| ≤ 1 as values; false for a NaN. -/
def f32AbsLeOne (x : F32) : Bool := f32IsFinite x && decide (f32Units x ≤ 2 ^ 149)

/-- `fsin`, the sine of the float synthesizer: open but for fsin(+0) = +0 and |fsin(x)| ≤ 1 for every finite x
(spec/41_synthesis.md R235). It is the free function `Config.fsinRaw` with +0 put in where that breaks one of the
two, so it stands for exactly the functions R235 allows (log 6). -/
def fsin (x : F32) : F32 :=
  if x = 0 then 0
  else if f32IsFinite x && !f32AbsLeOne (Config.fsinRaw x) then 0
  else Config.fsinRaw x

end Sys2Proof.Machine
end

