-- ==== Sys2Proof/Syntax.lean ====
section
/-! DEFINITION. The commands of DSPB (spec/30_encoding.md R162) and the accesses HOST can make
(spec/00_scope.md R14, spec/20_memory.md R127). A command carries no operands (R161), so no constructor has a
field. -/

namespace Sys2Proof

/-- The 21 legal commands, one constructor per row of spec/opcode_table.json (R162). -/
inductive Instr where
  | nop
  | synthF32
  | synthU16
  | synthFix
  | firNone
  | firLp
  | firBp
  | normF
  | normQ
  | winBlackman
  | winHamming
  | winHann
  | fft
  | mag
  | crc32
  | crc16
  | sendB
  | sendH
  | pktChk
  | pktBld
  | btx
  deriving DecidableEq, Repr

/-- The size of a HOST access: 1, 2 or 4 bytes (spec/00_scope.md R14). -/
inductive AccSize where
  | byte
  | half
  | word
  deriving DecidableEq, Repr

/-- One access of HOST on its port: `MemRead(addr, n)` or `MemWrite(addr, n, v)` (R14). A write of n bytes uses
the low 8·n bits of v. -/
inductive HostAccess where
  | read (addr : BitVec 16) (n : AccSize)
  | write (addr : BitVec 16) (n : AccSize) (v : Word)
  deriving DecidableEq, Repr

end Sys2Proof
end

