-- ==== Sys2Proof/WellFormed.lean ====
section
/-! DEFINITION. Which commands and which HOST accesses are well-formed. -/

namespace Sys2Proof

/-- The size in bytes. -/
def AccSize.bytes : AccSize → Nat
  | .byte => 1
  | .half => 2
  | .word => 4

/-- Every command is well-formed: a command word has no operand field that could hold an illegal value
(spec/30_encoding.md R161). -/
def Instr.wf : Instr → Bool
  | .nop | .synthF32 | .synthU16 | .synthFix | .firNone | .firLp | .firBp | .normF | .normQ
  | .winBlackman | .winHamming | .winHann | .fft | .mag | .crc32 | .crc16 | .sendB | .sendH
  | .pktChk | .pktBld | .btx => true

/-- The accesses the port answers without a bus error: in the register half 4 bytes at a multiple of 4
(spec/20_memory.md R124); in the SCR half 1, 2 or 4 bytes at a multiple of the size (R125). -/
def legalAccess (addr : BitVec 16) (n : AccSize) : Bool :=
  if addr.toNat < 0x8000 then n == .word && addr.toNat % 4 == 0
  else (addr.toNat - 0x8000) % n.bytes == 0

/-- A HOST access is well-formed when the port answers it without a bus error. -/
def HostAccess.wf : HostAccess → Bool
  | .read addr n => legalAccess addr n
  | .write addr n _ => legalAccess addr n

end Sys2Proof
end

