-- ==== Sys2Proof/Decode.lean ====
section
/-! DEFINITION. Decoding and encoding of command words (spec/30_encoding.md R160 to R166). -/

namespace Sys2Proof

/-- Why a byte sequence or word is no legal command. All but `notOneWord` are the ILLEGAL of R163. -/
inductive DecodeError where
  /-- The bytes are not exactly one 32-bit word; a CMD write of another size is a bus error (R166). -/
  | notOneWord
  /-- Bits 31:10 are not all 0 (R164). -/
  | reservedBits
  /-- OP is 0x0C to 0xFF (R164). -/
  | unassignedOp
  /-- SEL is not listed for its OP (R164). -/
  | unlistedSel
  deriving DecidableEq, Repr

/-- OP, bits 7:0 of a command word (R160). -/
def opField (w : Word) : BitVec 8 := w.extractLsb' 0 8

/-- SEL, bits 9:8 of a command word (R160). -/
def selField (w : Word) : BitVec 2 := w.extractLsb' 8 2

/-- RSV, bits 31:10 of a command word (R160). -/
def rsvField (w : Word) : BitVec 22 := w.extractLsb' 10 22

/-- The legal (OP, SEL) pairs (R163's case list). -/
def decodeFields (op sel : Nat) : Except DecodeError Instr :=
  match op, sel with
  | 0x00, 0 => .ok .nop
  | 0x01, 0 => .ok .synthF32
  | 0x01, 1 => .ok .synthU16
  | 0x01, 2 => .ok .synthFix
  | 0x02, 0 => .ok .firNone
  | 0x02, 1 => .ok .firLp
  | 0x02, 2 => .ok .firBp
  | 0x03, 0 => .ok .normF
  | 0x03, 1 => .ok .normQ
  | 0x04, 0 => .ok .winBlackman
  | 0x04, 1 => .ok .winHamming
  | 0x04, 2 => .ok .winHann
  | 0x05, 0 => .ok .fft
  | 0x06, 0 => .ok .mag
  | 0x07, 0 => .ok .crc32
  | 0x07, 1 => .ok .crc16
  | 0x08, 0 => .ok .sendB
  | 0x08, 1 => .ok .sendH
  | 0x09, 0 => .ok .pktChk
  | 0x0A, 0 => .ok .pktBld
  | 0x0B, 0 => .ok .btx
  | op, _ => if op ≤ 0x0B then .error .unlistedSel else .error .unassignedOp

/-- R163: decoding, total on every 32-bit word; an error is the ILLEGAL of the spec, with its reason. -/
def decodeWord (w : Word) : Except DecodeError Instr :=
  if rsvField w ≠ 0 then .error .reservedBits
  else decodeFields (opField w).toNat (selField w).toNat

/-- The four bytes of a word, byte 0 (bits 7:0) first (spec/20_memory.md R120). -/
def wordBytes (w : Word) : List Byte :=
  [w.extractLsb' 0 8, w.extractLsb' 8 8, w.extractLsb' 16 8, w.extractLsb' 24 8]

/-- The word whose little-endian bytes these are (R120). -/
def bytesWord (b0 b1 b2 b3 : Byte) : Word := b3 ++ b2 ++ b1 ++ b0

/-- Decoding of the bytes of a command as the host port stores them: exactly one little-endian word (R120, R166). -/
def decodeBytes : List Byte → Except DecodeError Instr
  | [b0, b1, b2, b3] => decodeWord (bytesWord b0 b1 b2 b3)
  | _ => .error .notOneWord

/-- The instruction the decoder reads from a row of the table: `w` is the row's word, in `nbits` bits, with every
bit above them 0, laid out as its little-endian bytes. -/
def decodeTableWord (nbits w : Nat) : Option Instr :=
  if nbits ≤ 32 then (decodeBytes (wordBytes (BitVec.ofNat 32 (w % 2 ^ nbits)))).toOption else none

/-- OP of each command (R162). -/
def Instr.opCode : Instr → BitVec 8
  | .nop => 0x00
  | .synthF32 | .synthU16 | .synthFix => 0x01
  | .firNone | .firLp | .firBp => 0x02
  | .normF | .normQ => 0x03
  | .winBlackman | .winHamming | .winHann => 0x04
  | .fft => 0x05
  | .mag => 0x06
  | .crc32 | .crc16 => 0x07
  | .sendB | .sendH => 0x08
  | .pktChk => 0x09
  | .pktBld => 0x0A
  | .btx => 0x0B

/-- SEL of each command (R162). -/
def Instr.selCode : Instr → BitVec 2
  | .nop | .synthF32 | .firNone | .normF | .winBlackman | .fft | .mag | .crc32 | .sendB
  | .pktChk | .pktBld | .btx => 0
  | .synthU16 | .firLp | .normQ | .winHamming | .crc16 | .sendH => 1
  | .synthFix | .firBp | .winHann => 2

/-- The command word of a command: RSV = 0, SEL, OP (R160, R162). -/
def encode (i : Instr) : Word := (0#22 : BitVec 22) ++ i.selCode ++ i.opCode

end Sys2Proof
end

