-- ==== Sys2Proof/Machine/State.lean ====
section
/-! DEFINITION. The state of DSPB (spec/10_state.md R40): every register of the map with its implemented width,
the arrays and banks, the scratch memory, the two FIFOs, SEQSTATE and the block-transfer engine; and, below
them, four fields of the model's own. Plain data throughout. -/

namespace Sys2Proof.Machine

/-- Faults. DSPB has one synchronous fault, and it belongs to HOST's access, not to the machine
(spec/20_memory.md R126, spec/60_exceptions.md R507). -/
inductive Fault where
  /-- The bus-error response. Raised by a HOST access of a width or alignment the port forbids (R124, R125), and
  delivered to HOST in `State.hostResp`; no DSPB state changes and the run goes on, so `step` never answers it
  (log 9). Safe: it is the response the spec defines. -/
  | busError
  deriving DecidableEq, Repr

/-- Refusals. -/
inductive Refusal where
  /-- An instruction that has no meaning in the model yet, by its mnemonic. Raised by no arm of this model: every
  command has its meaning. Safe. -/
  | notModelled (mnemonic : String)
  deriving DecidableEq, Repr

/-- What HOST sees of its last access (spec/20_memory.md R127). The model's own: DSPB itself does not hold it. -/
inductive HostResponse where
  /-- No access has been made. -/
  | none
  /-- A read answered with this value (the low 8·n bits carry an n-byte read). -/
  | data (v : Word)
  /-- A write answered OK. -/
  | written
  /-- The access was refused with this fault. -/
  | fault (f : Fault)
  deriving DecidableEq, Repr

/-- The result codes of a command (spec/60_exceptions.md R500). -/
inductive ErrCode where
  | ok
  | illegalCmd
  | tagMismatch
  | lenInvalid
  | cfgInvalid
  | range
  | align
  | btTimeout
  | btRetries
  | btCancelRemote
  | btCancelHost
  deriving DecidableEq, Repr

/-- SCR_TAG.KIND, how the scratch words are read (spec/10_state.md R62). -/
inductive Kind where
  | empty
  | f32Phys
  | u16
  | f32N
  | q15
  | f32Spec
  | q15Spec
  | f32Mag
  | q15Mag
  deriving DecidableEq, Repr

/-- SCR_TAG.WIN, the window applied to the data (spec/10_state.md R62). -/
inductive Win where
  | none
  | blackman
  | hamming
  | hann
  deriving DecidableEq, Repr

/-- SCR_TAG (spec/10_state.md R62). -/
structure ScrTag where
  kind : Kind
  win : Win
  count : BitVec 13
  deriving DecidableEq, Repr

/-- bt.STATE, the engine states (spec/45_transport.md R440). -/
inductive BtState where
  | idle
  | awaitStart
  | sending
  | waitAck
  | sendEot
  | waitEotAck
  | complete
  | aborted
  deriving DecidableEq, Repr

/-- The block-transfer engine state (spec/10_state.md R89). RETRIES is also BT_RESULT.RETRIES (log 17). -/
structure BtEngine where
  state : BtState
  blk : Nat
  nblk : Nat
  t0 : Word
  retries : BitVec 8
  outq : List Byte
  code : ErrCode
  cancelReq : Bool
  deriving DecidableEq, Repr

/-- The progress of the running command (spec/10_state.md R88): not started, the bytes of a streaming command
still to push, or a BTX whose engine runs (its state is `State.bt`). -/
inductive Progress where
  | start
  | push (rest : List Byte)
  | engine
  deriving DecidableEq, Repr

/-- SEQSTATE (spec/10_state.md R88). -/
inductive SeqState where
  | idle
  | run (cmd : Word) (prog : Progress)
  deriving DecidableEq, Repr

/-- One FIFO instance (spec/44_fifo_cdc.md R361). `wps` and `rps` hold Gray codes. -/
structure Fifo where
  slot : Vector Byte 256
  wp : BitVec 8
  rp : BitVec 8
  wps : BitVec 8
  rps : BitVec 8
  deriving DecidableEq, Repr

/-- The configuration registers, arrays and banks: what HOST alone writes and every write of which is
busy-guarded (spec/10_state.md R42, R52 to R61, R66, R68, R69, R74, R75, R81, R82; spec/40_control.md R206). -/
structure Cfg where
  numTones : BitVec 16
  len : Word
  fs : Word
  dcOffset : BitVec 16
  vref : BitVec 16
  noiseAmp : F32
  noiseSeed : Word
  sigSrc : BitVec 1
  firTapsLp : BitVec 7
  firTapsBp : BitVec 7
  srcAddr : BitVec 15
  srcLen : BitVec 16
  pktSeq : BitVec 8
  btMaxRetry : BitVec 8
  btToStart : Word
  btToAck : Word
  preamble : BitVec 8
  padByte : BitVec 8
  freq : Vector Word 8
  amp : Vector (BitVec 16) 8
  coefLp : Vector Word 64
  coefBp : Vector Word 64
  deriving DecidableEq, Repr

/-- The scratch memory SCR (spec/10_state.md R84) as (scratch byte offset, byte) pairs: byte a of SCR stands at
host address 0x8000 + a (spec/20_memory.md R122). Canonical form: offsets strictly rising and below 32768, no
entry equal to what an unlisted offset reads as (`Memory.wf`, Machine/Ops.lean). -/
abbrev Memory := List Host.Cell

/-- A synchronizer copy (spec/44_fifo_cdc.md R365): of which FIFO's write or read pointer. -/
inductive SyncKind where
  | rxW
  | rxR
  | txW
  | txR
  deriving DecidableEq, Repr

/-- One step of one agent (spec/00_scope.md R6), or the reset input (spec/70_reset_and_hazards.md R551). -/
inductive AgentStep where
  | host (a : HostAccess)
  | seq
  | srx (b : Byte)
  | stx
  | sync (k : SyncKind)
  | tick
  | resetInput
  deriving DecidableEq, Repr

/-- The machine. -/
structure State where
  /-- Configuration registers, tone arrays, coefficient banks. -/
  cfg : Cfg
  /-- EVENTS (R46). -/
  events : BitVec 8
  /-- IRQ_EN (R50). -/
  irqEn : BitVec 10
  /-- LAST_CMD, what a CMD read returns (R47). -/
  lastCmd : Word
  /-- ERR_CODE.CODE (R48). -/
  errCode : ErrCode
  /-- WARN (R49). -/
  warn : BitVec 3
  /-- SCR_TAG (R62). -/
  tag : ScrTag
  /-- FFT_LEN (R51). -/
  fftLen : BitVec 13
  /-- CRC32_RES (R64). -/
  crc32Res : Word
  /-- CRC16_RES (R65). -/
  crc16Res : BitVec 16
  /-- PKT_STATUS: VALID, CRC_OK, CMP_OK, SEQ_OK, PRE_OK from bit 4 down (R67). -/
  pktStatus : BitVec 5
  /-- BT_RESULT.BLOCKS_ACKED (R70). -/
  blocksAcked : BitVec 9
  /-- TICK (R71). -/
  tick : Word
  /-- SCR (R84). -/
  scr : Memory
  /-- The RX FIFO (R361). -/
  rx : Fifo
  /-- The TX FIFO (R361). -/
  tx : Fifo
  /-- SEQSTATE (R88). -/
  seq : SeqState
  /-- The block-transfer engine (R89). -/
  bt : BtEngine
  /-- The model's own: the agent steps still to come, in order (log 1). -/
  inputs : List AgentStep
  /-- The model's own: what the last HOST access answered (log 9). -/
  hostResp : HostResponse
  /-- The model's own: the bytes put on the serial line, oldest first (log 13). -/
  txLine : List Byte
  /-- The model's own: how many unspecified reads have drawn a value (log 8). -/
  draws : Nat
  deriving DecidableEq, Repr

/-- A FIFO after reset: all four pointers 0 (spec/44_fifo_cdc.md R376); the slots hold an unobservable value,
0 here (log 4). -/
def Fifo.reset : Fifo :=
  { slot := Vector.replicate 256 0, wp := 0, rp := 0, wps := 0, rps := 0 }

/-- The engine after reset: STATE idle, CANCEL_REQ 0, RETRIES 0 (spec/70_reset_and_hazards.md R550); the other
fields are meaningless while no BTX runs and hold the model's value (log 5). -/
def BtEngine.reset : BtEngine :=
  { state := .idle, blk := 0, nblk := 0, t0 := 0, retries := 0, outq := [], code := .ok, cancelReq := false }

/-- The configuration after reset (spec/70_reset_and_hazards.md R550). The coefficient banks have no reset value
(R552): 0 here, a value of the model's (log 3). -/
def Cfg.reset : Cfg :=
  { numTones := 0, len := 0, fs := 0, dcOffset := 0, vref := 3300, noiseAmp := 0, noiseSeed := 1, sigSrc := 0,
    firTapsLp := 0, firTapsBp := 0, srcAddr := 0, srcLen := 0, pktSeq := 0, btMaxRetry := 10,
    btToStart := 10000, btToAck := 1000, preamble := 0x01, padByte := 0x1A,
    freq := Vector.replicate 8 0, amp := Vector.replicate 8 0,
    coefLp := Vector.replicate 64 0, coefBp := Vector.replicate 64 0 }

/-- The machine right after reset, with every power-on draw 0 (spec/70_reset_and_hazards.md R550, R552; log 2,
log 3) and no agent step scheduled (log 10). -/
def State.reset : State :=
  { cfg := Cfg.reset, events := 0, irqEn := 0, lastCmd := 0, errCode := .ok, warn := 0,
    tag := { kind := .empty, win := .none, count := 0 }, fftLen := 0, crc32Res := 0, crc16Res := 0,
    pktStatus := 0, blocksAcked := 0, tick := 0, scr := [], rx := Fifo.reset, tx := Fifo.reset,
    seq := .idle, bt := BtEngine.reset, inputs := [], hostResp := .none, txLine := [], draws := 0 }

end Sys2Proof.Machine
end

