-- ==== Sys2Proof/Machine/Fifo.lean ====
section
/-! DEFINITION. The FIFO primitive with its Gray-coded pointer copies (spec/44_fifo_cdc.md R361 to R365). -/

namespace Sys2Proof.Machine

/-- gray(b) = b XOR (b >> 1) (R362). -/
def gray (b : BitVec 8) : BitVec 8 := b ^^^ (b >>> 1)

/-- bin(g), the inverse of `gray` (R362). -/
def ungray (g : BitVec 8) : BitVec 8 :=
  g ^^^ (g >>> 1) ^^^ (g >>> 2) ^^^ (g >>> 3) ^^^ (g >>> 4) ^^^ (g >>> 5) ^^^ (g >>> 6) ^^^ (g >>> 7)

/-- The producer side sees the FIFO full (R363). -/
def Fifo.seesFull (f : Fifo) : Bool := f.wp + 1 == ungray f.rps

/-- The consumer side sees the FIFO empty (R363). -/
def Fifo.seesEmpty (f : Fifo) : Bool := f.rp == ungray f.wps

/-- The producer side's free count (R363). -/
def Fifo.freeCount (f : Fifo) : BitVec 8 := ungray f.rps - f.wp - 1

/-- The consumer side's fill count (R363). -/
def Fifo.fillCount (f : Fifo) : BitVec 8 := ungray f.wps - f.rp

/-- The bytes written and not yet read: the true count (R366). -/
def Fifo.trueCount (f : Fifo) : BitVec 8 := f.wp - f.rp

/-- The slot at a pointer. -/
def Fifo.slotAt (f : Fifo) (p : BitVec 8) : Byte := f.slot[p.toNat]'p.isLt

/-- `push(F, b)`, for a producer that does not see the FIFO full (R364). -/
def Fifo.push (f : Fifo) (b : Byte) : Fifo :=
  { f with slot := f.slot.set f.wp.toNat b f.wp.isLt, wp := f.wp + 1 }

/-- The byte `pop(F)` returns (R364). -/
def Fifo.front (f : Fifo) : Byte := f.slotAt f.rp

/-- The FIFO after `pop(F)`, for a consumer that does not see it empty (R364). -/
def Fifo.pop (f : Fifo) : Fifo := { f with rp := f.rp + 1 }

/-- `sync_w(F)`: the write pointer's copy into the consumer domain (R365). -/
def Fifo.syncW (f : Fifo) : Fifo := { f with wps := gray f.wp }

/-- `sync_r(F)`: the read pointer's copy into the producer domain (R365). -/
def Fifo.syncR (f : Fifo) : Fifo := { f with rps := gray f.rp }

/-- The FIFO after a reset: all four pointers 0, the slots as they were (R376). -/
def Fifo.cleared (f : Fifo) : Fifo := { f with wp := 0, rp := 0, wps := 0, rps := 0 }

/-- `n` bytes from a pointer on, in the order they will be read. -/
def Fifo.bytesFrom (f : Fifo) : Nat → BitVec 8 → List Byte
  | 0, _ => []
  | n + 1, p => f.slotAt p :: f.bytesFrom n (p + 1)

/-- The stored bytes, oldest first (R369). -/
def Fifo.contents (f : Fifo) : List Byte := f.bytesFrom f.trueCount.toNat f.rp

end Sys2Proof.Machine
end

