-- ==== Sys2Proof/Machine/Ops.lean ====
section
/-! DEFINITION. The named operations over the scratch memory and the registers, the completion of a command, and
DSPB's one form of exception: an error, which ends the command that raised it (spec/40_control.md R208,
spec/60_exceptions.md R503 to R505). -/

namespace Sys2Proof.Machine

/-! ### Scratch memory -/

/-- What a scratch byte nothing has written reads as. The spec leaves it open (spec/70_reset_and_hazards.md R552,
U1); DESIGN CHOICE 0, unsafe (log 2). -/
def Memory.unlisted : Byte := 0

/-- Scratch byte a, `scr_b[a]` (spec/00_scope.md R14). -/
def Memory.read (m : Memory) (a : Nat) : Byte := (m.lookup a).getD Memory.unlisted

/-- The entries that hold these bytes from offset `base` on: one for each byte that differs from what an unlisted
offset reads as. -/
def Memory.cells : Nat → List Byte → Memory
  | _, [] => []
  | base, b :: bs => if b = Memory.unlisted then Memory.cells (base + 1) bs else (base, b) :: Memory.cells (base + 1) bs

/-- The memory with these bytes stored from offset `base` on. -/
def Memory.write (m : Memory) (base : Nat) (bs : List Byte) : Memory :=
  m.filter (fun c => c.1 < base) ++ Memory.cells base bs ++ m.filter (fun c => base + bs.length ≤ c.1)

/-- The canonical form: offsets strictly rising, inside SCR, and no entry equal to an unlisted byte. -/
def Memory.wf (m : Memory) : Bool :=
  decide (m.Pairwise (fun c d => c.1 < d.1)) && m.all (fun c => c.1 < Config.scrBytes && c.2 != Memory.unlisted)

/-- The `n` bytes from offset `base` on. -/
def Memory.bytes (m : Memory) (base n : Nat) : List Byte := (List.range n).map fun i => m.read (base + i)

/-- Scratch word i, `scr_w[i]`, little-endian (spec/20_memory.md R120). -/
def Memory.word (m : Memory) (i : Nat) : Word :=
  bytesWord (m.read (4 * i)) (m.read (4 * i + 1)) (m.read (4 * i + 2)) (m.read (4 * i + 3))

/-- The memory with these words stored from word `i` on (R120). -/
def Memory.putWords (m : Memory) (i : Nat) (ws : List Word) : Memory := m.write (4 * i) (ws.flatMap wordBytes)

/-- The first `n` scratch words. -/
def Memory.words (m : Memory) (n : Nat) : List Word := (List.range n).map m.word

/-! ### Power-on -/

/-- The machine after power-on with these draws: contents of SCR and of the coefficient banks (spec/70_reset_and_hazards.md
R552). `State.reset` is the one whose draws are all 0. -/
def State.powerOn (scr : Memory) (lp bp : Vector Word 64) : State :=
  { State.reset with scr := scr, cfg := { Cfg.reset with coefLp := lp, coefBp := bp } }

/-- `reset_block()`: every register at its reset value; SCR, the coefficient banks and the FIFO slots keep their
contents (spec/70_reset_and_hazards.md R550, R552, spec/44_fifo_cdc.md R376). The model's own fields stay. -/
def State.resetBlock (s : State) : State :=
  { State.reset with
    cfg := { Cfg.reset with coefLp := s.cfg.coefLp, coefBp := s.cfg.coefBp }
    scr := s.scr, rx := s.rx.cleared, tx := s.tx.cleared
    inputs := s.inputs, hostResp := s.hostResp, txLine := s.txLine, draws := s.draws }

/-! ### Events, completion and errors -/

/-- The EVENTS bits (spec/10_state.md R46). -/
def evDone : BitVec 8 := 0x01
def evErr : BitVec 8 := 0x02
def evWarn : BitVec 8 := 0x04
def evRxOvf : BitVec 8 := 0x08
def evTxOvf : BitVec 8 := 0x10
def evCmdDrop : BitVec 8 := 0x20
def evWrDrop : BitVec 8 := 0x40
def evBtDone : BitVec 8 := 0x80

/-- Set these EVENTS bits (R46). -/
def State.setEvents (s : State) (e : BitVec 8) : State := { s with events := s.events ||| e }

/-- The bookkeeping of a command that completes with this result code and these WARN bits
(spec/40_control.md R208). -/
def State.complete (s : State) (code : ErrCode) (warns : BitVec 3) : State :=
  { s with
    errCode := code
    events := s.events ||| evDone ||| (if code = .ok then 0 else evErr) ||| (if warns = 0 then 0 else evWarn)
    warn := s.warn ||| warns
    seq := .idle }

/-- The command completes without error or warning (R208 with c = 0). -/
def State.succeed (s : State) : State := s.complete .ok 0

/-- `raise Error(code)`, DSPB's exception: none of the command's effects happen, the completion bookkeeping runs
with this code and no warnings (spec/60_exceptions.md R503). No state is saved and control goes nowhere (R504), so
there is no return from it: HOST clears the event bits (R505). -/
def State.raise (s : State) (code : ErrCode) : State := s.complete code 0

/-- A command's check list: the code of the first check that fails, if any (spec/40_control.md R212,
spec/60_exceptions.md R502). -/
def firstError : List (Bool × ErrCode) → Option ErrCode
  | [] => none
  | (failing, code) :: rest => if failing then some code else firstError rest

/-- The state a command's step leaves: the raise of the first check that fails, else `done` (R212). -/
def State.checked (s : State) (checks : List (Bool × ErrCode)) (done : State) : State :=
  match firstError checks with
  | some code => s.raise code
  | none => done

/-! ### The sequencer's registers -/

/-- STATUS.BUSY: SEQSTATE is not IDLE (spec/10_state.md R88). -/
def State.busy (s : State) : Bool := s.seq != .idle

/-- The progress of the running command; at its start when none runs (log 15). -/
def State.progress (s : State) : Progress :=
  match s.seq with
  | .idle => .start
  | .run _ p => p

/-- The running command's word; the word of `i` when none runs (log 15). -/
def State.cmdWord (s : State) (i : Instr) : Word :=
  match s.seq with
  | .idle => encode i
  | .run w _ => w

/-- The running command `i` at this progress. -/
def State.withProgress (s : State) (i : Instr) (p : Progress) : State := { s with seq := .run (s.cmdWord i) p }

/-- A command word accepted: LAST_CMD and SEQSTATE, nothing else (spec/40_control.md R204). -/
def State.accept (s : State) (w : Word) : State := { s with lastCmd := w, seq := .run w .start }

/-- SEQSTATE = RUN(BTX, _) (spec/44_fifo_cdc.md R374, spec/40_control.md R211). -/
def State.runsBtx (s : State) : Bool :=
  match s.seq with
  | .idle => false
  | .run w _ => w == encode .btx

/-- Store results: words from word 0 on, and the tag. -/
def State.store (s : State) (ws : List Word) (tag : ScrTag) : State :=
  { s with scr := s.scr.putWords 0 ws, tag := tag }

/-- A byte pushed into the TX FIFO (spec/44_fifo_cdc.md R364). -/
def State.pushTx (s : State) (b : Byte) : State := { s with tx := s.tx.push b }

/-- The RX FIFO popped (R364). -/
def State.popRx (s : State) : State := { s with rx := s.rx.pop }

/-- What HOST's access answers (spec/20_memory.md R127; log 9). -/
def State.respond (s : State) (r : HostResponse) : State := { s with hostResp := r }

end Sys2Proof.Machine
end

