-- ==== Sys2Proof/Machine/Operands.lean ====
section
/-! DEFINITION. The operand forms of the commands: the readings of scratch words, the tone arrays and coefficient
banks, the transport regions and their checks (spec/00_scope.md R15, spec/45_transport.md R400, R408). -/

namespace Sys2Proof.Machine

/-- SCR_TAG.COUNT as a number. -/
def State.count (s : State) : Nat := s.tag.count.toNat

/-- FREQ[t] (spec/10_state.md R81). -/
def Cfg.freqAt (c : Cfg) (t : Nat) : Nat := ((c.freq[t]?).getD 0).toNat

/-- AMP[t] (R81). -/
def Cfg.ampAt (c : Cfg) (t : Nat) : Nat := ((c.amp[t]?).getD 0).toNat

/-- A word of a coefficient bank (R82). -/
def coefAt (bank : Vector Word 64) (k : Nat) : Word := (bank[k]?).getD 0

/-- Scratch word i as a code. -/
def State.codeAt (s : State) (i : Nat) : Nat := asU16 (s.scr.word i)

/-- Scratch word i as a Q15 value. -/
def State.q15At (s : State) (i : Nat) : Int := asQ15 (s.scr.word i)

/-- The words `f n` for 0 ≤ n < N. -/
def tabulate (count : Nat) (f : Nat → Word) : List Word := (List.range count).map f

/-- The byte region R of the transport commands (spec/45_transport.md R400). -/
def State.region (s : State) : List Byte := s.scr.bytes s.cfg.srcAddr.toNat s.cfg.srcLen.toNat

/-- The region check: SRC_ADDR + SRC_LEN > 32768 on unbounded integers (R400). -/
def State.regionOut (s : State) : Bool := decide (Config.scrBytes < s.cfg.srcAddr.toNat + s.cfg.srcLen.toNat)

/-- SEND.H's bytes: of each of SRC_LEN words, bits 7:0 then bits 15:8 (R408). -/
def State.halfwords (s : State) : List Byte :=
  (List.range s.cfg.srcLen.toNat).flatMap fun i =>
    let w := s.scr.word (s.cfg.srcAddr.toNat / 4 + i)
    [w.extractLsb' 0 8, w.extractLsb' 8 8]

/-- A payload of 128 bytes: scratch bytes from offset `base` on for the first `len`, then PAD_BYTE (R423, R442). -/
def State.payload (s : State) (base len : Nat) : List Byte :=
  (List.range Config.pktPayload).map fun i => if i < len then s.scr.read (base + i) else s.cfg.padByte

/-- The 133-byte packet with this sequence id and payload: preamble, id, complement, payload, CRC-16 of the payload
high byte first (R420). -/
def State.packet (s : State) (id : Byte) (pay : List Byte) : List Byte :=
  let c := crc16 pay
  [s.cfg.preamble, id, id ^^^ 0xFF] ++ pay ++ [c.extractLsb' 8 8, c.extractLsb' 0 8]

end Sys2Proof.Machine
end

