-- ==== Sys2Proof/Machine/Btx.lean ====
section
/-! DEFINITION. The block-transfer sender BTX (spec/45_transport.md R440 to R449). -/

namespace Sys2Proof.Machine

/-- The control bytes (R441). -/
def btStart : Byte := 0x43
def btAck : Byte := 0x06
def btNak : Byte := 0x15
def btCan : Byte := 0x18
def btEot : Byte := 0x04

/-- packet(k) (R442). -/
def State.blockPacket (s : State) (k : Nat) : List Byte :=
  s.packet (BitVec.ofNat 8 (k + 1))
    (s.payload (s.cfg.srcAddr.toNat + Config.pktPayload * k) (s.cfg.srcLen.toNat - Config.pktPayload * k))

/-- elapsed = (TICK − bt.T0) mod 2^32, at least this timeout (R443). -/
def State.timedOut (s : State) (timeout : Word) : Bool := decide (timeout ≤ s.tick - s.bt.t0)

/-- The engine goes to sending the packet of the current block. -/
def State.sendBlock (s : State) : State :=
  { s with bt := { s.bt with state := .sending, outq := s.blockPacket s.bt.blk } }

/-- The engine goes to sending EOT. -/
def State.sendEot (s : State) : State := { s with bt := { s.bt with state := .sendEot, outq := [btEot] } }

/-- `abort(code)` (R444). -/
def State.btAbort (s : State) (code : ErrCode) : State :=
  { s with bt := { s.bt with
      code := code, cancelReq := false, state := .aborted
      outq := if code = .btCancelRemote then [] else [btCan, btCan] } }

/-- `retry(code)` (R443). -/
def State.btRetry (s : State) (code : ErrCode) : State :=
  if s.cfg.btMaxRetry ≤ s.bt.retries then s.btAbort code
  else
    let s' := { s with bt := { s.bt with retries := s.bt.retries + 1 } }
    if s.bt.state = .waitAck then s'.sendBlock else s'.sendEot

/-- BLK, BLOCKS_ACKED and RETRIES after an ACK of a block, and the next thing to send (R443). -/
def State.btAcked (s : State) : State :=
  let blk := s.bt.blk + 1
  let s' := { s with bt := { s.bt with blk := blk, retries := 0 }, blocksAcked := BitVec.ofNat 9 blk }
  if blk = s.bt.nblk then s'.sendEot else s'.sendBlock

/-- The BTX ends: EVENTS.BT_DONE and the completion bookkeeping (R443). -/
def State.btEnd (s : State) (code : ErrCode) : State := (s.setEvents evBtDone).complete code 0

/-- AWAIT_START (R443). -/
def State.btAwaitStart (s : State) : State :=
  if s.bt.cancelReq then s.btAbort .btCancelHost
  else if s.timedOut s.cfg.btToStart then s.btAbort .btTimeout
  else if s.rx.seesEmpty then s
  else if s.rx.front = btStart then s.popRx.sendBlock
  else if s.rx.front = btCan then s.popRx.btAbort .btCancelRemote
  else s.popRx

/-- SENDING (R443). An empty OUTQ, which no run has here, waits. -/
def State.btSending (s : State) : State :=
  if s.bt.cancelReq then s.btAbort .btCancelHost
  else if s.tx.seesFull then s
  else
    match s.bt.outq with
    | [] => s
    | [b] => { s.pushTx b with bt := { s.bt with outq := [], state := .waitAck, t0 := s.tick } }
    | b :: rest => { s.pushTx b with bt := { s.bt with outq := rest } }

/-- WAIT_ACK (R443). -/
def State.btWaitAck (s : State) : State :=
  if s.bt.cancelReq then s.btAbort .btCancelHost
  else if s.timedOut s.cfg.btToAck then s.btRetry .btTimeout
  else if s.rx.seesEmpty then s
  else if s.rx.front = btAck then s.popRx.btAcked
  else if s.rx.front = btNak then s.popRx.btRetry .btRetries
  else if s.rx.front = btCan then s.popRx.btAbort .btCancelRemote
  else s.popRx

/-- SEND_EOT (R443). -/
def State.btSendEot (s : State) : State :=
  if s.bt.cancelReq then s.btAbort .btCancelHost
  else if s.tx.seesFull then s
  else { s.pushTx btEot with bt := { s.bt with outq := [], state := .waitEotAck, t0 := s.tick } }

/-- WAIT_EOT_ACK (R443). -/
def State.btWaitEotAck (s : State) : State :=
  if s.bt.cancelReq then s.btAbort .btCancelHost
  else if s.timedOut s.cfg.btToAck then s.btRetry .btTimeout
  else if s.rx.seesEmpty then s
  else if s.rx.front = btAck then { s.popRx with bt := { s.bt with state := .complete } }.btEnd .ok
  else if s.rx.front = btNak then s.popRx.btRetry .btRetries
  else if s.rx.front = btCan then s.popRx.btAbort .btCancelRemote
  else s.popRx

/-- ABORTED (R443). -/
def State.btAborted (s : State) : State :=
  match s.bt.outq with
  | [] => s.btEnd s.bt.code
  | b :: rest => if s.tx.seesFull then s else { s.pushTx b with bt := { s.bt with outq := rest } }

/-- One engine step (R443). The engine never runs in IDLE or COMPLETE; a state that says so waits. -/
def State.btEngineStep (s : State) : State :=
  match s.bt.state with
  | .idle => s
  | .awaitStart => s.btAwaitStart
  | .sending => s.btSending
  | .waitAck => s.btWaitAck
  | .sendEot => s.btSendEot
  | .waitEotAck => s.btWaitEotAck
  | .complete => s
  | .aborted => s.btAborted

/-- The checks of BTX's start step, in order (R445). -/
def State.btxChecks (s : State) : List (Bool × ErrCode) :=
  [(s.cfg.srcLen == 0, .lenInvalid), (s.regionOut, .range)]

/-- BTX's start step when its checks pass (R445). OUTQ and CODE are not written by it. -/
def State.btxStart (s : State) : State :=
  { s.withProgress .btx .engine with
    bt := { s.bt with
      nblk := (s.cfg.srcLen.toNat + Config.pktPayload - 1) / Config.pktPayload
      blk := 0, retries := 0, cancelReq := false, t0 := s.tick, state := .awaitStart }
    blocksAcked := 0 }

/-- BTX (R445): its start step, then the engine steps. -/
def execBtx (s : State) : Host.Outcome State Fault Refusal :=
  .next (match s.progress with
    | .start => s.checked s.btxChecks s.btxStart
    | .push _ => s.checked s.btxChecks s.btxStart
    | .engine => s.btEngineStep)

end Sys2Proof.Machine
end

