-- ==== Sys2Proof/Machine/Control.lean ====
section
/-! DEFINITION. NOP and the completion of an illegal word (spec/40_control.md R209, R210). -/

namespace Sys2Proof.Machine

/-- NOP (R210): completion with c = 0. -/
def execNop (s : State) : Host.Outcome State Fault Refusal := .next s.succeed

/-- The completion step of a word that decodes as ILLEGAL (R209). -/
def execIllegal (s : State) : Host.Outcome State Fault Refusal := .next (s.raise .illegalCmd)

end Sys2Proof.Machine
end

