-- ==== Sys2Proof/Machine/Tables.lean ====
section
/-! DEFINITION. The read-only tables: SIN_LUT (spec/41_synthesis.md R240), TW_F32 and TW_Q15
(spec/43_fft_magnitude.md R321), WIN_F32 and WIN_Q15 (spec/42_filter_norm_window.md R289), and the magnitude gains
(R340, R341). The spec gives each entry as an exact real rounded once. Here cosines are computed with 128
fraction bits from their series after reduction to an eighth of a turn, and rounded once. DEDUCED (log 11): the
error is far below the distance of every entry to a rounding boundary, so every entry is the spec's. -/

namespace Sys2Proof.Machine

/-- The fraction bits of the fixed-point cosines. -/
def trigBits : Nat := 128

/-- 1.0 in that fixed point. -/
def trigOne : Nat := 2 ^ trigBits

/-- floor(2π · 2^128). -/
def trigTwoPi : Nat := 0x6487ed5110b4611a62633145c06e0e689

/-- The nested alternating series 1 − x²/((i+1)(i+2))·(1 − x²/((i+3)(i+4))·(…)), `n` factors deep, in fixed point.
From i = 0 it is cos x, from i = 1 it is (sin x)/x. -/
def altSeries (x2 : Nat) : Nat → Nat → Nat
  | 0, _ => trigOne
  | n + 1, i => trigOne - x2 * altSeries x2 n (i + 2) / trigOne / ((i + 1) * (i + 2))

/-- cos(2π·p/q) in fixed point, for 0 ≤ p/q ≤ 1/8. -/
def cosEighth (p q : Nat) : Nat :=
  let x := trigTwoPi * p / q
  altSeries (x * x / trigOne) 17 0

/-- sin(2π·p/q) in fixed point, for 0 ≤ p/q ≤ 1/8. -/
def sinEighth (p q : Nat) : Nat :=
  let x := trigTwoPi * p / q
  x * altSeries (x * x / trigOne) 17 1 / trigOne

/-- cos(2π·p/q) in fixed point, for 0 ≤ p/q ≤ 1/4. -/
def cosQuarter (p q : Nat) : Nat :=
  if 8 * p ≤ q then cosEighth p q else sinEighth (q - 4 * p) (4 * q)

/-- cos(2π·p/q) in fixed point, q > 0: exact where the angle is a multiple of a quarter turn. -/
def cosTurn (p q : Nat) : Int :=
  let r := p % q
  let r := if q < 2 * r then q - r else r
  if q < 4 * r then -(cosQuarter (q - 2 * r) (2 * q) : Int) else (cosQuarter r q : Int)

/-- sin(2π·p/q) in fixed point, q > 0: the cosine a quarter turn earlier. -/
def sinTurn (p q : Nat) : Int := cosTurn (4 * p + 3 * q) (4 * q)

/-- SIN_LUT[j] = q15(sin(2πj/1024)) (spec/41_synthesis.md R240). -/
def sinLut (j : Nat) : Int := q15Rat (sinTurn j 1024) trigOne

/-- TW_F32(N, k) (spec/43_fft_magnitude.md R321). -/
def twF32 (n k : Nat) : Cplx F32 :=
  (f32OfRat (cosTurn k n) trigOne, f32OfRat (-sinTurn k n) trigOne)

/-- TW_Q15(N, k) (R321). -/
def twQ15 (n k : Nat) : Cplx Int :=
  (q15Rat (cosTurn k n) trigOne, q15Rat (-sinTurn k n) trigOne)

/-- The window coefficients (a0, a1, a2) in hundredths (spec/42_filter_norm_window.md R288). -/
def winCoefs : Win → Int × Int × Int
  | .none => (100, 0, 0)
  | .blackman => (42, 50, 8)
  | .hamming => (54, 46, 0)
  | .hann => (50, 50, 0)

/-- 100·w(n) in fixed point, for N ≥ 2 (R288). -/
def winFixed (w : Win) (count n : Nat) : Int :=
  let (a0, a1, a2) := winCoefs w
  a0 * trigOne - a1 * cosTurn n (count - 1) + a2 * cosTurn (2 * n) (count - 1)

/-- WIN_F32(win, N, n) (R289). -/
def winF32 (w : Win) (count n : Nat) : F32 := f32OfRat (winFixed w count n) (100 * trigOne)

/-- WIN_Q15(win, N, n) (R289). -/
def winQ15 (w : Win) (count n : Nat) : Int := q15Rat (winFixed w count n) (100 * trigOne)

/-- a0 in hundredths, the coherent gain of the applied window; 1 with no window (R297, spec/43_fft_magnitude.md
R340). -/
def winGain (w : Win) : Nat :=
  match w with
  | .none => 100
  | .blackman => 42
  | .hamming => 54
  | .hann => 50

/-- SCALE_F32(N, a0) = f32(4 / (a0·N)) (R341). -/
def magScale (w : Win) (n : Nat) : F32 := f32OfRat 400 (winGain w * n)

/-- G(a0) = round_half_away(4096·4 / a0) (R341). -/
def magGain (w : Win) : Nat := (roundHalfAway (4096 * 400) (winGain w)).toNat

end Sys2Proof.Machine
end

