-- ==== Sys2Proof/Machine/Fft.lean ====
section
/-! DEFINITION. The FFT core (spec/43_fft_magnitude.md R320 to R327). -/

namespace Sys2Proof.Machine

/-- The checks of FFT, in order (R320). -/
def State.fftChecks (s : State) : List (Bool × ErrCode) :=
  [(s.tag.kind != .f32N && s.tag.kind != .q15, .tagMismatch), (decide (s.count < 16), .lenInvalid)]

/-- N, the largest supported length at most COUNT; 16 for a COUNT below it, which no successful FFT has (R320). -/
def fftLength (count : Nat) : Nat := (Config.fftLengths.find? (fun l => decide (l ≤ count))).getD 16

/-- rev_b(n): the b low bits of n reversed (R322). -/
def bitRev : Nat → Nat → Nat
  | 0, _ => 0
  | b + 1, n => n % 2 * 2 ^ b + bitRev b (n / 2)

/-- The binary32 butterfly (R323). -/
def butterflyF (a b w : Cplx F32) : Cplx F32 × Cplx F32 :=
  let tr := f32Sub (f32Mul b.1 w.1) (f32Mul b.2 w.2)
  let ti := f32Add (f32Mul b.1 w.2) (f32Mul b.2 w.1)
  ((f32Add a.1 tr, f32Add a.2 ti), (f32Sub a.1 tr, f32Sub a.2 ti))

/-- The Q15 butterfly, with its stage scaling of 1/2 (R323). -/
def butterflyQ (a b w : Cplx Int) : Cplx Int × Cplx Int :=
  let tr := sra (b.1 * w.1 - b.2 * w.2) 15
  let ti := sra (b.1 * w.2 + b.2 * w.1) 15
  ((sat16 (sra (a.1 + tr) 1), sat16 (sra (a.2 + ti) 1)), (sat16 (sra (a.1 - tr) 1), sat16 (sra (a.2 - ti) 1)))

/-- One stage over `blocks` blocks of 2·h values: in each, butterfly k takes values k and k + h of the block and
the k-th of the stage's twiddles `ws` (R324). -/
def fftStage {α : Type} (bf : Cplx α → Cplx α → Cplx α → Cplx α × Cplx α) (ws : List (Cplx α)) (h : Nat) :
    Nat → List (Cplx α) → List (Cplx α)
  | 0, _ => []
  | blocks + 1, z =>
    let out := List.zipWith (fun ab w => bf ab.1 ab.2 w) ((z.take h).zip ((z.drop h).take h)) ws
    out.map (fun p => p.1) ++ out.map (fun p => p.2) ++ fftStage bf ws h blocks (z.drop (2 * h))

/-- The stages s = 1 .. L2 over the bit-reversed values, with m = 2^s, h = m/2 and twiddles TW(N, k·(N/m)) (R324). -/
def fftStages {α : Type} (bf : Cplx α → Cplx α → Cplx α → Cplx α × Cplx α) (tw : Nat → Cplx α) (n l2 : Nat)
    (z : List (Cplx α)) : List (Cplx α) :=
  (List.range l2).foldl
    (fun z s =>
      let h := 2 ^ s
      fftStage bf ((List.range h).map fun k => tw (k * (n / (2 * h)))) h (n / (2 * h)) z)
    z

/-- The values loaded: x[n] goes to place rev(n), so place i holds x[rev(i)], with imaginary part zero (R322). -/
def fftLoad {α : Type} (x : Nat → α) (zero : α) (n l2 : Nat) : List (Cplx α) :=
  (List.range n).map fun i => (x (bitRev l2 i), zero)

/-- The transform of binary32 data. -/
def fftF32 (x : Nat → F32) (n : Nat) : List (Cplx F32) :=
  fftStages butterflyF (twF32 n) n n.log2 (fftLoad x 0 n n.log2)

/-- The transform of Q15 data. -/
def fftQ15 (x : Nat → Int) (n : Nat) : List (Cplx Int) :=
  fftStages butterflyQ (twQ15 n) n n.log2 (fftLoad x 0 n n.log2)

/-- The output words: real part then imaginary part of each bin (R325). -/
def State.fftWords (s : State) (n : Nat) : List Word :=
  if s.tag.kind = .f32N then (fftF32 s.scr.word n).flatMap fun z => [z.1, z.2]
  else (fftQ15 s.q15At n).flatMap fun z => [wordQ15 z.1, wordQ15 z.2]

/-- The effects of a successful FFT: the bins, the tag, FFT_LEN, and FFT_ROUND (bit 2 of WARN) when the length was
rounded down (R320, R325, R327). -/
def State.fftDone (s : State) : State :=
  let n := fftLength s.count
  let s' := s.store (s.fftWords n)
    { s.tag with kind := if s.tag.kind = .f32N then .f32Spec else .q15Spec, count := BitVec.ofNat 13 n }
  { s' with fftLen := BitVec.ofNat 13 n }.complete .ok (if n = s.count then 0 else 4)

/-- FFT (R327). -/
def execFft (s : State) : Host.Outcome State Fault Refusal := .next (s.checked s.fftChecks s.fftDone)

end Sys2Proof.Machine
end

