-- ==== Sys2Proof/Machine/Fir.lean ====
section
/-! DEFINITION. The FIR filter: FIR.NONE, FIR.LP, FIR.BP (spec/42_filter_norm_window.md R270 to R278). -/

namespace Sys2Proof.Machine

/-- The checks of FIR.LP and FIR.BP with tap count T, in order (R271). -/
def State.firChecks (s : State) (taps : Nat) : List (Bool × ErrCode) :=
  [(s.tag.kind != .u16 && s.tag.kind != .f32Phys, .tagMismatch), (s.count == 0, .lenInvalid),
   (decide (taps < 1) || decide (Config.firMaxTaps < taps), .cfgInvalid)]

/-- y_n of the integer FIR (R273): x[m] for m < 0 is absent, so at most n + 1 taps count. -/
def State.firInt (s : State) (bank : Vector Word 64) (taps n : Nat) : Int :=
  let acc := (List.range (min taps (n + 1))).foldl
    (fun acc k => acc + asQ15 (coefAt bank k) * (s.codeAt (n - k) : Int)) 0
  clamp (sra (acc + 16384) 15) 0 Config.codeMax

/-- y_n of the binary32 FIR (R274). -/
def State.firFloat (s : State) (bank : Vector Word 64) (taps n : Nat) : F32 :=
  (List.range (min taps (n + 1))).foldl
    (fun acc k => f32Add acc (f32Mul (coefAt bank k) (s.scr.word (n - k)))) 0

/-- Word n of the filter's output: the coefficient format follows the data kind (R272, R275). -/
def State.firWord (s : State) (bank : Vector Word 64) (taps n : Nat) : Word :=
  if s.tag.kind = .u16 then wordU16 (s.firInt bank taps n).toNat else s.firFloat bank taps n

/-- A FIR with this bank and tap count: the checks, then every output word from the input words as they were, the
tag unchanged (R271, R275). -/
def State.fir (s : State) (bank : Vector Word 64) (taps : Nat) : State :=
  s.checked (s.firChecks taps) (s.store (tabulate s.count (s.firWord bank taps)) s.tag).succeed

/-- FIR.NONE (R276): no check, no write. -/
def execFirNone (s : State) : Host.Outcome State Fault Refusal := .next s.succeed

/-- FIR.LP (R277). -/
def execFirLp (s : State) : Host.Outcome State Fault Refusal :=
  .next (s.fir s.cfg.coefLp s.cfg.firTapsLp.toNat)

/-- FIR.BP (R278). -/
def execFirBp (s : State) : Host.Outcome State Fault Refusal :=
  .next (s.fir s.cfg.coefBp s.cfg.firTapsBp.toNat)

end Sys2Proof.Machine
end

