-- ==== Sys2Proof/Machine/Mag.lean ====
section
/-! DEFINITION. The magnitude stage (spec/43_fft_magnitude.md R340 to R343). -/

namespace Sys2Proof.Machine

/-- The checks of MAG, in order (R340). -/
def State.magChecks (s : State) : List (Bool × ErrCode) :=
  [(s.tag.kind != .f32Spec && s.tag.kind != .q15Spec, .tagMismatch),
   (!Config.fftLengths.contains s.count, .lenInvalid)]

/-- Magnitude word k of a binary32 spectrum (R341). -/
def State.magF (s : State) (k : Nat) : F32 :=
  let re := s.scr.word (2 * k)
  let im := s.scr.word (2 * k + 1)
  f32Mul (f32Sqrt (f32Add (f32Mul re re) (f32Mul im im))) (magScale s.tag.win s.count)

/-- Magnitude word k of a Q15 spectrum (R341). -/
def State.magQ (s : State) (k : Nat) : Nat :=
  let re := s.q15At (2 * k)
  let im := s.q15At (2 * k + 1)
  isqrt (re * re + im * im).toNat * magGain s.tag.win / 2 ^ 12

/-- Word k of MAG's output. -/
def State.magWord (s : State) (k : Nat) : Word :=
  if s.tag.kind = .f32Spec then s.magF k else BitVec.ofNat 32 (s.magQ k)

/-- The effects of a successful MAG: words 0 .. N/2 − 1 and the tag, WIN unchanged (R342). Word k is written after
words 2k and 2k + 1 are read, in ascending k, so each word reads the bins as they were. -/
def State.magDone (s : State) : State :=
  (s.store (tabulate (s.count / 2) s.magWord)
    { s.tag with kind := if s.tag.kind = .f32Spec then .f32Mag else .q15Mag
                 count := BitVec.ofNat 13 (s.count / 2) }).succeed

/-- MAG (R342). -/
def execMag (s : State) : Host.Outcome State Fault Refusal := .next (s.checked s.magChecks s.magDone)

end Sys2Proof.Machine
end

