-- ==== Sys2Proof/Machine/Norm.lean ====
section
/-! DEFINITION. DC-centering and normalization: NORM.F, NORM.Q (spec/42_filter_norm_window.md R280 to R284). -/

namespace Sys2Proof.Machine

/-- The checks of NORM.F, in order (R280). -/
def State.normFChecks (s : State) : List (Bool × ErrCode) :=
  [(s.tag.kind != .u16 && s.tag.kind != .f32Phys, .tagMismatch), (s.count == 0, .lenInvalid),
   (s.tag.kind == .f32Phys && s.cfg.vref == 0, .cfgInvalid)]

/-- The checks of NORM.Q, in order (R280). -/
def State.normQChecks (s : State) : List (Bool × ErrCode) :=
  [(s.tag.kind != .u16, .tagMismatch), (s.count == 0, .lenInvalid)]

/-- A code to normalized binary32: (f32(x) − f32(MID)) / f32(MID) (R281). -/
def normCode (x : Nat) : F32 :=
  f32Div (f32Sub (f32OfNat x) (f32OfNat Config.mid)) (f32OfNat Config.mid)

/-- Millivolts to normalized binary32: (x − h) / h with h = f32(VREF) / 2.0 (R282). -/
def normPhys (vref : Nat) (x : F32) : F32 :=
  let h := f32Div (f32OfNat vref) f32Two
  f32Div (f32Sub x h) h

/-- Word n of NORM.F's output (R283). -/
def State.normFWord (s : State) (n : Nat) : Word :=
  if s.tag.kind = .u16 then normCode (s.codeAt n) else normPhys s.cfg.vref.toNat (s.scr.word n)

/-- Word n of NORM.Q's output (R284): sat16((x − MID) << 4). -/
def State.normQWord (s : State) (n : Nat) : Word :=
  wordQ15 (sat16 (((s.codeAt n : Int) - Config.mid) * 16))

/-- NORM.F (R283): WIN and COUNT unchanged. -/
def execNormF (s : State) : Host.Outcome State Fault Refusal :=
  .next (s.checked s.normFChecks (s.store (tabulate s.count s.normFWord) { s.tag with kind := .f32N }).succeed)

/-- NORM.Q (R284): WIN and COUNT unchanged. -/
def execNormQ (s : State) : Host.Outcome State Fault Refusal :=
  .next (s.checked s.normQChecks (s.store (tabulate s.count s.normQWord) { s.tag with kind := .q15 }).succeed)

end Sys2Proof.Machine
end

