-- ==== Sys2Proof/Machine/Synth.lean ====
section
/-! DEFINITION. The signal synthesizer: SYNTH.F32, SYNTH.U16, SYNTH.FIX (spec/41_synthesis.md). -/

namespace Sys2Proof.Machine

/-- The checks of every SYNTH command, in order (R231). -/
def State.synthChecks (s : State) : List (Bool × ErrCode) :=
  [(s.cfg.sigSrc == 1, .cfgInvalid), (s.cfg.fs == 0, .cfgInvalid), (s.cfg.vref == 0, .cfgInvalid),
   (s.cfg.len == 0, .lenInvalid)]

/-- N, the sample count (R232). -/
def State.synthCount (s : State) : Nat := min s.cfg.len.toNat Config.nmax

/-- M, the tone count (R232). -/
def State.synthTones (s : State) : Nat := min s.cfg.numTones.toNat Config.maxTones

/-- The warnings: LEN_CLIP is bit 0, TONES_CLIP bit 1 (R232, spec/10_state.md R49). -/
def State.synthWarns (s : State) : BitVec 3 :=
  (if Config.nmax < s.cfg.len.toNat then 1 else 0) ||| (if Config.maxTones < s.cfg.numTones.toNat then 2 else 0)

/-- The common effects of a successful SYNTH: word n is `sample n` for n < N, the tag is written, the command
completes with the warnings (R233). -/
def State.synthDone (s : State) (kind : Kind) (sample : Nat → Word) : State :=
  (s.store (tabulate s.synthCount sample) { kind, win := .none, count := BitVec.ofNat 13 s.synthCount }).complete
    .ok s.synthWarns

/-- t_n = f32(n) / f32(FS) (R234). -/
def State.synthTime (s : State) (n : Nat) : F32 := f32Div (f32OfNat n) (f32OfNat s.cfg.fs.toNat)

/-- f32(AMP[i]) · fsin((TWO_PI · f32(FREQ[i])) · t_n) (R234). -/
def State.toneF (s : State) (n i : Nat) : F32 :=
  f32Mul (f32OfNat (s.cfg.ampAt i))
    (fsin (f32Mul (f32Mul f32TwoPi (f32OfNat (s.cfg.freqAt i))) (s.synthTime n)))

/-- v_n: DC_OFFSET and then the tones in index order (R234). -/
def State.toneSumF (s : State) (n : Nat) : F32 :=
  (List.range s.synthTones).foldl (fun v i => f32Add v (s.toneF n i)) (f32OfNat s.cfg.dcOffset.toNat)

/-- One step of the 32-bit xorshift (R236). -/
def xorshift (x : Word) : Word :=
  let x := x ^^^ (x <<< 13)
  let x := x ^^^ (x >>> 17)
  x ^^^ (x <<< 5)

/-- The generator's state after n steps from the seed (R236). -/
def noiseState (seed : Word) : Nat → Word
  | 0 => seed
  | n + 1 => xorshift (noiseState seed n)

/-- r_n of a generator state: f32(s[31:8]) · f32(2^-23) − 1.0 (R236). -/
def noiseUnit (x : Word) : F32 :=
  f32Sub (f32Mul (f32OfNat (x.extractLsb' 8 24).toNat) (f32OfRat 1 (2 ^ 23))) f32One

/-- v_n with the noise added after the tones, unless NOISE_AMP is the pattern 0 (R236). Sample n uses the
generator's state after n + 1 steps. -/
def State.noisyF (s : State) (n : Nat) : F32 :=
  if s.cfg.noiseAmp = 0 then s.toneSumF n
  else f32Add (s.toneSumF n) (f32Mul s.cfg.noiseAmp (noiseUnit (noiseState s.cfg.noiseSeed (n + 1))))

/-- fclamp(v, +0.0, f32(VREF)) (R237, R238). -/
def State.clampF (s : State) (v : F32) : F32 := f32Clamp v 0 (f32OfNat s.cfg.vref.toNat)

/-- The quantizer code of a clamped sample (R238). -/
def State.quantize (s : State) (out : F32) : Nat :=
  min (f32Trunc (f32Div (f32Mul out (f32OfNat Config.codeMax)) (f32OfNat s.cfg.vref.toNat))) Config.codeMax

/-- inc_i (R239). -/
def State.phaseInc (s : State) (i : Nat) : Nat := s.cfg.freqAt i * 65536 / s.cfg.fs.toNat % 65536

/-- c_{n,i}, one tone of the fixed path (R239, R241). -/
def State.toneX (s : State) (n i : Nat) : Int :=
  sra (s.cfg.ampAt i * sinLut (n * s.phaseInc i % 65536 / 64)) 15

/-- v_n of the fixed path (R241). -/
def State.toneSumX (s : State) (n : Nat) : Int :=
  (List.range s.synthTones).foldl (fun v i => v + s.toneX n i) s.cfg.dcOffset.toNat

/-- code_n of the fixed path (R241). -/
def State.codeX (s : State) (n : Nat) : Nat :=
  ((clamp (s.toneSumX n) 0 s.cfg.vref.toNat) * Config.codeMax / s.cfg.vref.toNat).toNat

/-- SYNTH.F32 (R237). -/
def execSynthF32 (s : State) : Host.Outcome State Fault Refusal :=
  .next (s.checked s.synthChecks (s.synthDone .f32Phys fun n => s.clampF (s.noisyF n)))

/-- SYNTH.U16 (R238): no noise. -/
def execSynthU16 (s : State) : Host.Outcome State Fault Refusal :=
  .next (s.checked s.synthChecks (s.synthDone .u16 fun n => wordU16 (s.quantize (s.clampF (s.toneSumF n)))))

/-- SYNTH.FIX (R242). -/
def execSynthFix (s : State) : Host.Outcome State Fault Refusal :=
  .next (s.checked s.synthChecks (s.synthDone .u16 fun n => wordU16 (s.codeX n)))

end Sys2Proof.Machine
end

