-- ==== Sys2Proof/Machine/Transport.lean ====
section
/-! DEFINITION. CRC32, CRC16, SEND.B, SEND.H, PKTCHK and PKTBLD (spec/45_transport.md R405 to R424). -/

namespace Sys2Proof.Machine

/-- CRC32 (R405). -/
def execCrc32 (s : State) : Host.Outcome State Fault Refusal :=
  .next (s.checked [(s.regionOut, .range)] { s with crc32Res := crc32 s.region }.succeed)

/-- CRC16 (R406). -/
def execCrc16 (s : State) : Host.Outcome State Fault Refusal :=
  .next (s.checked [(s.regionOut, .range)] { s with crc16Res := crc16 s.region }.succeed)

/-- One step of the streaming command `i` (R407): its start, which runs the checks and fixes the byte sequence; a
push, which waits while the core side sees the TX FIFO full (spec/44_fifo_cdc.md R373); or, with nothing left to
push, its completion, with the result registers written by `finish`. -/
def State.stream (s : State) (i : Instr) (checks : List (Bool × ErrCode)) (bytes : List Byte)
    (finish : State → State) : State :=
  match s.progress with
  | .push [] => (finish s).succeed
  | .push (b :: rest) => if s.tx.seesFull then s else (s.pushTx b).withProgress i (.push rest)
  | .start => s.checked checks (s.withProgress i (.push bytes))
  | .engine => s.checked checks (s.withProgress i (.push bytes))

/-- SEND.B (R410). CRC32_RES is the CRC-32 of the whole sequence, read again at the completion step: the region
and its registers are busy-guarded and cannot have changed (R407; log 16). -/
def execSendB (s : State) : Host.Outcome State Fault Refusal :=
  .next (s.stream .sendB [(s.regionOut, .range)] s.region fun s => { s with crc32Res := crc32 s.region })

/-- The checks of SEND.H, in order (R408). -/
def State.sendHChecks (s : State) : List (Bool × ErrCode) :=
  [(s.cfg.srcAddr.toNat % 4 != 0, .align),
   (decide (Config.scrBytes < s.cfg.srcAddr.toNat + 4 * s.cfg.srcLen.toNat), .range)]

/-- SEND.H (R411). -/
def execSendH (s : State) : Host.Outcome State Fault Refusal :=
  .next (s.stream .sendH s.sendHChecks s.halfwords fun s => { s with crc32Res := crc32 s.halfwords })

/-- PKT_STATUS of a packet against an expected id (R421, spec/10_state.md R67). -/
def pktStatusOf (preamble id : Byte) (p : List Byte) : BitVec 5 :=
  let preOk := p.getD 0 0 == preamble
  let seqOk := p.getD 1 0 == id
  let cmpOk := p.getD 2 0 == p.getD 1 0 ^^^ 0xFF
  let crcOk := p.getD 131 0 ++ p.getD 132 0 == crc16 ((p.drop 3).take Config.pktPayload)
  BitVec.ofBool (preOk && seqOk && cmpOk && crcOk) ++ BitVec.ofBool crcOk ++ BitVec.ofBool cmpOk
    ++ BitVec.ofBool seqOk ++ BitVec.ofBool preOk

/-- PKTCHK (R422). -/
def execPktChk (s : State) : Host.Outcome State Fault Refusal :=
  .next (s.checked [(decide (Config.scrBytes < s.cfg.srcAddr.toNat + Config.pktBytes), .range)]
    { s with pktStatus := pktStatusOf s.cfg.preamble s.cfg.pktSeq
                (s.scr.bytes s.cfg.srcAddr.toNat Config.pktBytes) }.succeed)

/-- The checks of PKTBLD, in order (R423). -/
def State.pktBldChecks (s : State) : List (Bool × ErrCode) :=
  [(decide (Config.pktPayload < s.cfg.srcLen.toNat), .lenInvalid), (s.regionOut, .range)]

/-- PKTBLD (R423). -/
def execPktBld (s : State) : Host.Outcome State Fault Refusal :=
  .next (s.stream .pktBld s.pktBldChecks
    (s.packet s.cfg.pktSeq (s.payload s.cfg.srcAddr.toNat s.cfg.srcLen.toNat)) id)

end Sys2Proof.Machine
end

