-- ==== Sys2Proof/Machine/Window.lean ====
section
/-! DEFINITION. The window multiplier: WIN.BLACKMAN, WIN.HAMMING, WIN.HANN (spec/42_filter_norm_window.md R288 to
R296). -/

namespace Sys2Proof.Machine

/-- The checks of every WIN command, in order (R290). -/
def State.winChecks (s : State) : List (Bool × ErrCode) :=
  [(s.tag.kind != .f32N && s.tag.kind != .q15, .tagMismatch), (s.tag.win != .none, .tagMismatch),
   (decide (s.count < 2), .lenInvalid)]

/-- Word n of the windowed data: binary32 (R291) or Q15, rounded to nearest with ties up (R292). -/
def State.winWord (s : State) (w : Win) (n : Nat) : Word :=
  if s.tag.kind = .f32N then f32Mul (s.scr.word n) (winF32 w s.count n)
  else wordQ15 (sra (s.q15At n * winQ15 w s.count n + 16384) 15)

/-- A WIN command: the checks, then the words and SCR_TAG.WIN, KIND and COUNT unchanged (R290, R293). -/
def State.window (s : State) (w : Win) : State :=
  s.checked s.winChecks (s.store (tabulate s.count (s.winWord w)) { s.tag with win := w }).succeed

/-- WIN.BLACKMAN (R294). -/
def execWinBlackman (s : State) : Host.Outcome State Fault Refusal := .next (s.window .blackman)

/-- WIN.HAMMING (R295). -/
def execWinHamming (s : State) : Host.Outcome State Fault Refusal := .next (s.window .hamming)

/-- WIN.HANN (R296). -/
def execWinHann (s : State) : Host.Outcome State Fault Refusal := .next (s.window .hann)

end Sys2Proof.Machine
end

