-- ==== Sys2Proof/Machine/Dispatch.lean ====
section
/-! DEFINITION. One SEQ step of a command, one arm per command. -/

namespace Sys2Proof.Machine

def exec (i : Instr) (s : State) : Host.Outcome State Fault Refusal :=
  match i with
  | .nop => Sys2Proof.Machine.execNop s
  | .synthF32 => Sys2Proof.Machine.execSynthF32 s
  | .synthU16 => Sys2Proof.Machine.execSynthU16 s
  | .synthFix => Sys2Proof.Machine.execSynthFix s
  | .firNone => Sys2Proof.Machine.execFirNone s
  | .firLp => Sys2Proof.Machine.execFirLp s
  | .firBp => Sys2Proof.Machine.execFirBp s
  | .normF => Sys2Proof.Machine.execNormF s
  | .normQ => Sys2Proof.Machine.execNormQ s
  | .winBlackman => Sys2Proof.Machine.execWinBlackman s
  | .winHamming => Sys2Proof.Machine.execWinHamming s
  | .winHann => Sys2Proof.Machine.execWinHann s
  | .fft => Sys2Proof.Machine.execFft s
  | .mag => Sys2Proof.Machine.execMag s
  | .crc32 => Sys2Proof.Machine.execCrc32 s
  | .crc16 => Sys2Proof.Machine.execCrc16 s
  | .sendB => Sys2Proof.Machine.execSendB s
  | .sendH => Sys2Proof.Machine.execSendH s
  | .pktChk => Sys2Proof.Machine.execPktChk s
  | .pktBld => Sys2Proof.Machine.execPktBld s
  | .btx => Sys2Proof.Machine.execBtx s

end Sys2Proof.Machine
end

