-- ==== Sys2Proof/Machine/Flags.lean ====
section
/-! DEFINITION. The codes and the words software reads: result codes, tag, engine states, STATUS, and the IRQ
output (spec/10_state.md R45, R62, R70, spec/60_exceptions.md R500, R510). -/

namespace Sys2Proof.Machine

/-- ERR_CODE.CODE of a result (spec/60_exceptions.md R500). -/
def ErrCode.code : ErrCode → BitVec 8
  | .ok => 0
  | .illegalCmd => 1
  | .tagMismatch => 2
  | .lenInvalid => 3
  | .cfgInvalid => 4
  | .range => 5
  | .align => 6
  | .btTimeout => 7
  | .btRetries => 8
  | .btCancelRemote => 9
  | .btCancelHost => 10

/-- The KIND codes (spec/10_state.md R62). -/
def Kind.code : Kind → BitVec 4
  | .empty => 0
  | .f32Phys => 1
  | .u16 => 2
  | .f32N => 3
  | .q15 => 4
  | .f32Spec => 5
  | .q15Spec => 6
  | .f32Mag => 7
  | .q15Mag => 8

/-- The kind of a KIND code, for the codes 0 to 8 (R62). -/
def Kind.ofCode (c : BitVec 4) : Option Kind :=
  match c.toNat with
  | 0 => some .empty
  | 1 => some .f32Phys
  | 2 => some .u16
  | 3 => some .f32N
  | 4 => some .q15
  | 5 => some .f32Spec
  | 6 => some .q15Spec
  | 7 => some .f32Mag
  | 8 => some .q15Mag
  | _ => none

/-- The WIN codes (R62). -/
def Win.code : Win → BitVec 2
  | .none => 0
  | .blackman => 1
  | .hamming => 2
  | .hann => 3

/-- The window of a WIN code (R62). -/
def Win.ofCode (c : BitVec 2) : Win :=
  match c.toNat with
  | 0 => .none
  | 1 => .blackman
  | 2 => .hamming
  | _ => .hann

/-- The BT_STATE codes (spec/45_transport.md R440). -/
def BtState.code : BtState → BitVec 3
  | .idle => 0
  | .awaitStart => 1
  | .sending => 2
  | .waitAck => 3
  | .sendEot => 4
  | .waitEotAck => 5
  | .complete => 6
  | .aborted => 7

/-- STATUS.RX_NE: the core side does not see the RX FIFO empty (spec/44_fifo_cdc.md R368). -/
def State.rxNe (s : State) : Bool := !s.rx.seesEmpty

/-- STATUS.TX_FULL: the core side sees the TX FIFO full (R368). -/
def State.txFull (s : State) : Bool := s.tx.seesFull

/-- STATUS.TX_EMPTY: as far as the core side knows, STX has taken every pushed byte (R368). -/
def State.txEmpty (s : State) : Bool := s.tx.wp == ungray s.tx.rps

/-- STATUS as read (spec/10_state.md R45). -/
def State.statusWord (s : State) : Word :=
  0#16 ++ s.lastCmd.extractLsb' 0 8 ++ 0#1 ++ s.bt.state.code
    ++ BitVec.ofBool s.txEmpty ++ BitVec.ofBool s.txFull ++ BitVec.ofBool s.rxNe ++ BitVec.ofBool s.busy

/-- SCR_TAG as read (R62). -/
def ScrTag.toWord (t : ScrTag) : Word := 0#3 ++ t.count ++ 0#10 ++ t.win.code ++ t.kind.code

/-- SCR_TAG after a HOST write of v (R62). -/
def ScrTag.written (t : ScrTag) (v : Word) : ScrTag :=
  { kind := (Kind.ofCode (v.extractLsb' 0 4)).getD t.kind
    win := Win.ofCode (v.extractLsb' 4 2)
    count := BitVec.ofNat 13 (min (v.extractLsb' 16 13).toNat Config.nmax) }

/-- BT_RESULT as read (R70). -/
def State.btResultWord (s : State) : Word := 0#8 ++ s.bt.retries ++ 0#7 ++ s.blocksAcked

/-- The interrupt output (spec/60_exceptions.md R510). -/
def State.irq (s : State) : Bool :=
  (s.events &&& s.irqEn.extractLsb' 0 8) != 0
    || (s.rxNe && s.irqEn.getLsbD 8)
    || (s.txEmpty && s.irqEn.getLsbD 9)

end Sys2Proof.Machine
end

