-- ==== Sys2Proof/Machine/HostPort.lean ====
section
/-! DEFINITION. The host port: the register map, register reads and writes with their side effects, and MemRead and
MemWrite (spec/10_state.md R42 to R77, spec/20_memory.md R122 to R130, spec/40_control.md R204 to R211,
spec/44_fifo_cdc.md R374, R375). -/

namespace Sys2Proof.Machine

/-- The registers of the map (spec/10_state.md R42). -/
inductive Reg where
  | id | ctrl | status | events | irqEn | cmd | errCode | warn | scrTag | fftLen
  | numTones | len | fs | dcOffset | vref | noiseAmp | noiseSeed | sigSrc | firTapsLp | firTapsBp
  | srcAddr | srcLen | crc32Res | crc16Res | pktSeq | pktStatus | btMaxRetry | btToStart | btToAck | btResult
  | tick | rxData | txData | preamble | padByte
  | freq (t : Fin 8)
  | amp (t : Fin 8)
  | coefLp (k : Fin 64)
  | coefBp (k : Fin 64)
  deriving DecidableEq, Repr

/-- The offsets of the single registers (R42). -/
def regMap : List (Nat × Reg) :=
  [(0x0000, .id), (0x0004, .ctrl), (0x0008, .status), (0x000C, .events), (0x0010, .irqEn), (0x0014, .cmd),
   (0x0018, .errCode), (0x001C, .warn), (0x0020, .scrTag), (0x0024, .fftLen), (0x0040, .numTones),
   (0x0044, .len), (0x0048, .fs), (0x004C, .dcOffset), (0x0050, .vref), (0x0054, .noiseAmp),
   (0x0058, .noiseSeed), (0x005C, .sigSrc), (0x0060, .firTapsLp), (0x0064, .firTapsBp), (0x0068, .srcAddr),
   (0x006C, .srcLen), (0x0070, .crc32Res), (0x0074, .crc16Res), (0x0078, .pktSeq), (0x007C, .pktStatus),
   (0x0080, .btMaxRetry), (0x0084, .btToStart), (0x0088, .btToAck), (0x008C, .btResult), (0x0090, .tick),
   (0x0094, .rxData), (0x0098, .txData), (0x009C, .preamble), (0x00A0, .padByte)]

/-- Element (a − base)/4 of an array register of n words at `base`. -/
def arrayReg (base n a : Nat) (f : Fin n → Reg) : Option Reg :=
  if base ≤ a ∧ a % 4 = 0 then (if h : (a - base) / 4 < n then some (f ⟨(a - base) / 4, h⟩) else none) else none

/-- The register at an offset of the register half; none at a reserved address (R42, spec/20_memory.md R122). -/
def regAt (a : Nat) : Option Reg :=
  regMap.lookup a <|> arrayReg 0x0100 8 a .freq <|> arrayReg 0x0120 8 a .amp
    <|> arrayReg 0x0400 64 a .coefLp <|> arrayReg 0x0500 64 a .coefBp

/-- The busy-guarded column of the map (R42). CMD has its own drop, CTRL, EVENTS, WARN and IRQ_EN are always written
(spec/40_control.md R205, R206). -/
def Reg.busyGuarded : Reg → Bool
  | .id | .ctrl | .status | .events | .irqEn | .cmd | .errCode | .warn | .fftLen | .crc32Res | .crc16Res
  | .pktStatus | .btResult | .tick | .rxData => false
  | .scrTag | .numTones | .len | .fs | .dcOffset | .vref | .noiseAmp | .noiseSeed | .sigSrc | .firTapsLp
  | .firTapsBp | .srcAddr | .srcLen | .pktSeq | .btMaxRetry | .btToStart | .btToAck | .txData | .preamble
  | .padByte | .freq _ | .amp _ | .coefLp _ | .coefBp _ => true

/-- What a register reads as; reserved bits read 0 (R43 to R76). RXDATA's pop is in `State.regRead`. -/
def State.regValue (s : State) : Reg → Word
  | .id => Config.blockId
  | .ctrl => 0
  | .status => s.statusWord
  | .events => s.events.setWidth 32
  | .irqEn => s.irqEn.setWidth 32
  | .cmd => s.lastCmd
  | .errCode => s.errCode.code.setWidth 32
  | .warn => s.warn.setWidth 32
  | .scrTag => s.tag.toWord
  | .fftLen => s.fftLen.setWidth 32
  | .numTones => s.cfg.numTones.setWidth 32
  | .len => s.cfg.len
  | .fs => s.cfg.fs
  | .dcOffset => s.cfg.dcOffset.setWidth 32
  | .vref => s.cfg.vref.setWidth 32
  | .noiseAmp => s.cfg.noiseAmp
  | .noiseSeed => s.cfg.noiseSeed
  | .sigSrc => s.cfg.sigSrc.setWidth 32
  | .firTapsLp => s.cfg.firTapsLp.setWidth 32
  | .firTapsBp => s.cfg.firTapsBp.setWidth 32
  | .srcAddr => s.cfg.srcAddr.setWidth 32
  | .srcLen => s.cfg.srcLen.setWidth 32
  | .crc32Res => s.crc32Res
  | .crc16Res => s.crc16Res.setWidth 32
  | .pktSeq => s.cfg.pktSeq.setWidth 32
  | .pktStatus => s.pktStatus.setWidth 32
  | .btMaxRetry => s.cfg.btMaxRetry.setWidth 32
  | .btToStart => s.cfg.btToStart
  | .btToAck => s.cfg.btToAck
  | .btResult => s.btResultWord
  | .tick => s.tick
  | .rxData => if s.runsBtx || s.rx.seesEmpty then 0 else 0#23 ++ 1#1 ++ s.rx.front
  | .txData => 0
  | .preamble => s.cfg.preamble.setWidth 32
  | .padByte => s.cfg.padByte.setWidth 32
  | .freq t => s.cfg.freq[t]
  | .amp t => s.cfg.amp[t].setWidth 32
  | .coefLp k => s.cfg.coefLp[k]
  | .coefBp k => s.cfg.coefBp[k]

/-- The state after a register read: only RXDATA has a side effect, its pop (spec/20_memory.md R130,
spec/44_fifo_cdc.md R374). -/
def State.afterRead (s : State) : Reg → State
  | .rxData => if s.runsBtx || s.rx.seesEmpty then s else s.popRx
  | _ => s

/-- A configuration register written: the implemented bits of v are stored, reserved bits ignored (R76). -/
def Cfg.written (c : Cfg) (v : Word) : Reg → Cfg
  | .numTones => { c with numTones := v.setWidth 16 }
  | .len => { c with len := v }
  | .fs => { c with fs := v }
  | .dcOffset => { c with dcOffset := v.setWidth 16 }
  | .vref => { c with vref := v.setWidth 16 }
  | .noiseAmp => { c with noiseAmp := v }
  | .noiseSeed => { c with noiseSeed := v }
  | .sigSrc => { c with sigSrc := v.setWidth 1 }
  | .firTapsLp => { c with firTapsLp := v.setWidth 7 }
  | .firTapsBp => { c with firTapsBp := v.setWidth 7 }
  | .srcAddr => { c with srcAddr := v.setWidth 15 }
  | .srcLen => { c with srcLen := v.setWidth 16 }
  | .pktSeq => { c with pktSeq := v.setWidth 8 }
  | .btMaxRetry => { c with btMaxRetry := v.setWidth 8 }
  | .btToStart => { c with btToStart := v }
  | .btToAck => { c with btToAck := v }
  | .preamble => { c with preamble := v.setWidth 8 }
  | .padByte => { c with padByte := v.setWidth 8 }
  | .freq t => { c with freq := c.freq.set t v }
  | .amp t => { c with amp := c.amp.set t (v.setWidth 16) }
  | .coefLp k => { c with coefLp := c.coefLp.set k v }
  | .coefBp k => { c with coefBp := c.coefBp.set k v }
  | .id | .ctrl | .status | .events | .irqEn | .cmd | .errCode | .warn | .scrTag | .fftLen | .crc32Res
  | .crc16Res | .pktStatus | .btResult | .tick | .rxData | .txData => c

/-- BT_CANCEL has something to cancel: a BTX whose engine is in states 1 to 5 (spec/40_control.md R211,
spec/45_transport.md R446). -/
def State.cancellable (s : State) : Bool :=
  s.runsBtx && (match s.bt.state with
    | .awaitStart | .sending | .waitAck | .sendEot | .waitEotAck => true
    | .idle | .complete | .aborted => false)

/-- A CTRL write (spec/40_control.md R211). -/
def State.writeCtrl (s : State) (v : Word) : State :=
  if v.getLsbD 0 then s.resetBlock
  else if v.getLsbD 1 && s.cancellable then { s with bt := { s.bt with cancelReq := true } }
  else s

/-- A CMD write (spec/40_control.md R204, R205). -/
def State.writeCmd (s : State) (w : Word) : State :=
  if s.busy then s.setEvents evCmdDrop else s.accept w

/-- A TXDATA write while idle (spec/44_fifo_cdc.md R375). -/
def State.writeTxData (s : State) (v : Word) : State :=
  if s.tx.seesFull then s.setEvents evTxOvf else s.pushTx (v.setWidth 8)

/-- A register write that is performed: W1C for EVENTS and WARN (R46, R49), actions for CTRL, CMD and TXDATA, none
for the read-only registers and RXDATA (R77). -/
def State.regStore (s : State) (v : Word) : Reg → State
  | .ctrl => s.writeCtrl v
  | .events => { s with events := s.events &&& ~~~(v.setWidth 8) }
  | .irqEn => { s with irqEn := v.setWidth 10 }
  | .cmd => s.writeCmd v
  | .warn => { s with warn := s.warn &&& ~~~(v.setWidth 3) }
  | .scrTag => { s with tag := s.tag.written v }
  | .txData => s.writeTxData v
  | r => { s with cfg := s.cfg.written v r }

/-- A register write: dropped with WR_DROP if busy-guarded and a command runs (spec/40_control.md R206). -/
def State.regWrite (s : State) (v : Word) (r : Reg) : State :=
  if s.busy && r.busyGuarded then s.setEvents evWrDrop else s.regStore v r

/-- The number HOST receives with a response: a bus error reads as 0 (spec/20_memory.md R124). -/
def HostResponse.value : HostResponse → Word
  | .data v => v
  | .none | .written | .fault _ => 0

/-- The n low bytes of v. -/
def lowBytes (n : AccSize) (v : Word) : List Byte := (wordBytes v).take n.bytes

/-- n bytes of SCR as a little-endian value (spec/20_memory.md R120, R127). -/
def Memory.load (m : Memory) (a : Nat) : AccSize → Word
  | .byte => bytesWord (m.read a) 0 0 0
  | .half => bytesWord (m.read a) (m.read (a + 1)) 0 0
  | .word => bytesWord (m.read a) (m.read (a + 1)) (m.read (a + 2)) (m.read (a + 3))

/-- The low n bytes of a drawn word. -/
def drawn (n : AccSize) (v : Word) : Word :=
  match n with
  | .byte => (v.setWidth 8).setWidth 32
  | .half => (v.setWidth 16).setWidth 32
  | .word => v

/-- `MemRead(addr, n)` (spec/20_memory.md R127). An SCR read while a command runs answers a free value (R129). -/
def State.memRead (s : State) (addr : BitVec 16) (n : AccSize) : State :=
  if !legalAccess addr n then s.respond (.fault .busError)
  else if addr.toNat < 0x8000 then
    match regAt addr.toNat with
    | none => s.respond (.data 0)
    | some r => (s.afterRead r).respond (.data (s.regValue r))
  else if s.busy then { s with draws := s.draws + 1 }.respond (.data (drawn n (Config.busyRead s.draws)))
  else s.respond (.data (s.scr.load (addr.toNat - 0x8000) n))

/-- `MemWrite(addr, n, v)` (R127). -/
def State.memWrite (s : State) (addr : BitVec 16) (n : AccSize) (v : Word) : State :=
  if !legalAccess addr n then s.respond (.fault .busError)
  else if addr.toNat < 0x8000 then
    match regAt addr.toNat with
    | none => s.respond .written
    | some r => (s.regWrite v r).respond .written
  else if s.busy then (s.setEvents evWrDrop).respond .written
  else { s with scr := s.scr.write (addr.toNat - 0x8000) (lowBytes n v) }.respond .written

/-- A HOST access. -/
def State.hostStep (s : State) : HostAccess → State
  | .read addr n => s.memRead addr n
  | .write addr n v => s.memWrite addr n v

end Sys2Proof.Machine
end

