-- ==== Sys2Proof/Machine/Agents.lean ====
section
/-! DEFINITION. The agents' steps and the interleaving (spec/00_scope.md R6, spec/20_memory.md R132,
spec/40_control.md R201, spec/44_fifo_cdc.md R365, R370, R371, spec/60_exceptions.md R520). -/

namespace Sys2Proof.Machine

/-- SRX receives a byte (spec/44_fifo_cdc.md R370). -/
def State.srxStep (s : State) (b : Byte) : State :=
  if s.rx.seesFull then s.setEvents evRxOvf else { s with rx := s.rx.push b }

/-- STX puts the oldest byte it sees on the line; with none to see it has no step (R371; log 14). -/
def State.stxStep (s : State) : State :=
  if s.tx.seesEmpty then s else { s with txLine := s.txLine ++ [s.tx.front], tx := s.tx.pop }

/-- A synchronizer step (R365). -/
def State.syncStep (s : State) : SyncKind → State
  | .rxW => { s with rx := s.rx.syncW }
  | .rxR => { s with rx := s.rx.syncR }
  | .txW => { s with tx := s.tx.syncW }
  | .txR => { s with tx := s.tx.syncR }

/-- A TICK pulse (spec/60_exceptions.md R520). -/
def State.tickStep (s : State) : State := { s with tick := s.tick + 1 }

/-- The bytes of the command SEQ runs, if it runs one: the word CMD accepted, as the host port stores it. -/
def State.fetch (s : State) : Option (List Byte) :=
  match s.seq with
  | .idle => none
  | .run w _ => some (wordBytes w)

/-- SEQ's step: none when IDLE; else a step of the running command, ILLEGAL words included (spec/40_control.md
R201, R209; log 14). -/
def State.seqStep (s : State) : Host.Outcome State Fault Refusal :=
  match s.fetch with
  | none => .next s
  | some bs =>
    match decodeBytes bs with
    | .ok i => exec i s
    | .error _ => execIllegal s

/-- The step of one agent. -/
def State.agentStep (s : State) : AgentStep → Host.Outcome State Fault Refusal
  | .host a => .next (s.hostStep a)
  | .seq => s.seqStep
  | .srx b => .next (s.srxStep b)
  | .stx => .next s.stxStep
  | .sync k => .next (s.syncStep k)
  | .tick => .next s.tickStep
  | .resetInput => .next s.resetBlock

/-- One step of the machine: the agent step the schedule names next; SEQ's when the schedule is empty (log 1). -/
def State.machineStep (s : State) : Host.Outcome State Fault Refusal :=
  match s.inputs with
  | [] => s.seqStep
  | a :: rest => { s with inputs := rest }.agentStep a

/-- The command of a row of the opcode table (the low nbits of w), accepted and about to take its first SEQ step,
with no other agent scheduled before it (log 10). -/
def State.loadCommand (s : State) (nbits w : Nat) : State :=
  { s.accept (BitVec.ofNat 32 (w % 2 ^ nbits)) with inputs := [] }

end Sys2Proof.Machine
end

