-- ==== Sys2Proof/Machine/Step.lean ====
section
/-! DEFINITION. The step of the machine, and the placing of a command where the next step runs it. -/

namespace Sys2Proof.Machine

/-- One step: the next state always, since every command word and every access has a defined effect. -/
def step (s : State) : Host.Outcome State Fault Refusal := s.machineStep

/-- The state in which the next step runs this table row's command first (log 10). -/
def State.withFetchWord (s : State) (nbits w : Nat) : State := s.loadCommand nbits w

end Sys2Proof.Machine
end

