-- ==== Sys2Proof/Safety.lean ====
section
/-! DEFINITION. What a safe state is (the invariants of the machine) and the vocabulary of the statements: the rules
of the spec written out once more, in the spec's own terms and apart from the meanings of Machine/. -/

namespace Sys2Proof.Machine

/-! ### Invariants -/

/-- The views of a FIFO err on the safe side (spec/44_fifo_cdc.md R366): the consumer's fill count is at most the
true count, and the true count at most what the producer takes to be stored. -/
def Fifo.safe (f : Fifo) : Bool :=
  decide (f.fillCount ≤ f.trueCount) && decide (f.trueCount ≤ f.wp - ungray f.rps)

/-- Both FIFOs are safe. -/
def State.fifosSafe (s : State) : Bool := s.rx.safe && s.tx.safe

/-- The registers with a restricted range hold a legal value: SCR_TAG.COUNT is at most NMAX (spec/10_state.md R62),
FFT_LEN is 0 or a supported length (R51), PKT_STATUS.VALID is the AND of the other four bits (R67),
BT_RESULT.BLOCKS_ACKED is at most 256 (spec/45_transport.md R445). -/
def State.regsLegal (s : State) : Bool :=
  decide (s.tag.count.toNat ≤ 4096)
    && (s.fftLen == 0 || Config.fftLengths.contains s.fftLen.toNat)
    && (s.pktStatus.getLsbD 4
          == (s.pktStatus.getLsbD 0 && s.pktStatus.getLsbD 1 && s.pktStatus.getLsbD 2 && s.pktStatus.getLsbD 3))
    && decide (s.blocksAcked.toNat ≤ 256)

/-- The byte sequence Q of a streaming command word (spec/45_transport.md R407); empty for other words. -/
def State.streamBytes (s : State) (w : Word) : List Byte :=
  if w = 0x00000008#32 then s.region
  else if w = 0x00000108#32 then s.halfwords
  else if w = 0x0000000A#32 then s.packet s.cfg.pktSeq (s.payload s.cfg.srcAddr.toNat s.cfg.srcLen.toNat)
  else []

/-- No BTX is under way: the engine is idle, complete or aborted, and no cancel is requested (R440, R446). -/
def BtEngine.atRest (e : BtEngine) : Bool :=
  (e.state == .idle || e.state == .complete || e.state == .aborted) && !e.cancelReq

/-- What holds in each state of a running BTX (R440 to R446), beside what holds in all of them. -/
def State.engineStateOk (s : State) : Bool :=
  match s.bt.state with
  | .idle => false
  | .awaitStart => s.bt.blk == 0 && s.bt.retries == 0
  | .sending => s.bt.outq != [] && decide (s.bt.outq <:+ s.blockPacket s.bt.blk) && decide (s.bt.blk < s.bt.nblk)
  | .waitAck => s.bt.outq == [] && decide (s.bt.blk < s.bt.nblk)
  | .sendEot => s.bt.outq == [0x04#8] && s.bt.blk == s.bt.nblk
  | .waitEotAck => s.bt.outq == [] && s.bt.blk == s.bt.nblk
  | .complete => false
  | .aborted =>
    decide (s.bt.outq <:+ [0x18#8, 0x18#8]) && !s.bt.cancelReq
      && (s.bt.code == .btTimeout || s.bt.code == .btRetries || s.bt.code == .btCancelRemote
            || s.bt.code == .btCancelHost)

/-- A running BTX: its region is in SCR and not empty, NBLK = ceil(SRC_LEN / 128), BLOCKS_ACKED counts the blocks
done, RETRIES respects BT_MAX_RETRY (R442, R443, R445). -/
def State.engineOk (s : State) : Bool :=
  !s.regionOut && s.cfg.srcLen != 0 && s.bt.nblk == (s.cfg.srcLen.toNat + 127) / 128
    && decide (s.bt.blk ≤ s.bt.nblk) && s.blocksAcked == BitVec.ofNat 9 s.bt.blk
    && decide (s.bt.retries ≤ s.cfg.btMaxRetry) && s.engineStateOk

/-- The sequencer and the engine agree: a running command is the word LAST_CMD holds; the bytes still to push are an
end of the command's sequence Q; an engine step belongs to a BTX. -/
def State.seqOk (s : State) : Bool :=
  match s.seq with
  | .idle => s.bt.atRest
  | .run w .start => w == s.lastCmd && s.bt.atRest
  | .run w (.push rest) =>
    w == s.lastCmd && s.bt.atRest && (w == 0x00000008#32 || w == 0x00000108#32 || w == 0x0000000A#32)
      && decide (rest <:+ s.streamBytes w)
  | .run w .engine => w == s.lastCmd && w == 0x0000000B#32 && s.engineOk

/-- A safe state: the memory in its canonical form, the FIFO views safe, the registers legal, the sequencer and the
engine consistent. -/
def State.safe (s : State) : Bool := s.scr.wf && s.fifosSafe && s.regsLegal && s.seqOk

/-! ### Commands -/

/-- The 21 legal command words (spec/30_encoding.md R162), copied from the spec's table. -/
def legalWords : List (Word × Instr) :=
  [(0x00000000, .nop), (0x00000001, .synthF32), (0x00000101, .synthU16), (0x00000201, .synthFix),
   (0x00000002, .firNone), (0x00000102, .firLp), (0x00000202, .firBp), (0x00000003, .normF),
   (0x00000103, .normQ), (0x00000004, .winBlackman), (0x00000104, .winHamming), (0x00000204, .winHann),
   (0x00000005, .fft), (0x00000006, .mag), (0x00000007, .crc32), (0x00000107, .crc16), (0x00000008, .sendB),
   (0x00000108, .sendH), (0x00000009, .pktChk), (0x0000000A, .pktBld), (0x0000000B, .btx)]

/-- The commands that run over several SEQ steps (spec/40_control.md R201). -/
def multiStep (i : Instr) : Bool := [Instr.sendB, .sendH, .pktBld, .btx].contains i

/-- `s` after a command completed without error and with these warnings: what spec/40_control.md R208 writes. -/
def State.finished (s : State) (warns : BitVec 3) : State :=
  { s with
    errCode := .ok, warn := s.warn ||| warns, seq := .idle
    events := s.events ||| (if warns = 0 then 0x01#8 else 0x05#8) }

/-- `s` after a command failed with this code: what R208 writes (spec/60_exceptions.md R503). -/
def State.failed (s : State) (code : ErrCode) : State :=
  { s with errCode := code, seq := .idle, events := s.events ||| 0x03#8 }

/-- The check list of a command (spec/60_exceptions.md R502, copied from its table). -/
def specChecks (i : Instr) (s : State) : List (Bool × ErrCode) :=
  let kindIn (ks : List Kind) := ks.contains s.tag.kind
  let count := s.tag.count.toNat
  let addr := s.cfg.srcAddr.toNat
  let len := s.cfg.srcLen.toNat
  let synth := [(s.cfg.sigSrc == 1, ErrCode.cfgInvalid), (s.cfg.fs == 0, .cfgInvalid), (s.cfg.vref == 0, .cfgInvalid),
                (s.cfg.len == 0, .lenInvalid)]
  let fir (taps : Nat) := [(!kindIn [.u16, .f32Phys], ErrCode.tagMismatch), (count == 0, .lenInvalid),
                           (!(decide (1 ≤ taps) && decide (taps ≤ 64)), .cfgInvalid)]
  let win := [(!kindIn [.f32N, .q15], ErrCode.tagMismatch), (s.tag.win != .none, .tagMismatch),
              (decide (count < 2), .lenInvalid)]
  let region := (decide (addr + len > 32768), ErrCode.range)
  match i with
  | .nop | .firNone => []
  | .synthF32 | .synthU16 | .synthFix => synth
  | .firLp => fir s.cfg.firTapsLp.toNat
  | .firBp => fir s.cfg.firTapsBp.toNat
  | .normF => [(!kindIn [.u16, .f32Phys], .tagMismatch), (count == 0, .lenInvalid),
               (kindIn [.f32Phys] && s.cfg.vref == 0, .cfgInvalid)]
  | .normQ => [(!kindIn [.u16], .tagMismatch), (count == 0, .lenInvalid)]
  | .winBlackman | .winHamming | .winHann => win
  | .fft => [(!kindIn [.f32N, .q15], .tagMismatch), (decide (count < 16), .lenInvalid)]
  | .mag => [(!kindIn [.f32Spec, .q15Spec], .tagMismatch),
             (!([16, 32, 64, 128, 256, 512, 1024, 2048, 4096].contains count), .lenInvalid)]
  | .crc32 | .crc16 | .sendB => [region]
  | .sendH => [(addr % 4 != 0, .align), (decide (addr + 4 * len > 32768), .range)]
  | .pktChk => [(decide (addr + 133 > 32768), .range)]
  | .pktBld => [(decide (len > 128), .lenInvalid), region]
  | .btx => [(len == 0, .lenInvalid), region]

/-- The code a command reports at its checks: that of the first check that holds (R502). -/
def specError (i : Instr) (s : State) : Option ErrCode := ((specChecks i s).find? (fun c => c.1)).map (fun c => c.2)

/-! ### Scratch words -/

/-- `t` holds `f n` in word n for n < count, and every byte from word `count` on is as in `s`. -/
def WordsWritten (s t : State) (count : Nat) (f : Nat → Word) : Prop :=
  (∀ n, n < count → t.scr.word n = f n) ∧ ∀ a, 4 * count ≤ a → t.scr.read a = s.scr.read a

/-! ### Synthesis (spec/41_synthesis.md) -/

/-- c_{n,i} of R241, with the phase n·inc_i of R239 and the lookup of R240. -/
def specToneFix (c : Cfg) (n i : Nat) : Int :=
  let inc := c.freqAt i * 65536 / c.fs.toNat % 65536
  (c.ampAt i : Int) * sinLut (n * inc % 65536 / 64) / 32768

/-- code_n of R241 for M tones. -/
def specCodeFix (c : Cfg) (m n : Nat) : Int :=
  max 0 (min ((c.dcOffset.toNat : Int) + ∑ i ∈ Finset.range m, specToneFix c n i) c.vref.toNat) * 4095 / c.vref.toNat

/-- v_n of R234 after the first m tones. -/
def specTonesF32 (c : Cfg) (n : Nat) : Nat → F32
  | 0 => f32OfNat c.dcOffset.toNat
  | m + 1 =>
    let t := f32Div (f32OfNat n) (f32OfNat c.fs.toNat)
    let angle := f32Mul (f32Mul 0x40C90FDB#32 (f32OfNat (c.freqAt m))) t
    f32Add (specTonesF32 c n m) (f32Mul (f32OfNat (c.ampAt m)) (fsin angle))

/-- The generator's step, on numbers modulo 2^32 (R236). -/
def specXorshift (s : Nat) : Nat :=
  let s := s ^^^ (s * 2 ^ 13 % 2 ^ 32)
  let s := s ^^^ (s / 2 ^ 17)
  s ^^^ (s * 2 ^ 5 % 2 ^ 32)

/-- The generator's state at sample n (R236). -/
def specNoise (c : Cfg) (n : Nat) : Nat := specXorshift^[n + 1] c.noiseSeed.toNat

/-- The sample before the clamp (R236): noise is added unless NOISE_AMP is the pattern 0. -/
def specNoisyF32 (c : Cfg) (m n : Nat) : F32 :=
  if c.noiseAmp = 0 then specTonesF32 c n m
  else
    let r := f32Sub (f32Mul (f32OfNat (specNoise c n / 2 ^ 8)) (f32OfRat 1 (2 ^ 23))) 0x3F800000#32
    f32Add (specTonesF32 c n m) (f32Mul c.noiseAmp r)

/-- code_n of R238. -/
def specCodeU16 (c : Cfg) (m n : Nat) : Nat :=
  let v := f32OfNat c.vref.toNat
  min (f32Trunc (f32Div (f32Mul (f32Clamp (specTonesF32 c n m) 0 v) (f32OfNat 4095)) v)) 4095

/-- The warnings of a SYNTH (R232). -/
def specSynthWarns (c : Cfg) : BitVec 3 :=
  (if 4096 < c.len.toNat then 1#3 else 0#3) ||| (if 8 < c.numTones.toNat then 2#3 else 0#3)

/-- The checks of R231 all pass. -/
def specSynthReady (c : Cfg) : Prop := c.sigSrc = 0 ∧ c.fs ≠ 0 ∧ c.vref ≠ 0 ∧ c.len ≠ 0

/-! ### Filtering (spec/42_filter_norm_window.md) -/

/-- y_n of R273. -/
def specFirInt (s : State) (bank : Vector Word 64) (taps n : Nat) : Int :=
  let acc : Int := ∑ k ∈ Finset.range (min taps (n + 1)), asQ15 (coefAt bank k) * (asU16 (s.scr.word (n - k)) : Int)
  max 0 (min ((acc + 16384) / 32768) 4095)

/-- acc of R274 after m taps. -/
def specFirF32 (s : State) (bank : Vector Word 64) (n : Nat) : Nat → F32
  | 0 => 0
  | m + 1 => f32Add (specFirF32 s bank n m) (f32Mul (coefAt bank m) (s.scr.word (n - m)))

/-! ### Transform (spec/43_fft_magnitude.md) -/

/-- One stage of R324 at place i, with m = 2h: the half of the butterfly that lands there. -/
def specStage {α : Type} (bf : Cplx α → Cplx α → Cplx α → Cplx α × Cplx α) (tw : Nat → Cplx α) (n h : Nat)
    (z : Nat → Cplx α) (i : Nat) : Cplx α :=
  let k := i % (2 * h)
  if k < h then (bf (z i) (z (i + h)) (tw (k * (n / (2 * h))))).1
  else (bf (z (i - h)) (z i) (tw ((k - h) * (n / (2 * h))))).2

/-- z after the first s stages, from the bit-reversed load of R322. -/
def specStages {α : Type} (bf : Cplx α → Cplx α → Cplx α → Cplx α × Cplx α) (tw : Nat → Cplx α) (n : Nat)
    (load : Nat → Cplx α) : Nat → Nat → Cplx α
  | 0 => load
  | s + 1 => specStage bf tw n (2 ^ s) (specStages bf tw n load s)

/-- The l2 low bits of n in reverse order (R322). -/
def specRev (l2 n : Nat) : Nat := ∑ j ∈ Finset.range l2, (if n.testBit j then 2 ^ (l2 - 1 - j) else 0)

/-! ### Transport (spec/45_transport.md) -/

/-- The 133-byte packet of R420, its complement as 255 − id and its CRC as two numbers below 256. -/
def specPacket (preamble id : Byte) (pay : List Byte) : List Byte :=
  let c := (crc16 pay).toNat
  [preamble, id, 255#8 - id] ++ pay ++ [BitVec.ofNat 8 (c / 256), BitVec.ofNat 8 (c % 256)]

/-- pay_k of R442 (and, with k = 0, pay of R423): byte i is scratch byte SRC_ADDR + 128k + i while 128k + i < SRC_LEN,
else PAD_BYTE. -/
def specPayload (s : State) (k : Nat) : List Byte :=
  (List.range 128).map fun i =>
    if 128 * k + i < s.cfg.srcLen.toNat then s.scr.read (s.cfg.srcAddr.toNat + (128 * k + i)) else s.cfg.padByte

/-- packet(k) of R442. -/
def specBlock (s : State) (k : Nat) : List Byte :=
  specPacket s.cfg.preamble (BitVec.ofNat 8 (k + 1)) (specPayload s k)

/-- R of R400. -/
def specRegion (s : State) : List Byte :=
  (List.range s.cfg.srcLen.toNat).map fun i => s.scr.read (s.cfg.srcAddr.toNat + i)

/-- Q of R408, for SRC_ADDR a multiple of 4: of each word the two low bytes. -/
def specHalfwords (s : State) : List Byte :=
  (List.range s.cfg.srcLen.toNat).flatMap fun i =>
    [s.scr.read (s.cfg.srcAddr.toNat + 4 * i), s.scr.read (s.cfg.srcAddr.toNat + 4 * i + 1)]

/-- Q of each streaming command (R410, R411, R423). -/
def specStream (i : Instr) (s : State) : List Byte :=
  match i with
  | .sendB => specRegion s
  | .sendH => specHalfwords s
  | .pktBld => specPacket s.cfg.preamble s.cfg.pktSeq (specPayload s 0)
  | _ => []

/-- The result registers a streaming command writes at its completion (R410, R411, R423). -/
def specStreamResult (i : Instr) (s : State) : Word :=
  match i with
  | .sendB => crc32 (specRegion s)
  | .sendH => crc32 (specHalfwords s)
  | _ => s.crc32Res

/-- `s` after `abort(code)` (R444). -/
def specAbort (s : State) (code : ErrCode) : State :=
  { s with bt := { s.bt with
      code := code, cancelReq := false, state := .aborted
      outq := if code = .btCancelRemote then [] else [0x18#8, 0x18#8] } }

/-- `s` after `retry(code)` (R443). -/
def specRetry (s : State) (code : ErrCode) : State :=
  if s.bt.retries.toNat ≥ s.cfg.btMaxRetry.toNat then specAbort s code
  else if s.bt.state = .waitAck then
    { s with bt := { s.bt with retries := s.bt.retries + 1, state := .sending, outq := specBlock s s.bt.blk } }
  else { s with bt := { s.bt with retries := s.bt.retries + 1, state := .sendEot, outq := [0x04#8] } }

/-- elapsed of R443 has reached this timeout. -/
def specElapsed (s : State) (timeout : Word) : Bool :=
  decide (timeout.toNat ≤ (s.tick.toNat + 2 ^ 32 - s.bt.t0.toNat) % 2 ^ 32)

/-- The command word w runs and its engine is in this state. -/
def State.inEngine (s : State) (st : BtState) : Prop := s.seq = .run 0x0000000B#32 .engine ∧ s.bt.state = st

/-! ### Runs -/

/-- `n` steps of the machine: `Host.Core.run` of `Sys2Proof.core`, at the model's own types. -/
def runSteps : Nat → State → Host.Outcome State Fault Refusal
  | 0, s => .next s
  | n + 1, s =>
    match step s with
    | .next t => runSteps n t
    | .fault f => .fault f
    | .refused r => .refused r

/-- These commands, each completed before the next is issued (spec/00_scope.md R7), for one-step commands. -/
def runCommands : List Instr → State → Host.Outcome State Fault Refusal
  | [], s => .next s
  | i :: rest, s =>
    match exec i s with
    | .next t => runCommands rest t
    | .fault f => .fault f
    | .refused r => .refused r

/-! ### Spectral peaks (spec/43_fft_magnitude.md R344) -/

/-- Magnitude word k after MAG, as a number that orders as the magnitudes do: the value of a binary32 word in units of
2^-149, or the word itself (R341). -/
def State.magnitude (s : State) (k : Nat) : Int :=
  if s.tag.kind = .f32Mag then f32Int (s.scr.word k) else (s.scr.word k).toNat

/-- R344's peak property for a tone at bin k: SCR holds magnitudes, and one of the bins k − 1, k, k + 1 is larger than
every other bin. -/
def State.peaksAt (s : State) (k : Nat) : Bool :=
  (s.tag.kind == .f32Mag || s.tag.kind == .q15Mag)
    && (List.range s.tag.count.toNat).any fun p =>
      decide (p ≤ k + 1 ∧ k ≤ p + 1)
        && (List.range s.tag.count.toNat).all fun j => j == p || decide (s.magnitude j < s.magnitude p)

/-- The stages R344 names after a SYNTH, in the integer and in the binary32 domain. -/
def spectrumQ15 : List Instr := [.normQ, .winBlackman, .fft, .mag]
def spectrumF32 : List Instr := [.normF, .winBlackman, .fft, .mag]

/-- After the run the machine holds magnitudes with R344's peak for bin k, and reports no error. -/
def endsWithPeak (o : Host.Outcome State Fault Refusal) (k : Nat) : Bool :=
  match o with
  | .next t => t.errCode == .ok && t.peaksAt k
  | .fault _ | .refused _ => false

/-! ### FIFO and line -/

/-- All four pointers of the FIFO agree: it is empty in every view. -/
def Fifo.drained (f : Fifo) : Bool := f.rp == f.wp && ungray f.wps == f.wp && ungray f.rps == f.wp

/-- The producer side sees the FIFO full (spec/44_fifo_cdc.md R363, on numbers). -/
def Fifo.fullView (f : Fifo) : Prop := (f.wp.toNat + 1) % 256 = (ungray f.rps).toNat

/-- The FIFO with b pushed (R364). -/
def Fifo.pushed (f : Fifo) (b : Byte) : Fifo :=
  { f with slot := f.slot.set f.wp.toNat b f.wp.isLt, wp := BitVec.ofNat 8 ((f.wp.toNat + 1) % 256) }

/-- The FIFO with its oldest byte taken (R364). -/
def Fifo.popped (f : Fifo) : Fifo := { f with rp := BitVec.ofNat 8 ((f.rp.toNat + 1) % 256) }

/-- The bytes that have left for the line or wait in the TX FIFO, oldest first. -/
def State.sentBytes (s : State) : List Byte := s.txLine ++ s.tx.contents

/-- SEQ, then the line takes the pushed byte and both pointer copies follow. -/
def lineRound : List AgentStep := [.seq, .sync .txW, .stx, .sync .txR]

/-- A byte arrives, its pointer copy follows, SEQ takes it, the other copy follows. -/
def answerRound (b : Byte) : List AgentStep := [.srx b, .sync .rxW, .seq, .sync .rxR]

/-- The schedule of a BTX of n blocks whose receiver sends 'C' and then ACKs every block and the EOT. -/
def btxSchedule (n : Nat) : List AgentStep :=
  [.seq] ++ answerRound 0x43 ++ (List.replicate n ((List.replicate 133 lineRound).flatten ++ answerRound 0x06)).flatten
    ++ lineRound ++ answerRound 0x06

/-- A reset: the reset input, or a CTRL write that sets bit 0 (spec/70_reset_and_hazards.md R551). -/
def AgentStep.isReset : AgentStep → Bool
  | .resetInput => true
  | .host (.write addr n v) => addr == 0x0004 && n == .word && v.getLsbD 0
  | .host (.read _ _) | .seq | .srx _ | .stx | .sync _ | .tick => false

/-! ### The host's view -/

/-- What a 4-byte read of this register answers. -/
def State.reads (s : State) (addr : BitVec 16) : HostResponse := (s.hostStep (.read addr .word)).hostResp

/-- The number of a result code (spec/60_exceptions.md R500, copied from its table). -/
def specErrNumber : ErrCode → Nat
  | .ok => 0 | .illegalCmd => 1 | .tagMismatch => 2 | .lenInvalid => 3 | .cfgInvalid => 4 | .range => 5 | .align => 6
  | .btTimeout => 7 | .btRetries => 8 | .btCancelRemote => 9 | .btCancelHost => 10

/-- The number of a KIND (spec/10_state.md R62). -/
def specKindNumber : Kind → Nat
  | .empty => 0 | .f32Phys => 1 | .u16 => 2 | .f32N => 3 | .q15 => 4 | .f32Spec => 5 | .q15Spec => 6 | .f32Mag => 7
  | .q15Mag => 8

/-- The number of a WIN (R62). -/
def specWinNumber : Win → Nat
  | .none => 0 | .blackman => 1 | .hamming => 2 | .hann => 3

/-- The number of an engine state (spec/45_transport.md R440, copied from its table). -/
def specBtNumber : BtState → Nat
  | .idle => 0 | .awaitStart => 1 | .sending => 2 | .waitAck => 3 | .sendEot => 4 | .waitEotAck => 5 | .complete => 6
  | .aborted => 7

/-- What a read of each register answers, as a number made of its fields at their places (spec/10_state.md R42 to R75,
R81, R82); STATUS and RXDATA, whose reads have rules of their own, are not among them. -/
def specReadings (s : State) : List (BitVec 16 × Nat) :=
  [(0x0000, Config.blockId.toNat), (0x0004, 0), (0x000C, s.events.toNat), (0x0010, s.irqEn.toNat),
   (0x0014, s.lastCmd.toNat), (0x0018, specErrNumber s.errCode), (0x001C, s.warn.toNat),
   (0x0020, specKindNumber s.tag.kind + 2 ^ 4 * specWinNumber s.tag.win + 2 ^ 16 * s.tag.count.toNat),
   (0x0024, s.fftLen.toNat), (0x0040, s.cfg.numTones.toNat), (0x0044, s.cfg.len.toNat), (0x0048, s.cfg.fs.toNat),
   (0x004C, s.cfg.dcOffset.toNat), (0x0050, s.cfg.vref.toNat), (0x0054, s.cfg.noiseAmp.toNat),
   (0x0058, s.cfg.noiseSeed.toNat), (0x005C, s.cfg.sigSrc.toNat), (0x0060, s.cfg.firTapsLp.toNat),
   (0x0064, s.cfg.firTapsBp.toNat), (0x0068, s.cfg.srcAddr.toNat), (0x006C, s.cfg.srcLen.toNat),
   (0x0070, s.crc32Res.toNat), (0x0074, s.crc16Res.toNat), (0x0078, s.cfg.pktSeq.toNat), (0x007C, s.pktStatus.toNat),
   (0x0080, s.cfg.btMaxRetry.toNat), (0x0084, s.cfg.btToStart.toNat), (0x0088, s.cfg.btToAck.toNat),
   (0x008C, s.blocksAcked.toNat + 2 ^ 16 * s.bt.retries.toNat), (0x0090, s.tick.toNat), (0x0098, 0),
   (0x009C, s.cfg.preamble.toNat), (0x00A0, s.cfg.padByte.toNat)]
    ++ (List.finRange 8).map (fun t => (BitVec.ofNat 16 (0x100 + 4 * t.val), s.cfg.freq[t].toNat))
    ++ (List.finRange 8).map (fun t => (BitVec.ofNat 16 (0x120 + 4 * t.val), s.cfg.amp[t].toNat))
    ++ (List.finRange 64).map (fun k => (BitVec.ofNat 16 (0x400 + 4 * k.val), s.cfg.coefLp[k].toNat))
    ++ (List.finRange 64).map (fun k => (BitVec.ofNat 16 (0x500 + 4 * k.val), s.cfg.coefBp[k].toNat))

/-- The RW registers that store what is written, with the mask of their implemented bits (spec/10_state.md R42, R50 to
R61, R66 to R69, R74, R75, R81, R82); SCR_TAG, which is WARL, is not among them. -/
def storeRegs : List (BitVec 16 × Word) :=
  [(0x0010, 0x3FF), (0x0040, 0xFFFF), (0x0044, 0xFFFFFFFF), (0x0048, 0xFFFFFFFF), (0x004C, 0xFFFF), (0x0050, 0xFFFF),
   (0x0054, 0xFFFFFFFF), (0x0058, 0xFFFFFFFF), (0x005C, 0x1), (0x0060, 0x7F), (0x0064, 0x7F), (0x0068, 0x7FFF),
   (0x006C, 0xFFFF), (0x0078, 0xFF), (0x0080, 0xFF), (0x0084, 0xFFFFFFFF), (0x0088, 0xFFFFFFFF), (0x009C, 0xFF),
   (0x00A0, 0xFF)]
    ++ (List.range 8).map (fun t => (BitVec.ofNat 16 (0x100 + 4 * t), 0xFFFFFFFF))
    ++ (List.range 8).map (fun t => (BitVec.ofNat 16 (0x120 + 4 * t), 0xFFFF))
    ++ (List.range 64).map (fun k => (BitVec.ofNat 16 (0x400 + 4 * k), 0xFFFFFFFF))
    ++ (List.range 64).map (fun k => (BitVec.ofNat 16 (0x500 + 4 * k), 0xFFFFFFFF))

/-- The addresses of the register half that a write leaves without effect: the read-only registers, RXDATA and the
reserved words (R42, R77, spec/20_memory.md R126). -/
def writeIgnored (a : Nat) : Bool :=
  a < 0x8000 && a % 4 == 0
    && ([0x00, 0x08, 0x18, 0x24, 0x70, 0x74, 0x7C, 0x8C, 0x90, 0x94].contains a
        || (decide (0x28 ≤ a) && decide (a < 0x40)) || (decide (0xA4 ≤ a) && decide (a < 0x100))
        || (decide (0x140 ≤ a) && decide (a < 0x400)) || decide (0x600 ≤ a))

/-- The reserved words of the register half (spec/20_memory.md R122, R126). -/
def reservedAddr (a : Nat) : Bool :=
  writeIgnored a && !([0x00, 0x08, 0x18, 0x24, 0x70, 0x74, 0x7C, 0x8C, 0x90, 0x94].contains a)

/-- The word addresses whose writes the busy guard drops: the registers marked so in spec/10_state.md R42, and SCR. -/
def guardedAddr (a : Nat) : Bool :=
  a % 4 == 0
    && (a == 0x20 || (decide (0x40 ≤ a) && decide (a < 0x70)) || a == 0x78
        || (decide (0x80 ≤ a) && decide (a < 0x8C)) || (decide (0x98 ≤ a) && decide (a < 0xA4))
        || (decide (0x100 ≤ a) && decide (a < 0x140)) || (decide (0x400 ≤ a) && decide (a < 0x600)))

/-- The access is one the port forbids (spec/20_memory.md R124, R125). -/
def forbiddenAccess (addr : BitVec 16) (n : AccSize) : Prop :=
  if addr.toNat < 0x8000 then n ≠ .word ∨ addr.toNat % 4 ≠ 0 else addr.toNat % n.bytes ≠ 0

/-! ### Real numbers (spec/00_scope.md R12) -/

/-- `m = round_half_away(r)`: m is within one half of r, and at a distance of one half m is the one further from 0. -/
def IsHalfAwayRound (m : Int) (r : ℝ) : Prop := |r - m| < 1 / 2 ∨ (|r - m| = 1 / 2 ∧ |r| < |(m : ℝ)|)

/-- `q = q15(r)`. -/
def IsQ15Of (q : Int) (r : ℝ) : Prop := ∃ m : Int, IsHalfAwayRound m (r * 32768) ∧ q = max (-32768) (min m 32767)

/-- `x = f32(r)` for a real r (R13): x is finite, no finite pattern is nearer to r, and where another value is
equally near the last bit of x is 0. Overflow does not arise for the reals this is used on. -/
def IsNearestF32 (x : F32) (r : ℝ) : Prop :=
  f32IsFinite x = true
    ∧ ∀ y : F32, f32IsFinite y = true →
        |(f32Int x : ℝ) / 2 ^ 149 - r| ≤ |(f32Int y : ℝ) / 2 ^ 149 - r|
          ∧ (|(f32Int x : ℝ) / 2 ^ 149 - r| = |(f32Int y : ℝ) / 2 ^ 149 - r| →
              f32Int x = f32Int y ∨ x.getLsbD 0 = false)

/-- The infinity of this sign. -/
def specInf (neg : Bool) : F32 := if neg then 0xFF800000#32 else 0x7F800000#32

/-- The zero of this sign. -/
def specZero (neg : Bool) : F32 := if neg then 0x80000000#32 else 0x00000000#32

/-- r is w(n) of the window for N samples (spec/42_filter_norm_window.md R288). -/
def IsWindowValue (w : Win) (count n : Nat) (r : ℝ) : Prop :=
  let x : ℝ := 2 * Real.pi * n / ((count : ℝ) - 1)
  match w with
  | .none => r = 1
  | .blackman => r = 0.42 - 0.5 * Real.cos x + 0.08 * Real.cos (2 * x)
  | .hamming => r = 0.54 - 0.46 * Real.cos x
  | .hann => r = 0.5 - 0.5 * Real.cos x

end Sys2Proof.Machine
end

