-- ==== Sys2Proof/Certificates/Slice0/Obligations.lean ====
section
/-! DEFINITION. The statements for the provers, each from rules of spec/. Every statement about a command gives its
whole next state: `t = ` a record update of `s` names each field that changes, so all others are as before. -/

open Sys2Proof Sys2Proof.Machine

/-! ### Encoding -/

/-- R162, R163, R166: the byte sequences that decode to a command are exactly the 21 words of the table, as four
little-endian bytes each, and the encoder gives that word. -/
def Obligations.LegalCommandsAreExactlyTheTable : Prop :=
  ∀ (bs : List Byte) (i : Instr),
    (decodeBytes bs = .ok i ↔ ∃ w, (w, i) ∈ legalWords ∧ bs = wordBytes w)
      ∧ (decodeBytes bs = .ok i ↔ bs = wordBytes (encode i))

/-- R164: which words are illegal, and why. -/
def Obligations.IllegalWordsByReason : Prop :=
  ∀ w : Word,
    (decodeWord w = .error .reservedBits ↔ 1024 ≤ w.toNat)
    ∧ (decodeWord w = .error .unassignedOp ↔ w.toNat < 1024 ∧ 0x0C ≤ w.toNat % 256)
    ∧ (decodeWord w = .error .unlistedSel ↔
        w.toNat < 1024 ∧
          ((w.toNat % 256 ∈ [0x00, 0x05, 0x06, 0x09, 0x0A, 0x0B] ∧ 1 ≤ w.toNat / 256)
            ∨ (w.toNat % 256 ∈ [0x03, 0x07, 0x08] ∧ 2 ≤ w.toNat / 256)
            ∨ (w.toNat % 256 ∈ [0x01, 0x02, 0x04] ∧ w.toNat / 256 = 3)))
    ∧ decodeWord w ≠ .error .notOneWord

/-- R160, R162: three words, one per selector value, decode to the commands they stand for. -/
def Obligations.SampleWordsDecode : Prop :=
  decodeBytes [0x00, 0x00, 0x00, 0x00] = .ok .nop
    ∧ decodeBytes [0x07, 0x01, 0x00, 0x00] = .ok .crc16
    ∧ decodeBytes [0x04, 0x02, 0x00, 0x00] = .ok .winHann
    ∧ decodeBytes [0x02, 0x03, 0x00, 0x00] = .error .unlistedSel
    ∧ decodeBytes [0x05, 0x04, 0x00, 0x00] = .error .reservedBits

/-! ### The sequencer -/

/-- A STEP RUNS THE DECODED COMMAND (R201): when SEQ moves (the schedule is empty or names it) and the running word
decodes to i, the step is that of i, on the state with SEQ's entry taken from the schedule. That SEQ moves when the
schedule is empty is the model's choice (log 1). -/
def Obligations.StepRunsDecodedCommand : Prop :=
  ∀ (s : State) (w : Word) (p : Progress) (i : Instr) (rest : List AgentStep),
    s.seq = .run w p → decodeBytes (wordBytes w) = .ok i →
      (s.inputs = [] → step s = exec i s)
      ∧ (s.inputs = .seq :: rest → step s = exec i { s with inputs := rest })

/-- R209: a running word that is not in the table completes at its next SEQ step with ILLEGAL_CMD and no other
effect. -/
def Obligations.IllegalWordCompletesWithIllegalCmd : Prop :=
  ∀ (s : State) (w : Word) (p : Progress), s.seq = .run w p → (∀ i, (w, i) ∉ legalWords) →
    s.seqStep = .next { s with errCode := .illegalCmd, events := s.events ||| 0x03#8, seq := .idle }

/-- R204, R205: a CMD write in IDLE sets LAST_CMD and SEQSTATE and nothing else; while a command runs it is dropped,
with CMD_DROP. -/
def Obligations.CmdWriteIssuesOrIsDropped : Prop :=
  ∀ (s : State) (w : Word),
    (s.seq = .idle →
      s.hostStep (.write 0x0014 .word w) = { s with lastCmd := w, seq := .run w .start, hostResp := .written })
    ∧ (s.seq ≠ .idle →
      s.hostStep (.write 0x0014 .word w) = { s with events := s.events ||| 0x20#8, hostResp := .written })

/-- R206, first sentence: a busy-guarded write while a command runs changes nothing but WR_DROP, for every register the
map marks and every legal write to SCR. -/
def Obligations.BusyGuardedWritesAreDropped : Prop :=
  ∀ (s : State) (a : BitVec 16) (n : AccSize) (v : Word), s.seq ≠ .idle →
    ((guardedAddr a.toNat = true ∧ n = .word) ∨ (0x8000 ≤ a.toNat ∧ a.toNat % n.bytes = 0)) →
      s.hostStep (.write a n v) = { s with events := s.events ||| 0x40#8, hostResp := .written }

/-- R206, last clause: as long as a command runs and no reset happens, its operands keep their values: the
configuration, SCR, SCR_TAG and the command word. -/
def Obligations.OperandsFixedWhileBusy : Prop :=
  ∀ (s t : State) (a : AgentStep) (w w' : Word) (p p' : Progress), a.isReset = false → s.agentStep a = .next t →
    s.seq = .run w p → t.seq = .run w' p' →
      w' = w ∧ t.cfg = s.cfg ∧ t.scr = s.scr ∧ t.tag = s.tag ∧ t.lastCmd = s.lastCmd

/-- R207, R208: a one-step command completes at its one step: SEQSTATE is IDLE, DONE is set, the code is that of its
first failing check or 0, ERR is set exactly when that is not 0 (a set ERR bit stays), and nothing changes but SCR,
SCR_TAG, the result registers, WARN and the bookkeeping. -/
def Obligations.OneStepCommandsCompleteAtOnce : Prop :=
  ∀ (i : Instr) (s : State), multiStep i = false →
    ∃ t, exec i s = .next t ∧ t.seq = .idle ∧ t.events.getLsbD 0 = true ∧ t.errCode = (specError i s).getD .ok
      ∧ (t.events.getLsbD 1 = true ↔ t.errCode ≠ .ok ∨ s.events.getLsbD 1 = true)
      ∧ (∀ b, 3 ≤ b → t.events.getLsbD b = s.events.getLsbD b)
      ∧ t = { s with
          scr := t.scr, tag := t.tag, fftLen := t.fftLen, crc32Res := t.crc32Res, crc16Res := t.crc16Res
          pktStatus := t.pktStatus, warn := t.warn, errCode := t.errCode, events := t.events, seq := .idle }

/-- R502, R503, R212: at the step that runs its checks, a command of which a check fails reports the first that does,
and changes nothing but the bookkeeping. -/
def Obligations.FailingCommandChangesNothingElse : Prop :=
  ∀ (i : Instr) (s : State) (code : ErrCode), (multiStep i = true → ∃ w, s.seq = .run w .start) →
    specError i s = some code →
      exec i s = .next { s with errCode := code, events := s.events ||| 0x03#8, seq := .idle }

/-- R210, R276: NOP and FIR.NONE complete with no other effect, in every state. -/
def Obligations.NopAndFirNoneOnlyComplete : Prop :=
  ∀ (s : State) (i : Instr), i = .nop ∨ i = .firNone →
    exec i s = .next { s with errCode := .ok, events := s.events ||| 0x01#8, seq := .idle }

/-! ### Synthesis -/

/-- R242 with R232, R233, R239, R241: SYNTH.FIX. -/
def Obligations.SynthFixResult : Prop :=
  ∀ s : State, specSynthReady s.cfg →
    let count := min s.cfg.len.toNat 4096
    ∃ t, exec .synthFix s = .next t
      ∧ WordsWritten s t count (fun n => BitVec.ofInt 32 (specCodeFix s.cfg (min s.cfg.numTones.toNat 8) n))
      ∧ t = { s.finished (specSynthWarns s.cfg) with
          scr := t.scr, tag := { kind := .u16, win := .none, count := BitVec.ofNat 13 count } }

/-- R237, R238 with R232, R233, R234, R236: SYNTH.F32 and SYNTH.U16. -/
def Obligations.FloatSynthResult : Prop :=
  ∀ s : State, specSynthReady s.cfg →
    let count := min s.cfg.len.toNat 4096
    let tones := min s.cfg.numTones.toNat 8
    (∃ t, exec .synthF32 s = .next t
      ∧ WordsWritten s t count (fun n => f32Clamp (specNoisyF32 s.cfg tones n) 0 (f32OfNat s.cfg.vref.toNat))
      ∧ t = { s.finished (specSynthWarns s.cfg) with
          scr := t.scr, tag := { kind := .f32Phys, win := .none, count := BitVec.ofNat 13 count } })
    ∧ ∃ t, exec .synthU16 s = .next t
      ∧ WordsWritten s t count (fun n => BitVec.ofNat 32 (specCodeU16 s.cfg tones n))
      ∧ t = { s.finished (specSynthWarns s.cfg) with
          scr := t.scr, tag := { kind := .u16, win := .none, count := BitVec.ofNat 13 count } }

/-- R243: SYNTH reads its operand registers alone, so two machines that agree on them write equal words, whatever
else they hold. -/
def Obligations.SynthDependsOnOperandsOnly : Prop :=
  ∀ (i : Instr) (s₁ s₂ t₁ t₂ : State), i = .synthF32 ∨ i = .synthU16 ∨ i = .synthFix →
    s₁.cfg.sigSrc = s₂.cfg.sigSrc → s₁.cfg.fs = s₂.cfg.fs → s₁.cfg.vref = s₂.cfg.vref →
    s₁.cfg.dcOffset = s₂.cfg.dcOffset → s₁.cfg.len = s₂.cfg.len → s₁.cfg.numTones = s₂.cfg.numTones →
    s₁.cfg.freq = s₂.cfg.freq → s₁.cfg.amp = s₂.cfg.amp →
    (i = .synthF32 → s₁.cfg.noiseAmp = s₂.cfg.noiseAmp ∧ s₁.cfg.noiseSeed = s₂.cfg.noiseSeed) →
    specSynthReady s₁.cfg → exec i s₁ = .next t₁ → exec i s₂ = .next t₂ →
      t₁.tag = t₂.tag ∧ ∀ n, n < t₁.tag.count.toNat → t₁.scr.word n = t₂.scr.word n

/-- R244: SYNTH.F32 samples are finite and lie in [0, VREF] as values; the codes of the other two lie in
[0, CODE_MAX]. -/
def Obligations.SynthOutputInRange : Prop :=
  ∀ (s t : State) (n : Nat), specSynthReady s.cfg → n < min s.cfg.len.toNat 4096 →
    (exec .synthF32 s = .next t →
      f32IsFinite (t.scr.word n) = true ∧ 0 ≤ f32Int (t.scr.word n)
        ∧ f32Int (t.scr.word n) ≤ s.cfg.vref.toNat * 2 ^ 149)
    ∧ (exec .synthU16 s = .next t → (t.scr.word n).toNat ≤ 4095)
    ∧ (exec .synthFix s = .next t → (t.scr.word n).toNat ≤ 4095)

/-- R236, R281: the unit noise value of a generator state is exactly s[31:8] / 2^23 − 1 and lies in [−1, 1); the
normalized value of a 16-bit code x is exactly (x − 2048) / 2048. -/
def Obligations.NoiseAndCodeConversionsAreExact : Prop :=
  (∀ x : Word, f32IsFinite (noiseUnit x) = true
    ∧ f32Int (noiseUnit x) = ((x.toNat / 256 : Nat) : Int) * 2 ^ 126 - 2 ^ 149
    ∧ -(2 ^ 149) ≤ f32Int (noiseUnit x) ∧ f32Int (noiseUnit x) < 2 ^ 149)
  ∧ ∀ x : Nat, x < 65536 →
      f32IsFinite (normCode x) = true ∧ f32Int (normCode x) * 2048 = ((x : Int) - 2048) * 2 ^ 149

/-- R240: every entry of SIN_LUT is the Q15 code of the real sine. -/
def Obligations.SinLutIsTheRoundedSine : Prop :=
  ∀ j : Nat, j < 1024 → IsQ15Of (sinLut j) (Real.sin (2 * Real.pi * j / 1024))

/-! ### Filter, normalizer, window -/

/-- R273, R274, R275, R277, R278: FIR.LP and FIR.BP, on codes and on binary32 millivolts. -/
def Obligations.FirResult : Prop :=
  ∀ (s : State) (i : Instr) (bank : Vector Word 64) (taps : Nat),
    (i = .firLp ∧ bank = s.cfg.coefLp ∧ taps = s.cfg.firTapsLp.toNat)
      ∨ (i = .firBp ∧ bank = s.cfg.coefBp ∧ taps = s.cfg.firTapsBp.toNat) →
    s.tag.kind = .u16 ∨ s.tag.kind = .f32Phys → s.tag.count ≠ 0 → 1 ≤ taps → taps ≤ 64 →
      ∃ t, exec i s = .next t
        ∧ WordsWritten s t s.tag.count.toNat (fun n =>
            if s.tag.kind = .u16 then BitVec.ofInt 32 (specFirInt s bank taps n)
            else specFirF32 s bank n (min taps (n + 1)))
        ∧ t = { s.finished 0 with scr := t.scr }

/-- R283 with R281, R282: NORM.F. -/
def Obligations.NormFResult : Prop :=
  ∀ s : State, s.tag.count ≠ 0 → s.tag.kind = .u16 ∨ (s.tag.kind = .f32Phys ∧ s.cfg.vref ≠ 0) →
    ∃ t, exec .normF s = .next t
      ∧ WordsWritten s t s.tag.count.toNat (fun n =>
          let x := s.scr.word n
          let h := f32Div (f32OfNat s.cfg.vref.toNat) 0x40000000#32
          if s.tag.kind = .u16 then f32Div (f32Sub (f32OfNat (x.toNat % 65536)) (f32OfNat 2048)) (f32OfNat 2048)
          else f32Div (f32Sub x h) h)
      ∧ t = { s.finished 0 with scr := t.scr, tag := { s.tag with kind := .f32N } }

/-- R284: NORM.Q. -/
def Obligations.NormQResult : Prop :=
  ∀ s : State, s.tag.count ≠ 0 → s.tag.kind = .u16 →
    ∃ t, exec .normQ s = .next t
      ∧ WordsWritten s t s.tag.count.toNat (fun n =>
          BitVec.ofInt 32 (min ((((s.scr.word n).toNat % 65536 : Nat) : Int) * 16 - 32768) 32767))
      ∧ t = { s.finished 0 with scr := t.scr, tag := { s.tag with kind := .q15 } }

/-- R291 to R296: the three windows, on binary32 and on Q15 data. -/
def Obligations.WindowResult : Prop :=
  ∀ (s : State) (i : Instr) (w : Win),
    (i, w) ∈ [(Instr.winBlackman, Win.blackman), (.winHamming, .hamming), (.winHann, .hann)] →
    s.tag.kind = .f32N ∨ s.tag.kind = .q15 → s.tag.win = .none → 2 ≤ s.tag.count.toNat →
      ∃ t, exec i s = .next t
        ∧ WordsWritten s t s.tag.count.toNat (fun n =>
            if s.tag.kind = .f32N then f32Mul (s.scr.word n) (winF32 w s.tag.count.toNat n)
            else BitVec.ofInt 32 ((asQ15 (s.scr.word n) * winQ15 w s.tag.count.toNat n + 16384) / 32768))
        ∧ t = { s.finished 0 with scr := t.scr, tag := { s.tag with win := w } }

/-- R289, R292: WIN_Q15 lies in 0..32767, so the Q15 product always fits 16 bits; WIN_Q15 and WIN_F32 are as close to
the real window as a correctly rounded entry, up to 2^-40 of a code and up to 2^-60. -/
def Obligations.WindowTablesFitTheWindow : Prop :=
  ∀ (w : Win) (count n : Nat) (r : ℝ), w ≠ .none → 2 ≤ count → count ≤ 4096 → n < count →
    IsWindowValue w count n r →
      0 ≤ winQ15 w count n ∧ winQ15 w count n ≤ 32767
        ∧ (∀ q : Int, -32768 ≤ q → q ≤ 32767 →
            -32768 ≤ (q * winQ15 w count n + 16384) / 32768 ∧ (q * winQ15 w count n + 16384) / 32768 ≤ 32767)
        ∧ |(winQ15 w count n : ℝ) - min (r * 32768) 32767| ≤ 1 / 2 + 1 / 2 ^ 40
        ∧ f32IsFinite (winF32 w count n) = true
        ∧ |(f32Int (winF32 w count n) : ℝ) / 2 ^ 149 - r| ≤ r / 2 ^ 24 + 1 / 2 ^ 60

/-! ### Transform and magnitude -/

/-- R327 with R320, R322, R324, R325 on binary32 data: FFT. -/
def Obligations.FftOnFloatResult : Prop :=
  ∀ (s : State) (l2 : Nat), s.tag.kind = .f32N → 4 ≤ l2 → l2 ≤ 12 →
    2 ^ l2 ≤ s.tag.count.toNat → (s.tag.count.toNat < 2 ^ (l2 + 1) ∨ l2 = 12) →
      let z := specStages butterflyF (twF32 (2 ^ l2)) (2 ^ l2) (fun i => (s.scr.word (specRev l2 i), 0)) l2
      ∃ t, exec .fft s = .next t
        ∧ WordsWritten s t (2 * 2 ^ l2) (fun n => if n % 2 = 0 then (z (n / 2)).1 else (z (n / 2)).2)
        ∧ t = { s.finished (if s.tag.count.toNat = 2 ^ l2 then 0 else 4) with
            scr := t.scr, fftLen := BitVec.ofNat 13 (2 ^ l2)
            tag := { s.tag with kind := .f32Spec, count := BitVec.ofNat 13 (2 ^ l2) } }

/-- R327 with R320, R322, R324, R325 on Q15 data: FFT. -/
def Obligations.FftOnQ15Result : Prop :=
  ∀ (s : State) (l2 : Nat), s.tag.kind = .q15 → 4 ≤ l2 → l2 ≤ 12 →
    2 ^ l2 ≤ s.tag.count.toNat → (s.tag.count.toNat < 2 ^ (l2 + 1) ∨ l2 = 12) →
      let z := specStages butterflyQ (twQ15 (2 ^ l2)) (2 ^ l2) (fun i => (asQ15 (s.scr.word (specRev l2 i)), 0)) l2
      ∃ t, exec .fft s = .next t
        ∧ WordsWritten s t (2 * 2 ^ l2) (fun n =>
            BitVec.ofInt 32 (if n % 2 = 0 then (z (n / 2)).1 else (z (n / 2)).2))
        ∧ t = { s.finished (if s.tag.count.toNat = 2 ^ l2 then 0 else 4) with
            scr := t.scr, fftLen := BitVec.ofNat 13 (2 ^ l2)
            tag := { s.tag with kind := .q15Spec, count := BitVec.ofNat 13 (2 ^ l2) } }

/-- R327's corner case: a Q15 impulse of value v at n = 0 gives every bin (v >> L2, 0). -/
def Obligations.FftOfQ15Impulse : Prop :=
  ∀ (l2 : Nat) (v : Int), 4 ≤ l2 → l2 ≤ 12 → -32768 ≤ v → v ≤ 32767 →
    fftQ15 (fun n => if n = 0 then v else 0) (2 ^ l2) = List.replicate (2 ^ l2) (v / 2 ^ l2, 0)

/-- R321: every entry of the twiddle tables is the binary32 or Q15 code nearest the real cosine and negated sine. -/
def Obligations.TwiddlesAreTheRoundedRoots : Prop :=
  ∀ n k : Nat, n ∈ [16, 32, 64, 128, 256, 512, 1024, 2048, 4096] → k < n / 2 →
    let x : ℝ := 2 * Real.pi * k / n
    IsNearestF32 (twF32 n k).1 (Real.cos x) ∧ IsNearestF32 (twF32 n k).2 (-Real.sin x)
      ∧ IsQ15Of (twQ15 n k).1 (Real.cos x) ∧ IsQ15Of (twQ15 n k).2 (-Real.sin x)

/-- R342 with R340, R341: MAG. a0 is given in hundredths; the Q15 gain G is the integer nearest 16384 / a0. -/
def Obligations.MagResult : Prop :=
  ∀ (s : State) (a0 gain : Nat), s.tag.kind = .f32Spec ∨ s.tag.kind = .q15Spec →
    s.tag.count.toNat ∈ [16, 32, 64, 128, 256, 512, 1024, 2048, 4096] →
    (s.tag.win, a0, gain) ∈
      [(Win.none, 100, 16384), (.blackman, 42, 39010), (.hamming, 54, 30341), (.hann, 50, 32768)] →
      let n := s.tag.count.toNat
      ∃ t, exec .mag s = .next t
        ∧ WordsWritten s t (n / 2) (fun k =>
            let re := s.scr.word (2 * k)
            let im := s.scr.word (2 * k + 1)
            if s.tag.kind = .f32Spec then
              f32Mul (f32Sqrt (f32Add (f32Mul re re) (f32Mul im im))) (f32OfRat 400 (a0 * n))
            else BitVec.ofNat 32 (Nat.sqrt (asQ15 re * asQ15 re + asQ15 im * asQ15 im).toNat * gain / 4096))
        ∧ t = { s.finished 0 with
            scr := t.scr
            tag := { s.tag with
              kind := if s.tag.kind = .f32Spec then .f32Mag else .q15Mag, count := BitVec.ofNat 13 (n / 2) } }

/-- R11: isqrt gives the largest m with m·m ≤ p. -/
def Obligations.IsqrtIsTheFloorRoot : Prop :=
  ∀ p : Nat, isqrt p * isqrt p ≤ p ∧ ∀ m, m * m ≤ p → m ≤ isqrt p

/-! ### Binary32 -/

/-- R13: fadd, fsub, fmul and fdiv of finite values whose exact result is below the overflow boundary, and fsqrt of a
finite value that is not negative, give the nearest binary32, ties to even. -/
def Obligations.FloatOpsRoundToNearestEven : Prop :=
  ∀ x y : F32, f32IsFinite x = true → f32IsFinite y = true →
    let a : ℝ := (f32Int x : ℝ) / 2 ^ 149
    let b : ℝ := (f32Int y : ℝ) / 2 ^ 149
    (|a + b| < 2 ^ 128 - 2 ^ 103 → IsNearestF32 (f32Add x y) (a + b))
    ∧ (|a - b| < 2 ^ 128 - 2 ^ 103 → IsNearestF32 (f32Sub x y) (a - b))
    ∧ (|a * b| < 2 ^ 128 - 2 ^ 103 → IsNearestF32 (f32Mul x y) (a * b))
    ∧ (f32Int y ≠ 0 → |a / b| < 2 ^ 128 - 2 ^ 103 → IsNearestF32 (f32Div x y) (a / b))
    ∧ (0 ≤ f32Int x → IsNearestF32 (f32Sqrt x) (Real.sqrt a))

/-- R13 beside the rounding of finite results: the binary32 format itself; every NaN result is 0x7FC00000; infinities;
overflow of finite operands to the infinity of the exact result's sign; division by zero; the signs of zero results, of
products and of quotients; the conversion of rationals and integers, of every size below the overflow boundary; fclamp
between finite bounds; ftrunc_u. -/
def Obligations.FloatSpecialValues : Prop :=
  ∀ x y : F32,
    let e : Nat := x.toNat / 2 ^ 23 % 256
    let f : Nat := x.toNat % 2 ^ 23
    let sgn := f32Neg x != f32Neg y
    let a : ℝ := (f32Int x : ℝ) / 2 ^ 149
    let b : ℝ := (f32Int y : ℝ) / 2 ^ 149
    -- the format
    ((f32IsFinite x = true ↔ e ≠ 255) ∧ (f32IsInf x = true ↔ e = 255 ∧ f = 0) ∧ (f32IsNan x = true ↔ e = 255 ∧ f ≠ 0)
      ∧ (f32Neg x = true ↔ 2 ^ 31 ≤ x.toNat)
      ∧ f32Int x = (if 2 ^ 31 ≤ x.toNat then -1 else 1) * (if e = 0 then (f : Int) else (2 ^ 23 + f) * 2 ^ (e - 1)))
    -- NaN operands
    ∧ (f32IsNan x = true ∨ f32IsNan y = true →
        f32Add x y = 0x7FC00000 ∧ f32Sub x y = 0x7FC00000 ∧ f32Mul x y = 0x7FC00000 ∧ f32Div x y = 0x7FC00000)
    ∧ (f32IsNan x = true → f32Sqrt x = 0x7FC00000)
    -- infinite operands
    ∧ (f32IsInf x = true → f32IsFinite y = true → f32Add x y = x ∧ f32Sub x y = x ∧ f32Div x y = specInf sgn)
    ∧ (f32IsFinite x = true → f32IsInf y = true →
        f32Add x y = y ∧ f32Sub x y = specInf (!f32Neg y) ∧ f32Div x y = specZero sgn)
    ∧ (f32IsInf x = true → f32IsInf y = true → f32Add x y = (if sgn then 0x7FC00000 else x)
        ∧ f32Sub x y = (if sgn then x else 0x7FC00000) ∧ f32Mul x y = specInf sgn ∧ f32Div x y = 0x7FC00000)
    ∧ (f32IsInf x = true → f32IsFinite y = true → f32Mul x y = if f32Int y = 0 then 0x7FC00000 else specInf sgn)
    ∧ (f32IsFinite x = true → f32IsInf y = true → f32Mul x y = if f32Int x = 0 then 0x7FC00000 else specInf sgn)
    -- finite operands: overflow, division by zero, signs
    ∧ (f32IsFinite x = true → f32IsFinite y = true →
        (2 ^ 128 - 2 ^ 103 ≤ |a + b| → f32Add x y = specInf (f32Neg x))
        ∧ (2 ^ 128 - 2 ^ 103 ≤ |a - b| → f32Sub x y = specInf (f32Neg x))
        ∧ (2 ^ 128 - 2 ^ 103 ≤ |a * b| → f32Mul x y = specInf sgn)
        ∧ (f32Int y ≠ 0 → 2 ^ 128 - 2 ^ 103 ≤ |a / b| → f32Div x y = specInf sgn)
        ∧ (f32Int y = 0 → f32Div x y = (if f32Int x = 0 then 0x7FC00000 else specInf sgn))
        ∧ (a + b = 0 → f32Add x y = specZero (f32Neg x && f32Neg y))
        ∧ (a - b = 0 → f32Sub x y = specZero (f32Neg x && !f32Neg y))
        ∧ f32Neg (f32Mul x y) = sgn ∧ (f32Int y ≠ 0 → f32Neg (f32Div x y) = sgn))
    -- the square root of a zero, of a negative value and of an infinity
    ∧ (f32IsFinite x = true → f32Int x = 0 → f32Sqrt x = x)
    ∧ (f32IsFinite x = true → f32Int x < 0 → f32Sqrt x = 0x7FC00000)
    ∧ (f32IsInf x = true → f32Sqrt x = if f32Neg x then 0x7FC00000 else x)
    -- conversions
    ∧ (∀ (num : Int) (den : Nat), 0 < den → |(num : ℝ) / den| < 2 ^ 128 - 2 ^ 103 →
        IsNearestF32 (f32OfRat num den) ((num : ℝ) / den) ∧ (f32Neg (f32OfRat num den) = true ↔ num < 0))
    ∧ (∀ n : Nat, n < 2 ^ 32 → IsNearestF32 (f32OfNat n) n ∧ f32Neg (f32OfNat n) = false)
    -- clamping and truncation
    ∧ (∀ lo hi : F32, f32IsFinite lo = true → f32IsFinite hi = true →
        (f32IsNan x = true → f32Clamp x lo hi = lo)
        ∧ (f32IsInf x = true → f32Clamp x lo hi = if f32Neg x then lo else hi)
        ∧ (f32IsFinite x = true →
          f32Clamp x lo hi = if f32Int x < f32Int lo then lo else if f32Int hi < f32Int x then hi else x))
    ∧ (f32IsFinite x = true → 0 ≤ f32Int x → (f32Trunc x : Int) = ⌊a⌋)

/-! ### Checksums -/

/-- R403: the check values. -/
def Obligations.CrcCheckValues : Prop :=
  crc32 [] = 0x00000000 ∧ crc16 [] = 0x0000
    ∧ crc32 [0x31, 0x32, 0x33, 0x34, 0x35, 0x36, 0x37, 0x38, 0x39] = 0xCBF43926
    ∧ crc16 [0x31, 0x32, 0x33, 0x34, 0x35, 0x36, 0x37, 0x38, 0x39] = 0x31C3

/-- R404, first sentence: changing any one byte of a sequence changes both checksums. -/
def Obligations.CrcDetectsOneChangedByte : Prop :=
  ∀ (pre post : List Byte) (b b' : Byte), b ≠ b' →
    crc16 (pre ++ b :: post) ≠ crc16 (pre ++ b' :: post) ∧ crc32 (pre ++ b :: post) ≠ crc32 (pre ++ b' :: post)

/-- R405, R406 with R400: CRC32 and CRC16 over a region inside SCR; 32768 bytes of SCR bound it. -/
def Obligations.CrcCommandsResult : Prop :=
  ∀ s : State, s.cfg.srcAddr.toNat + s.cfg.srcLen.toNat ≤ 32768 →
    exec .crc32 s = .next { s.finished 0 with crc32Res := crc32 (specRegion s) }
      ∧ exec .crc16 s = .next { s.finished 0 with crc16Res := crc16 (specRegion s) }

/-! ### Streaming -/

/-- R407, R410, R411, R423, R373: the start step of a streaming command whose checks pass fixes Q; a push step pushes
the next byte; while the core side sees the TX FIFO full the command waits (as a stuttering step, log 14); with nothing
left to push the command completes and writes its result register: the CRC-32 of the whole sequence for SEND.B and
SEND.H, none for PKTBLD. -/
def Obligations.StreamingCommandSteps : Prop :=
  ∀ (i : Instr) (w : Word) (s : State),
    (w, i) ∈ [(0x00000008#32, Instr.sendB), (0x00000108#32, .sendH), (0x0000000A#32, .pktBld)] →
      (s.seq = .run w .start → specError i s = none →
        exec i s = .next { s with seq := .run w (.push (specStream i s)) })
      ∧ (∀ b rest, s.seq = .run w (.push (b :: rest)) → ¬ s.tx.fullView →
        exec i s = .next { s with tx := s.tx.pushed b, seq := .run w (.push rest) })
      ∧ (∀ b rest, s.seq = .run w (.push (b :: rest)) → s.tx.fullView → exec i s = .next s)
      ∧ (s.seq = .run w (.push []) → specError i s = none →
        exec i s = .next { s.finished 0 with crc32Res := specStreamResult i s })

/-- R407, R369, R571: no step but a reset loses, repeats or reorders a byte of a streaming command: the bytes sent or
waiting, followed by those still to push, stay the same sequence from step to step, and at the completion none is
left. Other agents push nothing meanwhile (R372). The record of sent bytes is the model's field (log 13). -/
def Obligations.StreamedBytesAreConserved : Prop :=
  ∀ (s t : State) (a : AgentStep) (w : Word) (rest : List Byte), s.safe = true → a.isReset = false →
    s.seq = .run w (.push rest) → s.agentStep a = .next t →
      (∃ rest', t.seq = .run w (.push rest') ∧ t.sentBytes ++ rest' = s.sentBytes ++ rest)
        ∨ (t.seq = .idle ∧ rest = [] ∧ t.sentBytes = s.sentBytes)

/-- R407, R410, R411, R423 together: from a streaming command's start step, with the TX FIFO drained and the line
taking each byte, the run sends exactly Q, completes without error and leaves everything else as it was. The record of
sent bytes `txLine` is the model's field (log 13), the schedule the statement's (log 1). -/
def Obligations.StreamSendsTheWholeSequence : Prop :=
  ∀ (i : Instr) (w : Word) (s : State) (n : Nat),
    (w, i) ∈ [(0x00000008#32, Instr.sendB), (0x00000108#32, .sendH), (0x0000000A#32, .pktBld)] →
    s.seq = .run w .start → specError i s = none → s.tx.drained = true → n = (specStream i s).length →
    s.inputs = [.seq] ++ (List.replicate n lineRound).flatten ++ [.seq] →
      ∃ t, runSteps (4 * n + 2) s = .next t ∧ t.tx.drained = true
        ∧ t = { s.finished 0 with
            inputs := [], txLine := s.txLine ++ specStream i s, tx := t.tx, crc32Res := specStreamResult i s }

/-! ### Packets -/

/-- R422 with R421, R67: PKTCHK. -/
def Obligations.PktChkResult : Prop :=
  ∀ s : State, s.cfg.srcAddr.toNat + 133 ≤ 32768 →
    let p := fun j => s.scr.read (s.cfg.srcAddr.toNat + j)
    let pre := p 0 = s.cfg.preamble
    let seq := p 1 = s.cfg.pktSeq
    let cmp := (p 2).toNat = 255 - (p 1).toNat
    let crc := (p 131).toNat * 256 + (p 132).toNat = (crc16 ((List.range 128).map fun j => p (3 + j))).toNat
    ∃ t, exec .pktChk s = .next t
      ∧ (t.pktStatus.getLsbD 0 = true ↔ pre) ∧ (t.pktStatus.getLsbD 1 = true ↔ seq)
      ∧ (t.pktStatus.getLsbD 2 = true ↔ cmp) ∧ (t.pktStatus.getLsbD 3 = true ↔ crc)
      ∧ (t.pktStatus.getLsbD 4 = true ↔ pre ∧ seq ∧ cmp ∧ crc)
      ∧ t = { s.finished 0 with pktStatus := t.pktStatus }

/-- R420, R421 with R422's example: the packet PKTBLD and BTX build has 133 bytes and is valid for its own id; for
another expected id only SEQ_OK and VALID are 0. -/
def Obligations.BuiltPacketIsValid : Prop :=
  ∀ (pre id e : Byte) (pay : List Byte), pay.length = 128 →
    (specPacket pre id pay).length = 133 ∧ pktStatusOf pre id (specPacket pre id pay) = 0x1F
      ∧ (e ≠ id → pktStatusOf pre e (specPacket pre id pay) = 0x0D)

/-- R424: one corrupted payload byte clears CRC_OK and VALID and nothing else; a flipped complement byte clears CMP_OK
and VALID and nothing else. -/
def Obligations.CorruptedPacketIsInvalid : Prop :=
  ∀ (pre id b : Byte) (pay : List Byte) (k : Nat), pay.length = 128 →
    (k < 128 → pay[k]? ≠ some b → pktStatusOf pre id ((specPacket pre id pay).set (3 + k) b) = 0x07)
    ∧ (b ≠ 255#8 - id → pktStatusOf pre id ((specPacket pre id pay).set 2 b) = 0x0B)

/-! ### Block transfer -/

/-- R445: BTX's start step. -/
def Obligations.BtxStartStep : Prop :=
  ∀ s : State, s.seq = .run 0x0000000B#32 .start → s.cfg.srcLen ≠ 0 →
    s.cfg.srcAddr.toNat + s.cfg.srcLen.toNat ≤ 32768 →
      exec .btx s = .next { s with
        seq := .run 0x0000000B#32 .engine, blocksAcked := 0
        bt := { s.bt with
          nblk := (s.cfg.srcLen.toNat + 127) / 128, blk := 0, retries := 0, cancelReq := false, t0 := s.tick
          state := .awaitStart } }

/-- R443, R444: AWAIT_START. The cases in the rule's order: cancel, timeout, no byte visible (waits), START, CAN, any
other byte. -/
def Obligations.BtxAwaitStartStep : Prop :=
  ∀ s : State, s.inEngine .awaitStart →
    let popped : State := { s with rx := s.rx.popped }
    exec .btx s = .next (
      if s.bt.cancelReq = true then specAbort s .btCancelHost
      else if specElapsed s s.cfg.btToStart then specAbort s .btTimeout
      else if s.rx.rp = ungray s.rx.wps then s
      else if s.rx.slot[s.rx.rp.toNat]'(s.rx.rp.isLt) = 0x43#8 then
        { popped with bt := { s.bt with state := .sending, outq := specBlock s s.bt.blk } }
      else if s.rx.slot[s.rx.rp.toNat]'(s.rx.rp.isLt) = 0x18#8 then specAbort popped .btCancelRemote
      else popped)

/-- R443, R444: the pushing states SENDING, SEND_EOT and ABORTED. A cancel request aborts the first two; while the TX
FIFO is seen full they wait; else the next byte is pushed, and the last one ends the state. ABORTED with nothing left
to push ends the command with the abort's code, DONE, ERR and BT_DONE. -/
def Obligations.BtxPushingStates : Prop :=
  ∀ (s : State) (b : Byte) (rest : List Byte),
    (s.inEngine .sending ∨ s.inEngine .sendEot → s.bt.cancelReq = true →
      exec .btx s = .next (specAbort s .btCancelHost))
    ∧ (s.inEngine .sending ∨ s.inEngine .sendEot → s.bt.cancelReq = false → s.tx.fullView → exec .btx s = .next s)
    ∧ (s.inEngine .sending → s.bt.cancelReq = false → ¬ s.tx.fullView → s.bt.outq = b :: rest → rest ≠ [] →
        exec .btx s = .next { s with tx := s.tx.pushed b, bt := { s.bt with outq := rest } })
    ∧ (s.inEngine .sending → s.bt.cancelReq = false → ¬ s.tx.fullView → s.bt.outq = [b] →
        exec .btx s = .next { s with
          tx := s.tx.pushed b, bt := { s.bt with outq := [], state := .waitAck, t0 := s.tick } })
    ∧ (s.inEngine .sendEot → s.bt.cancelReq = false → ¬ s.tx.fullView →
        exec .btx s = .next { s with
          tx := s.tx.pushed 0x04#8, bt := { s.bt with outq := [], state := .waitEotAck, t0 := s.tick } })
    ∧ (s.inEngine .aborted → s.bt.outq = b :: rest → s.tx.fullView → exec .btx s = .next s)
    ∧ (s.inEngine .aborted → s.bt.outq = b :: rest → ¬ s.tx.fullView →
        exec .btx s = .next { s with tx := s.tx.pushed b, bt := { s.bt with outq := rest } })
    ∧ (s.inEngine .aborted → s.bt.outq = [] → s.bt.code ≠ .ok →
        exec .btx s = .next { s with errCode := s.bt.code, seq := .idle, events := s.events ||| 0x83#8 })

/-- R443, R442: WAIT_ACK. The cases in the rule's order; an ACK counts the block, clears RETRIES, and goes on with the
next packet or, after the last block, with EOT. -/
def Obligations.BtxWaitAckStep : Prop :=
  ∀ s : State, s.inEngine .waitAck →
    let popped : State := { s with rx := s.rx.popped }
    let acked : State :=
      { popped with blocksAcked := BitVec.ofNat 9 (s.bt.blk + 1), bt := { s.bt with blk := s.bt.blk + 1, retries := 0 } }
    exec .btx s = .next (
      if s.bt.cancelReq = true then specAbort s .btCancelHost
      else if specElapsed s s.cfg.btToAck then specRetry s .btTimeout
      else if s.rx.rp = ungray s.rx.wps then s
      else if s.rx.slot[s.rx.rp.toNat]'(s.rx.rp.isLt) = 0x06#8 then
        (if s.bt.blk + 1 = s.bt.nblk then { acked with bt := { acked.bt with state := .sendEot, outq := [0x04#8] } }
        else { acked with bt := { acked.bt with state := .sending, outq := specBlock s (s.bt.blk + 1) } })
      else if s.rx.slot[s.rx.rp.toNat]'(s.rx.rp.isLt) = 0x15#8 then specRetry popped .btRetries
      else if s.rx.slot[s.rx.rp.toNat]'(s.rx.rp.isLt) = 0x18#8 then specAbort popped .btCancelRemote
      else popped)

/-- R443, R208: WAIT_EOT_ACK. The cases in the rule's order; an ACK ends the BTX: COMPLETE, BT_DONE and DONE, code 0. -/
def Obligations.BtxWaitEotAckStep : Prop :=
  ∀ s : State, s.inEngine .waitEotAck →
    let popped : State := { s with rx := s.rx.popped }
    exec .btx s = .next (
      if s.bt.cancelReq = true then specAbort s .btCancelHost
      else if specElapsed s s.cfg.btToAck then specRetry s .btTimeout
      else if s.rx.rp = ungray s.rx.wps then s
      else if s.rx.slot[s.rx.rp.toNat]'(s.rx.rp.isLt) = 0x06#8 then
        { popped with
          bt := { s.bt with state := .complete }, errCode := .ok, seq := .idle, events := s.events ||| 0x81#8 }
      else if s.rx.slot[s.rx.rp.toNat]'(s.rx.rp.isLt) = 0x15#8 then specRetry popped .btRetries
      else if s.rx.slot[s.rx.rp.toNat]'(s.rx.rp.isLt) = 0x18#8 then specAbort popped .btCancelRemote
      else popped)

/-- R445's example for every transfer: with a receiver that sends 'C' and acknowledges every block and the EOT before
a timeout, a BTX sends packet(0) to packet(NBLK − 1) and EOT, and ends with code 0, BLOCKS_ACKED = NBLK, BT_STATE = 6.
The record of sent bytes `txLine` is the model's field (log 13), the schedule the statement's (log 1). -/
def Obligations.BtxDeliversEveryBlock : Prop :=
  ∀ (s : State) (n : Nat), s.seq = .run 0x0000000B#32 .start → specError .btx s = none →
    s.cfg.btToStart ≠ 0 → s.cfg.btToAck ≠ 0 → s.tx.drained = true → s.rx.drained = true →
    n = (s.cfg.srcLen.toNat + 127) / 128 → s.inputs = btxSchedule n →
      ∃ t, runSteps s.inputs.length s = .next t
        ∧ t.txLine = s.txLine ++ (List.range n).flatMap (specBlock s) ++ [0x04#8]
        ∧ t.seq = .idle ∧ t.errCode = .ok ∧ t.events = s.events ||| 0x81#8
        ∧ t.blocksAcked.toNat = n ∧ t.bt.state = .complete ∧ t.bt.retries = 0
        ∧ t.tx.drained = true ∧ t.rx.drained = true
        ∧ t = { s with
            txLine := t.txLine, tx := t.tx, rx := t.rx, bt := t.bt, blocksAcked := t.blocksAcked, inputs := []
            seq := .idle, errCode := .ok, events := t.events }

/-- R211, R446, R551: a CTRL write, accepted in every SEQSTATE. Bit 0 resets, whatever bit 1 is; bit 1 alone requests a
cancel while a BTX runs in states 1 to 5; anything else has no effect. -/
def Obligations.CtrlWriteActions : Prop :=
  ∀ (s : State) (v : Word),
    (v.getLsbD 0 = true → s.hostStep (.write 0x0004 .word v) = { s.resetBlock with hostResp := .written })
    ∧ (v.getLsbD 0 = false → v.getLsbD 1 = true → (∃ p, s.seq = .run 0x0000000B#32 p) →
        1 ≤ specBtNumber s.bt.state → specBtNumber s.bt.state ≤ 5 →
        s.hostStep (.write 0x0004 .word v) = { s with bt := { s.bt with cancelReq := true }, hostResp := .written })
    ∧ (v.getLsbD 0 = false →
        v.getLsbD 1 = false ∨ (∀ p, s.seq ≠ .run 0x0000000B#32 p) ∨ s.bt.state ∈ [BtState.idle, .complete, .aborted] →
        s.hostStep (.write 0x0004 .word v) = { s with hostResp := .written })

/-! ### FIFOs and the serial side -/

/-- R362: the Gray code and its inverse, the one-bit change of successive pointers, and the spec's examples. -/
def Obligations.GrayCodeIsInvertibleAndOneBit : Prop :=
  (∀ b : BitVec 8, (gray b).toNat = b.toNat ^^^ (b.toNat / 2) ∧ ungray (gray b) = b ∧ gray (ungray b) = b
    ∧ ∃ i, i < 8 ∧ gray b ^^^ gray (b + 1) = 1#8 <<< i)
    ∧ [gray 0, gray 1, gray 2, gray 3, gray 4, gray 5, gray 6, gray 7] = [0, 1, 3, 2, 6, 7, 5, 4]
    ∧ gray 127 = 0x40 ∧ gray 128 = 0xC0 ∧ gray 255 = 0x80

/-- R369: bytes leave a FIFO in the order they entered it, each once: a push allowed by the producer's view puts its
byte after the stored ones, a pop allowed by the consumer's view takes the oldest, a pointer copy moves nothing; and
N < 256 pushes into an empty FIFO followed by N pops give the N bytes back. -/
def Obligations.FifoKeepsOrder : Prop :=
  ∀ f : Fifo, f.safe = true →
    (∀ b, f.seesFull = false → (f.push b).contents = f.contents ++ [b])
    ∧ (f.seesEmpty = false → f.contents = f.front :: f.pop.contents)
    ∧ f.syncW.contents = f.contents ∧ f.syncR.contents = f.contents
    ∧ ∀ bs : List Byte, f.drained = true → bs.length < 256 →
        let g := (bs.foldl Fifo.push f).syncW
        (∀ k (h : k < bs.length), (Fifo.pop^[k] g).seesEmpty = false ∧ (Fifo.pop^[k] g).front = bs[k])
          ∧ (Fifo.pop^[bs.length] g).seesEmpty = true

/-- R365, R370, R371, R520: the steps of SRX, of an enabled STX, of SYNC and of TICK. -/
def Obligations.AgentStepsBesideTheCore : Prop :=
  ∀ (s : State) (b : Byte),
    (s.rx.fullView → s.agentStep (.srx b) = .next { s with events := s.events ||| 0x08#8 })
    ∧ (¬ s.rx.fullView → s.agentStep (.srx b) = .next { s with rx := s.rx.pushed b })
    ∧ (s.tx.rp ≠ ungray s.tx.wps →
        s.agentStep .stx = .next { s with
          tx := s.tx.popped, txLine := s.txLine ++ [s.tx.slot[s.tx.rp.toNat]'(s.tx.rp.isLt)] })
    ∧ s.agentStep (.sync .rxW) = .next { s with rx := { s.rx with wps := gray s.rx.wp } }
    ∧ s.agentStep (.sync .rxR) = .next { s with rx := { s.rx with rps := gray s.rx.rp } }
    ∧ s.agentStep (.sync .txW) = .next { s with tx := { s.tx with wps := gray s.tx.wp } }
    ∧ s.agentStep (.sync .txR) = .next { s with tx := { s.tx with rps := gray s.tx.rp } }
    ∧ s.agentStep .tick = .next { s with tick := BitVec.ofNat 32 ((s.tick.toNat + 1) % 2 ^ 32) }

/-- R374, R375: RXDATA reads and TXDATA writes; RXDATA ignores writes, TXDATA reads 0. -/
def Obligations.SerialDataDoors : Prop :=
  ∀ (s : State) (v : Word),
    s.hostStep (.write 0x0094 .word v) = { s with hostResp := .written }
    ∧ s.hostStep (.read 0x0098 .word) = { s with hostResp := .data 0 }
    ∧ ((∃ p, s.seq = .run 0x0000000B#32 p) ∨ s.rx.rp = ungray s.rx.wps →
      s.hostStep (.read 0x0094 .word) = { s with hostResp := .data 0 })
    ∧ ((∀ p, s.seq ≠ .run 0x0000000B#32 p) → s.rx.rp ≠ ungray s.rx.wps →
      s.hostStep (.read 0x0094 .word) = { s with
        rx := s.rx.popped
        hostResp := .data (BitVec.ofNat 32 (256 + (s.rx.slot[s.rx.rp.toNat]'(s.rx.rp.isLt)).toNat)) })
    ∧ (s.seq ≠ .idle →
      s.hostStep (.write 0x0098 .word v) = { s with events := s.events ||| 0x40#8, hostResp := .written })
    ∧ (s.seq = .idle → s.tx.fullView →
      s.hostStep (.write 0x0098 .word v) = { s with events := s.events ||| 0x10#8, hostResp := .written })
    ∧ (s.seq = .idle → ¬ s.tx.fullView →
      s.hostStep (.write 0x0098 .word v) = { s with
        tx := s.tx.pushed (BitVec.ofNat 8 (v.toNat % 256)), hostResp := .written })

/-! ### The host port -/

/-- R127, R120, R138: SCR accesses of 1, 2 and 4 bytes in IDLE: a write stores the bytes of v in little-endian order
and changes no other byte; a read answers the bytes as a little-endian number and changes nothing. R129: a read while
a command runs answers some n-byte number and changes nothing of DSPB; that it draws the next of a sequence of free
values and counts it in the model's own field is the model's choice (log 8). -/
def Obligations.ScratchAccesses : Prop :=
  ∀ (s : State) (a : Nat) (n : AccSize) (v : Word), a < 32768 → a % n.bytes = 0 →
    let addr := BitVec.ofNat 16 (0x8000 + a)
    (s.seq = .idle → ∃ m : Memory, s.hostStep (.write addr n v) = { s with scr := m, hostResp := .written }
      ∧ (∀ i, i < n.bytes → (m.read (a + i)).toNat = v.toNat / 256 ^ i % 256)
      ∧ ∀ b, b < a ∨ a + n.bytes ≤ b → m.read b = s.scr.read b)
    ∧ (s.seq = .idle → s.hostStep (.read addr n) = { s with
        hostResp := .data (BitVec.ofNat 32 (∑ i ∈ Finset.range n.bytes, (s.scr.read (a + i)).toNat * 256 ^ i)) })
    ∧ (s.seq ≠ .idle → ∃ d : Word, d.toNat < 256 ^ n.bytes
      ∧ s.hostStep (.read addr n) = { s with hostResp := .data d, draws := s.draws + 1 })

/-- R42 to R75, R81, R82, with the codes of R500 and R62: in every state, whatever SEQSTATE is, a read of a register
other than STATUS and RXDATA answers its fields at their places and 0 elsewhere, and changes nothing. -/
def Obligations.RegisterReadsAnswerTheState : Prop :=
  ∀ (s : State) (a : BitVec 16) (v : Nat), (a, v) ∈ specReadings s →
    v < 2 ^ 32 ∧ s.hostStep (.read a .word) = { s with hostResp := .data (BitVec.ofNat 32 v) }

/-- R124, R125, R507: a forbidden access answers a bus error, a read with the number 0, and changes no state of DSPB.
R126, R77: a reserved word reads 0; a write to it or to a read-only register has no effect and raises no event, in every
SEQSTATE. -/
def Obligations.ForbiddenAndReservedAccesses : Prop :=
  ∀ (s : State) (a : BitVec 16) (n : AccSize) (v : Word),
    (forbiddenAccess a n →
      s.hostStep (.read a n) = { s with hostResp := .fault .busError }
        ∧ (s.hostStep (.read a n)).hostResp.value = 0
        ∧ s.hostStep (.write a n v) = { s with hostResp := .fault .busError })
    ∧ (reservedAddr a.toNat = true → s.hostStep (.read a .word) = { s with hostResp := .data 0 })
    ∧ (writeIgnored a.toNat = true → s.hostStep (.write a .word v) = { s with hostResp := .written })

/-- R76: in IDLE a write to an RW register stores its implemented bits: a later read answers them, with 0 in the
reserved bits; every other RW register reads as before; nothing but the configuration and IRQ_EN changes. -/
def Obligations.RegisterWritesAreReadBack : Prop :=
  ∀ (s : State) (a mask v : BitVec _), s.seq = .idle → (a, mask) ∈ storeRegs →
    let t := s.hostStep (.write a .word v)
    t.reads a = .data (v &&& mask)
      ∧ (∀ b m, (b, m) ∈ storeRegs → b ≠ a → t.reads b = s.reads b)
      ∧ t = { s with cfg := t.cfg, irqEn := t.irqEn, hostResp := .written }

/-- R46, R49, R50, R62: writes to EVENTS and WARN clear the bits written 1, in every SEQSTATE; IRQ_EN is written in
every SEQSTATE; in IDLE a SCR_TAG write sets WIN, sets KIND when its code is at most 8, and clips COUNT to 4096. -/
def Obligations.ControlRegisterWrites : Prop :=
  ∀ (s : State) (v : Word),
    (∃ e, s.hostStep (.write 0x000C .word v) = { s with events := e, hostResp := .written }
      ∧ ∀ b, b < 8 → (e.getLsbD b = true ↔ s.events.getLsbD b = true ∧ v.getLsbD b = false))
    ∧ (∃ w, s.hostStep (.write 0x001C .word v) = { s with warn := w, hostResp := .written }
      ∧ ∀ b, b < 3 → (w.getLsbD b = true ↔ s.warn.getLsbD b = true ∧ v.getLsbD b = false))
    ∧ s.hostStep (.write 0x0010 .word v) = { s with irqEn := BitVec.ofNat 10 v.toNat, hostResp := .written }
    ∧ (s.seq = .idle → ∃ t : ScrTag, s.hostStep (.write 0x0020 .word v) = { s with tag := t, hostResp := .written }
      ∧ specWinNumber t.win = v.toNat / 16 % 4
      ∧ (v.toNat % 16 ≤ 8 → specKindNumber t.kind = v.toNat % 16) ∧ (8 < v.toNat % 16 → t.kind = s.tag.kind)
      ∧ t.count.toNat = min (v.toNat / 65536 % 8192) 4096)

/-- R45, R368, R510: STATUS as a number, and the interrupt output. -/
def Obligations.StatusAndInterruptOutput : Prop :=
  ∀ s : State,
    let rxNe := s.rx.rp ≠ ungray s.rx.wps
    let txEmpty := s.tx.wp = ungray s.tx.rps
    (∃ v : Word, s.hostStep (.read 0x0008 .word) = { s with hostResp := .data v }
      ∧ (v.getLsbD 0 = true ↔ s.seq ≠ .idle) ∧ (v.getLsbD 1 = true ↔ rxNe) ∧ (v.getLsbD 2 = true ↔ s.tx.fullView)
      ∧ (v.getLsbD 3 = true ↔ txEmpty) ∧ v.toNat / 16 % 8 = specBtNumber s.bt.state ∧ v.getLsbD 7 = false
      ∧ v.toNat / 256 = s.lastCmd.toNat % 256)
    ∧ (s.irq = true ↔ (∃ i, i < 8 ∧ s.events.getLsbD i = true ∧ s.irqEn.getLsbD i = true)
        ∨ (rxNe ∧ s.irqEn.getLsbD 8 = true) ∨ (txEmpty ∧ s.irqEn.getLsbD 9 = true))

/-- R550, R552, R376, R553: a reset in any state, by the reset input: every register at its reset value, the FIFOs
empty in every view, SEQSTATE IDLE, BT_STATE 0 with no cancel request; SCR and the coefficient banks keep their
contents. -/
def Obligations.ResetState : Prop :=
  ∀ s : State, ∃ t, s.agentStep .resetInput = .next t
    ∧ t.scr = s.scr ∧ t.cfg.coefLp = s.cfg.coefLp ∧ t.cfg.coefBp = s.cfg.coefBp
    ∧ t.rx.wp = 0 ∧ t.rx.rp = 0 ∧ t.rx.wps = 0 ∧ t.rx.rps = 0 ∧ t.tx.wp = 0 ∧ t.tx.rp = 0 ∧ t.tx.wps = 0 ∧ t.tx.rps = 0
    ∧ t.rx.slot = s.rx.slot ∧ t.tx.slot = s.tx.slot
    ∧ t.seq = .idle ∧ t.bt.state = .idle ∧ t.bt.cancelReq = false ∧ t.irq = false ∧ t.reads 0x00 = .data Config.blockId
    ∧ (∀ a v, (a, v) ∈ ([(0x04, 0), (0x08, 8), (0x0C, 0), (0x10, 0), (0x14, 0), (0x18, 0), (0x1C, 0), (0x20, 0),
          (0x24, 0), (0x40, 0), (0x44, 0), (0x48, 0), (0x4C, 0), (0x50, 3300), (0x54, 0), (0x58, 1), (0x5C, 0),
          (0x60, 0), (0x64, 0), (0x68, 0), (0x6C, 0), (0x70, 0), (0x74, 0), (0x78, 0), (0x7C, 0), (0x80, 10),
          (0x84, 10000), (0x88, 1000), (0x8C, 0), (0x90, 0), (0x94, 0), (0x98, 0), (0x9C, 0x01), (0xA0, 0x1A)]
          : List (BitVec 16 × Word)) → t.reads a = .data v)
    ∧ ∀ k, k < 16 → t.reads (BitVec.ofNat 16 (0x100 + 4 * k)) = .data 0

/-! ### Invariants -/

/-- The memory keeps its canonical form, which is the model's (log 2): every step, of every agent, from every state. -/
def Obligations.MemoryStaysCanonical : Prop :=
  ∀ s t : State, s.scr.wf = true → step s = .next t → t.scr.wf = true

/-- R366, R88, R89, R440 to R446 among others: every step, of every agent, from every safe state leaves a safe state:
the FIFO views err on the safe side, the restricted registers hold legal values, the bytes still to push are an end of
the command's sequence, and the block-transfer engine is consistent with its blocks, retries and answer states. -/
def Obligations.SafetyIsInvariant : Prop := ∀ s t : State, s.safe = true → step s = .next t → t.safe = true

/-- The machine is safe right after reset (whose scratch and banks of zeros are the model's choice, logs 2 and 3),
and after power-on with any canonical scratch contents and any banks. -/
def Obligations.ResetIsSafe : Prop :=
  State.reset.safe = true
    ∧ ∀ (m : Memory) (lp bp : Vector Word 64), m.wf = true → (State.powerOn m lp bp).safe = true
end

