-- ==== Sys2Proof/Laws/Memory.lean ====
section
/-! SUPPORT. The laws of the scratch memory: a read after a write gives the bytes written, a write leaves every
other offset alone, every write keeps the canonical form, and canonical memories that read alike are equal. -/

namespace Sys2Proof.Machine

theorem Memory.cells_bounds {base : Nat} {bs : List Byte} {c : Host.Cell} (h : c ∈ Memory.cells base bs) :
    base ≤ c.1 ∧ c.1 < base + bs.length ∧ c.2 ≠ Memory.unlisted := by
  induction bs generalizing base with
  | nil => simp [Memory.cells] at h
  | cons b bs ih =>
    simp only [Memory.cells] at h
    split at h
    · have := ih h; simp only [List.length_cons]; refine ⟨?_, ?_, this.2.2⟩ <;> omega
    · rcases List.mem_cons.1 h with rfl | h
      · simp_all
      · have := ih h; simp only [List.length_cons]; refine ⟨?_, ?_, this.2.2⟩ <;> omega

theorem Memory.lookup_none_of_not_mem {m : Memory} {a : Nat} (h : ∀ c ∈ m, c.1 ≠ a) : m.lookup a = none := by
  induction m with
  | nil => rfl
  | cons c m ih =>
    have h0 := h c (by simp)
    rw [List.lookup_cons, ih fun d hd => h d (by simp [hd]), beq_false_of_ne (Ne.symm h0)]

theorem Memory.lookup_append (l₁ l₂ : Memory) (a : Nat) :
    (l₁ ++ l₂).lookup a = (l₁.lookup a <|> l₂.lookup a) := by
  induction l₁ with
  | nil => simp
  | cons c l ih =>
    rw [List.cons_append, List.lookup_cons, List.lookup_cons, ih]
    split <;> simp

theorem Memory.lookup_filter {m : Memory} {a : Nat} {p : Host.Cell → Bool} (h : ∀ b, p (a, b) = true) :
    (m.filter p).lookup a = m.lookup a := by
  induction m with
  | nil => rfl
  | cons c m ih =>
    obtain ⟨k, v⟩ := c
    by_cases hk : a = k
    · subst hk; simp [h]
    · rw [List.filter_cons]
      split <;> simp [List.lookup_cons, ih, beq_false_of_ne hk]

theorem Memory.lookup_cells (base i : Nat) (bs : List Byte) (h : i < bs.length) :
    ((Memory.cells base bs).lookup (base + i)).getD Memory.unlisted = bs[i] := by
  induction bs generalizing base i with
  | nil => simp at h
  | cons b bs ih =>
    cases i with
    | zero =>
      simp only [Memory.cells]
      split
      · rw [Memory.lookup_none_of_not_mem]
        · simp_all
        · intro c hc; have := (Memory.cells_bounds hc).1; omega
      · simp
    | succ i =>
      have hi : i < bs.length := by simpa using h
      have e : base + (i + 1) = base + 1 + i := by omega
      simp only [Memory.cells, List.getElem_cons_succ]
      split
      · rw [e, ih _ _ hi]
      · rw [List.lookup_cons, beq_false_of_ne (by omega : base + (i + 1) ≠ base), e, ih _ _ hi]

theorem Memory.read_write_same (m : Memory) (base i : Nat) (bs : List Byte) (h : i < bs.length) :
    (m.write base bs).read (base + i) = bs[i] := by
  unfold Memory.read Memory.write
  rw [Memory.lookup_append, Memory.lookup_append,
    Memory.lookup_none_of_not_mem (m := m.filter fun c => decide (c.1 < base)),
    Memory.lookup_none_of_not_mem (m := m.filter fun c => decide (base + bs.length ≤ c.1))]
  · simpa using Memory.lookup_cells base i bs h
  · intro c hc; simp at hc; omega
  · intro c hc; simp at hc; omega

theorem Memory.read_write_other (m : Memory) (base a : Nat) (bs : List Byte)
    (h : a < base ∨ base + bs.length ≤ a) : (m.write base bs).read a = m.read a := by
  unfold Memory.read Memory.write
  rw [Memory.lookup_append, Memory.lookup_append, Memory.lookup_none_of_not_mem (m := Memory.cells base bs)]
  · rcases h with h | h
    · rw [Memory.lookup_filter (a := a) (by simp [h]),
        Memory.lookup_none_of_not_mem (m := m.filter fun c => decide (base + bs.length ≤ c.1))]
      · simp
      · intro c hc; simp at hc; omega
    · rw [Memory.lookup_none_of_not_mem (m := m.filter fun c => decide (c.1 < base)),
        Memory.lookup_filter (a := a) (by simp [h])]
      · simp
      · intro c hc; simp at hc; omega
  · intro c hc; have := Memory.cells_bounds hc; omega

theorem Memory.wf_iff (m : Memory) :
    m.wf = true ↔ m.Pairwise (fun c d => c.1 < d.1) ∧ ∀ c ∈ m, c.1 < 32768 ∧ c.2 ≠ Memory.unlisted := by
  rw [Memory.wf, Bool.and_eq_true, decide_eq_true_eq, List.all_eq_true]
  refine and_congr_right fun _ => forall₂_congr fun c _ => ?_
  rw [Bool.and_eq_true, decide_eq_true_eq, bne_iff_ne]
  rfl

theorem Memory.cells_sorted (base : Nat) (bs : List Byte) :
    (Memory.cells base bs).Pairwise fun c d => c.1 < d.1 := by
  induction bs generalizing base with
  | nil => simp [Memory.cells]
  | cons b bs ih =>
    simp only [Memory.cells]
    split
    · exact ih _
    · refine List.pairwise_cons.2 ⟨fun d hd => ?_, ih _⟩
      have := (Memory.cells_bounds hd).1
      exact this

theorem Memory.write_wf {m : Memory} {base : Nat} {bs : List Byte} (hm : m.wf = true)
    (hb : base + bs.length ≤ 32768) : (m.write base bs).wf = true := by
  rw [Memory.wf_iff] at hm ⊢
  obtain ⟨hs, hr⟩ := hm
  refine ⟨?_, ?_⟩
  · unfold Memory.write
    refine List.pairwise_append.2 ⟨List.pairwise_append.2 ⟨hs.filter _, Memory.cells_sorted _ _, ?_⟩, hs.filter _, ?_⟩
    · intro c hc d hd
      have := (Memory.cells_bounds hd).1
      simp at hc; omega
    · intro c hc d hd
      rcases List.mem_append.1 hc with hc | hc
      · simp at hc hd; omega
      · have := (Memory.cells_bounds hc).2.1
        simp at hd; omega
  · intro c hc
    unfold Memory.write at hc
    rcases List.mem_append.1 hc with hc | hc
    · rcases List.mem_append.1 hc with hc | hc
      · exact hr c (List.mem_of_mem_filter hc)
      · have := Memory.cells_bounds hc; exact ⟨by omega, this.2.2⟩
    · exact hr c (List.mem_of_mem_filter hc)

theorem Memory.lookup_of_mem {m : Memory} (hs : m.Pairwise fun c d => c.1 < d.1) {c : Host.Cell} (hc : c ∈ m) :
    m.lookup c.1 = some c.2 := by
  induction m with
  | nil => simp at hc
  | cons d m ih =>
    obtain ⟨hd, hs⟩ := List.pairwise_cons.1 hs
    rcases List.mem_cons.1 hc with rfl | hc
    · obtain ⟨k, v⟩ := c; simp
    · have := hd c hc
      rw [List.lookup_cons, beq_false_of_ne (by omega), ih hs hc]

theorem Memory.ext_of_wf {m₁ m₂ : Memory} (h₁ : m₁.wf = true) (h₂ : m₂.wf = true)
    (h : ∀ a, m₁.read a = m₂.read a) : m₁ = m₂ := by
  rw [Memory.wf_iff] at h₁ h₂
  have key : ∀ {m m' : Memory}, m.Pairwise (fun c d => c.1 < d.1) →
      (∀ c ∈ m, c.1 < 32768 ∧ c.2 ≠ Memory.unlisted) → (∀ a, m.read a = m'.read a) → ∀ c ∈ m, c ∈ m' := by
    intro m m' hs hr he c hc
    have e := he c.1
    unfold Memory.read at e
    rw [Memory.lookup_of_mem hs hc] at e
    cases hl : m'.lookup c.1 with
    | none => rw [hl] at e; exact absurd e (hr c hc).2
    | some v =>
      rw [hl] at e
      obtain ⟨l₁, l₂, rfl, -⟩ := List.lookup_eq_some_iff.1 hl
      have : c = (c.1, v) := by ext <;> simp_all
      rw [this]; simp
  have nd : ∀ {m : Memory}, m.Pairwise (fun c d => c.1 < d.1) → m.Nodup := fun hs =>
    hs.imp (fun {a b} hab e => by subst e; exact lt_irrefl _ hab)
  refine List.Perm.eq_of_pairwise (le := fun c d : Host.Cell => c.1 < d.1) ?_ h₁.1 h₂.1
    ((List.perm_ext_iff_of_nodup (nd h₁.1) (nd h₂.1)).2 fun c =>
      ⟨key h₁.1 h₁.2 h c, key h₂.1 h₂.2 (fun a => (h a).symm) c⟩)
  intro a b _ _ h1 h2; omega

/-! ### Words -/

@[simp] theorem wordBytes_length (w : Word) : (wordBytes w).length = 4 := rfl

theorem bytesWord_wordBytes (w : Word) :
    bytesWord (w.extractLsb' 0 8) (w.extractLsb' 8 8) (w.extractLsb' 16 8) (w.extractLsb' 24 8) = w := by
  unfold bytesWord
  ext i hi
  simp only [BitVec.getElem_append, BitVec.getElem_extractLsb']
  split
  · simp [BitVec.getLsbD_eq_getElem hi]
  · split
    · rw [BitVec.getLsbD_eq_getElem (by omega)]; congr 1; omega
    · split
      · rw [BitVec.getLsbD_eq_getElem (by omega)]; congr 1; omega
      · rw [BitVec.getLsbD_eq_getElem (by omega)]; congr 1; omega

/-- A word as the sum of its bytes. -/
theorem bytesWord_toNat (a b c d : Byte) :
    (bytesWord a b c d).toNat = a.toNat + 256 * b.toNat + 65536 * c.toNat + 16777216 * d.toNat := by
  have step {n : Nat} (x : BitVec n) (y : Byte) : (x ++ y).toNat = 256 * x.toNat + y.toNat := by
    rw [BitVec.toNat_append, ← Nat.shiftLeft_add_eq_or_of_lt y.isLt, Nat.shiftLeft_eq]; omega
  show (d ++ c ++ b ++ a).toNat = _
  rw [step, step, step]; omega

/-- The bytes of a word made of four bytes are those four. -/
theorem wordBytes_bytesWord (a b c d : Byte) : wordBytes (bytesWord a b c d) = [a, b, c, d] := by
  have h := bytesWord_toNat a b c d
  have ha := a.isLt
  have hb := b.isLt
  have hc := c.isLt
  simp only [wordBytes, List.cons.injEq, and_true]
  refine ⟨?_, ?_, ?_, ?_⟩ <;>
  · apply BitVec.eq_of_toNat_eq
    rw [BitVec.extractLsb'_toNat, Nat.shiftRight_eq_div_pow, h]
    omega

/-- A word decodes as its four bytes do. -/
theorem decodeBytes_wordBytes (w : Word) : decodeBytes (wordBytes w) = decodeWord w := by
  simp only [decodeBytes, wordBytes, bytesWord_wordBytes]

theorem flatMap_wordBytes_length (ws : List Word) : (ws.flatMap wordBytes).length = 4 * ws.length := by
  induction ws with
  | nil => rfl
  | cons w ws ih => simp only [List.flatMap_cons, List.length_append, ih, wordBytes_length, List.length_cons]; omega

theorem flatMap_wordBytes_getElem (ws : List Word) (k j : Nat) (hk : k < ws.length) (hj : j < 4) :
    (ws.flatMap wordBytes)[4 * k + j]'(by rw [flatMap_wordBytes_length]; omega)
      = (wordBytes ws[k])[j]'(by simpa using hj) := by
  induction ws generalizing k with
  | nil => simp at hk
  | cons w ws ih =>
    cases k with
    | zero =>
      simp only [List.flatMap_cons, Nat.mul_zero, Nat.zero_add, List.getElem_cons_zero]
      exact List.getElem_append_left (by simpa using hj)
    | succ k =>
      have hk' : k < ws.length := by simpa using hk
      simp only [List.flatMap_cons, List.getElem_cons_succ]
      rw [List.getElem_append_right (by rw [wordBytes_length]; omega), ← ih k hk']
      congr 1
      rw [wordBytes_length]; omega

/-- A word written by `putWords` reads back. -/
theorem Memory.word_putWords_same (m : Memory) (i k : Nat) (ws : List Word) (hk : k < ws.length) :
    (m.putWords i ws).word (i + k) = ws[k] := by
  have hl := flatMap_wordBytes_length ws
  have rd : ∀ j (hj : j < 4), (m.putWords i ws).read (4 * (i + k) + j)
      = (wordBytes ws[k])[j]'(by simpa using hj) := by
    intro j hj
    have e : 4 * (i + k) + j = 4 * i + (4 * k + j) := by omega
    rw [e, Memory.putWords, Memory.read_write_same _ _ _ _ (by omega),
      flatMap_wordBytes_getElem ws k j hk hj]
  have r0 := rd 0 (by omega)
  rw [Nat.add_zero] at r0
  rw [Memory.word, r0, rd 1 (by omega), rd 2 (by omega), rd 3 (by omega)]
  exact bytesWord_wordBytes _

/-- A byte outside the words written reads as before. -/
theorem Memory.read_putWords_other (m : Memory) (i a : Nat) (ws : List Word)
    (h : a < 4 * i ∨ 4 * (i + ws.length) ≤ a) : (m.putWords i ws).read a = m.read a := by
  rw [Memory.putWords, Memory.read_write_other]
  rw [flatMap_wordBytes_length]; omega

/-- A word outside the words written reads as before. -/
theorem Memory.word_putWords_other (m : Memory) (i k : Nat) (ws : List Word) (h : k < i ∨ i + ws.length ≤ k) :
    (m.putWords i ws).word k = m.word k := by
  unfold Memory.word
  rw [Memory.read_putWords_other _ _ _ _ (by omega), Memory.read_putWords_other _ _ _ _ (by omega),
    Memory.read_putWords_other _ _ _ _ (by omega), Memory.read_putWords_other _ _ _ _ (by omega)]

theorem Memory.putWords_wf {m : Memory} {i : Nat} {ws : List Word} (hm : m.wf = true)
    (h : i + ws.length ≤ 8192) : (m.putWords i ws).wf = true := by
  refine Memory.write_wf hm ?_
  rw [flatMap_wordBytes_length]; omega

end Sys2Proof.Machine
end

