-- ==== Sys2Proof/Laws/State.lean ====
section
/-! SUPPORT. What each named update of the state does to each field: one lemma per field per update, true by
unfolding once, so that no later proof unfolds a record update. -/

namespace Sys2Proof.Machine

/-! ### setEvents -/

@[simp] theorem State.setEvents_cfg (s : State) (e : BitVec 8) :
    (s.setEvents e).cfg = s.cfg := rfl

@[simp] theorem State.setEvents_events (s : State) (e : BitVec 8) :
    (s.setEvents e).events = s.events ||| e := rfl

@[simp] theorem State.setEvents_irqEn (s : State) (e : BitVec 8) :
    (s.setEvents e).irqEn = s.irqEn := rfl

@[simp] theorem State.setEvents_lastCmd (s : State) (e : BitVec 8) :
    (s.setEvents e).lastCmd = s.lastCmd := rfl

@[simp] theorem State.setEvents_errCode (s : State) (e : BitVec 8) :
    (s.setEvents e).errCode = s.errCode := rfl

@[simp] theorem State.setEvents_warn (s : State) (e : BitVec 8) :
    (s.setEvents e).warn = s.warn := rfl

@[simp] theorem State.setEvents_tag (s : State) (e : BitVec 8) :
    (s.setEvents e).tag = s.tag := rfl

@[simp] theorem State.setEvents_fftLen (s : State) (e : BitVec 8) :
    (s.setEvents e).fftLen = s.fftLen := rfl

@[simp] theorem State.setEvents_crc32Res (s : State) (e : BitVec 8) :
    (s.setEvents e).crc32Res = s.crc32Res := rfl

@[simp] theorem State.setEvents_crc16Res (s : State) (e : BitVec 8) :
    (s.setEvents e).crc16Res = s.crc16Res := rfl

@[simp] theorem State.setEvents_pktStatus (s : State) (e : BitVec 8) :
    (s.setEvents e).pktStatus = s.pktStatus := rfl

@[simp] theorem State.setEvents_blocksAcked (s : State) (e : BitVec 8) :
    (s.setEvents e).blocksAcked = s.blocksAcked := rfl

@[simp] theorem State.setEvents_tick (s : State) (e : BitVec 8) :
    (s.setEvents e).tick = s.tick := rfl

@[simp] theorem State.setEvents_scr (s : State) (e : BitVec 8) :
    (s.setEvents e).scr = s.scr := rfl

@[simp] theorem State.setEvents_rx (s : State) (e : BitVec 8) :
    (s.setEvents e).rx = s.rx := rfl

@[simp] theorem State.setEvents_tx (s : State) (e : BitVec 8) :
    (s.setEvents e).tx = s.tx := rfl

@[simp] theorem State.setEvents_seq (s : State) (e : BitVec 8) :
    (s.setEvents e).seq = s.seq := rfl

@[simp] theorem State.setEvents_bt (s : State) (e : BitVec 8) :
    (s.setEvents e).bt = s.bt := rfl

@[simp] theorem State.setEvents_inputs (s : State) (e : BitVec 8) :
    (s.setEvents e).inputs = s.inputs := rfl

@[simp] theorem State.setEvents_hostResp (s : State) (e : BitVec 8) :
    (s.setEvents e).hostResp = s.hostResp := rfl

@[simp] theorem State.setEvents_txLine (s : State) (e : BitVec 8) :
    (s.setEvents e).txLine = s.txLine := rfl

@[simp] theorem State.setEvents_draws (s : State) (e : BitVec 8) :
    (s.setEvents e).draws = s.draws := rfl

/-! ### complete -/

@[simp] theorem State.complete_cfg (s : State) (c : ErrCode) (w : BitVec 3) :
    (s.complete c w).cfg = s.cfg := rfl

@[simp] theorem State.complete_events (s : State) (c : ErrCode) (w : BitVec 3) :
    (s.complete c w).events = s.events ||| evDone ||| (if c = .ok then 0 else evErr) ||| (if w = 0 then 0 else evWarn) := rfl

@[simp] theorem State.complete_irqEn (s : State) (c : ErrCode) (w : BitVec 3) :
    (s.complete c w).irqEn = s.irqEn := rfl

@[simp] theorem State.complete_lastCmd (s : State) (c : ErrCode) (w : BitVec 3) :
    (s.complete c w).lastCmd = s.lastCmd := rfl

@[simp] theorem State.complete_errCode (s : State) (c : ErrCode) (w : BitVec 3) :
    (s.complete c w).errCode = c := rfl

@[simp] theorem State.complete_warn (s : State) (c : ErrCode) (w : BitVec 3) :
    (s.complete c w).warn = s.warn ||| w := rfl

@[simp] theorem State.complete_tag (s : State) (c : ErrCode) (w : BitVec 3) :
    (s.complete c w).tag = s.tag := rfl

@[simp] theorem State.complete_fftLen (s : State) (c : ErrCode) (w : BitVec 3) :
    (s.complete c w).fftLen = s.fftLen := rfl

@[simp] theorem State.complete_crc32Res (s : State) (c : ErrCode) (w : BitVec 3) :
    (s.complete c w).crc32Res = s.crc32Res := rfl

@[simp] theorem State.complete_crc16Res (s : State) (c : ErrCode) (w : BitVec 3) :
    (s.complete c w).crc16Res = s.crc16Res := rfl

@[simp] theorem State.complete_pktStatus (s : State) (c : ErrCode) (w : BitVec 3) :
    (s.complete c w).pktStatus = s.pktStatus := rfl

@[simp] theorem State.complete_blocksAcked (s : State) (c : ErrCode) (w : BitVec 3) :
    (s.complete c w).blocksAcked = s.blocksAcked := rfl

@[simp] theorem State.complete_tick (s : State) (c : ErrCode) (w : BitVec 3) :
    (s.complete c w).tick = s.tick := rfl

@[simp] theorem State.complete_scr (s : State) (c : ErrCode) (w : BitVec 3) :
    (s.complete c w).scr = s.scr := rfl

@[simp] theorem State.complete_rx (s : State) (c : ErrCode) (w : BitVec 3) :
    (s.complete c w).rx = s.rx := rfl

@[simp] theorem State.complete_tx (s : State) (c : ErrCode) (w : BitVec 3) :
    (s.complete c w).tx = s.tx := rfl

@[simp] theorem State.complete_seq (s : State) (c : ErrCode) (w : BitVec 3) :
    (s.complete c w).seq = .idle := rfl

@[simp] theorem State.complete_bt (s : State) (c : ErrCode) (w : BitVec 3) :
    (s.complete c w).bt = s.bt := rfl

@[simp] theorem State.complete_inputs (s : State) (c : ErrCode) (w : BitVec 3) :
    (s.complete c w).inputs = s.inputs := rfl

@[simp] theorem State.complete_hostResp (s : State) (c : ErrCode) (w : BitVec 3) :
    (s.complete c w).hostResp = s.hostResp := rfl

@[simp] theorem State.complete_txLine (s : State) (c : ErrCode) (w : BitVec 3) :
    (s.complete c w).txLine = s.txLine := rfl

@[simp] theorem State.complete_draws (s : State) (c : ErrCode) (w : BitVec 3) :
    (s.complete c w).draws = s.draws := rfl

/-! ### succeed -/

@[simp] theorem State.succeed_cfg (s : State) :
    s.succeed.cfg = s.cfg := rfl

@[simp] theorem State.succeed_events (s : State) :
    s.succeed.events = s.events ||| evDone ||| 0 ||| 0 := rfl

@[simp] theorem State.succeed_irqEn (s : State) :
    s.succeed.irqEn = s.irqEn := rfl

@[simp] theorem State.succeed_lastCmd (s : State) :
    s.succeed.lastCmd = s.lastCmd := rfl

@[simp] theorem State.succeed_errCode (s : State) :
    s.succeed.errCode = .ok := rfl

@[simp] theorem State.succeed_warn (s : State) :
    s.succeed.warn = s.warn ||| 0 := rfl

@[simp] theorem State.succeed_tag (s : State) :
    s.succeed.tag = s.tag := rfl

@[simp] theorem State.succeed_fftLen (s : State) :
    s.succeed.fftLen = s.fftLen := rfl

@[simp] theorem State.succeed_crc32Res (s : State) :
    s.succeed.crc32Res = s.crc32Res := rfl

@[simp] theorem State.succeed_crc16Res (s : State) :
    s.succeed.crc16Res = s.crc16Res := rfl

@[simp] theorem State.succeed_pktStatus (s : State) :
    s.succeed.pktStatus = s.pktStatus := rfl

@[simp] theorem State.succeed_blocksAcked (s : State) :
    s.succeed.blocksAcked = s.blocksAcked := rfl

@[simp] theorem State.succeed_tick (s : State) :
    s.succeed.tick = s.tick := rfl

@[simp] theorem State.succeed_scr (s : State) :
    s.succeed.scr = s.scr := rfl

@[simp] theorem State.succeed_rx (s : State) :
    s.succeed.rx = s.rx := rfl

@[simp] theorem State.succeed_tx (s : State) :
    s.succeed.tx = s.tx := rfl

@[simp] theorem State.succeed_seq (s : State) :
    s.succeed.seq = .idle := rfl

@[simp] theorem State.succeed_bt (s : State) :
    s.succeed.bt = s.bt := rfl

@[simp] theorem State.succeed_inputs (s : State) :
    s.succeed.inputs = s.inputs := rfl

@[simp] theorem State.succeed_hostResp (s : State) :
    s.succeed.hostResp = s.hostResp := rfl

@[simp] theorem State.succeed_txLine (s : State) :
    s.succeed.txLine = s.txLine := rfl

@[simp] theorem State.succeed_draws (s : State) :
    s.succeed.draws = s.draws := rfl

/-! ### raise -/

@[simp] theorem State.raise_cfg (s : State) (c : ErrCode) :
    (s.raise c).cfg = s.cfg := rfl

@[simp] theorem State.raise_events (s : State) (c : ErrCode) :
    (s.raise c).events = s.events ||| evDone ||| (if c = .ok then 0 else evErr) ||| 0 := rfl

@[simp] theorem State.raise_irqEn (s : State) (c : ErrCode) :
    (s.raise c).irqEn = s.irqEn := rfl

@[simp] theorem State.raise_lastCmd (s : State) (c : ErrCode) :
    (s.raise c).lastCmd = s.lastCmd := rfl

@[simp] theorem State.raise_errCode (s : State) (c : ErrCode) :
    (s.raise c).errCode = c := rfl

@[simp] theorem State.raise_warn (s : State) (c : ErrCode) :
    (s.raise c).warn = s.warn ||| 0 := rfl

@[simp] theorem State.raise_tag (s : State) (c : ErrCode) :
    (s.raise c).tag = s.tag := rfl

@[simp] theorem State.raise_fftLen (s : State) (c : ErrCode) :
    (s.raise c).fftLen = s.fftLen := rfl

@[simp] theorem State.raise_crc32Res (s : State) (c : ErrCode) :
    (s.raise c).crc32Res = s.crc32Res := rfl

@[simp] theorem State.raise_crc16Res (s : State) (c : ErrCode) :
    (s.raise c).crc16Res = s.crc16Res := rfl

@[simp] theorem State.raise_pktStatus (s : State) (c : ErrCode) :
    (s.raise c).pktStatus = s.pktStatus := rfl

@[simp] theorem State.raise_blocksAcked (s : State) (c : ErrCode) :
    (s.raise c).blocksAcked = s.blocksAcked := rfl

@[simp] theorem State.raise_tick (s : State) (c : ErrCode) :
    (s.raise c).tick = s.tick := rfl

@[simp] theorem State.raise_scr (s : State) (c : ErrCode) :
    (s.raise c).scr = s.scr := rfl

@[simp] theorem State.raise_rx (s : State) (c : ErrCode) :
    (s.raise c).rx = s.rx := rfl

@[simp] theorem State.raise_tx (s : State) (c : ErrCode) :
    (s.raise c).tx = s.tx := rfl

@[simp] theorem State.raise_seq (s : State) (c : ErrCode) :
    (s.raise c).seq = .idle := rfl

@[simp] theorem State.raise_bt (s : State) (c : ErrCode) :
    (s.raise c).bt = s.bt := rfl

@[simp] theorem State.raise_inputs (s : State) (c : ErrCode) :
    (s.raise c).inputs = s.inputs := rfl

@[simp] theorem State.raise_hostResp (s : State) (c : ErrCode) :
    (s.raise c).hostResp = s.hostResp := rfl

@[simp] theorem State.raise_txLine (s : State) (c : ErrCode) :
    (s.raise c).txLine = s.txLine := rfl

@[simp] theorem State.raise_draws (s : State) (c : ErrCode) :
    (s.raise c).draws = s.draws := rfl

/-! ### withProgress -/

@[simp] theorem State.withProgress_cfg (s : State) (i : Instr) (p : Progress) :
    (s.withProgress i p).cfg = s.cfg := rfl

@[simp] theorem State.withProgress_events (s : State) (i : Instr) (p : Progress) :
    (s.withProgress i p).events = s.events := rfl

@[simp] theorem State.withProgress_irqEn (s : State) (i : Instr) (p : Progress) :
    (s.withProgress i p).irqEn = s.irqEn := rfl

@[simp] theorem State.withProgress_lastCmd (s : State) (i : Instr) (p : Progress) :
    (s.withProgress i p).lastCmd = s.lastCmd := rfl

@[simp] theorem State.withProgress_errCode (s : State) (i : Instr) (p : Progress) :
    (s.withProgress i p).errCode = s.errCode := rfl

@[simp] theorem State.withProgress_warn (s : State) (i : Instr) (p : Progress) :
    (s.withProgress i p).warn = s.warn := rfl

@[simp] theorem State.withProgress_tag (s : State) (i : Instr) (p : Progress) :
    (s.withProgress i p).tag = s.tag := rfl

@[simp] theorem State.withProgress_fftLen (s : State) (i : Instr) (p : Progress) :
    (s.withProgress i p).fftLen = s.fftLen := rfl

@[simp] theorem State.withProgress_crc32Res (s : State) (i : Instr) (p : Progress) :
    (s.withProgress i p).crc32Res = s.crc32Res := rfl

@[simp] theorem State.withProgress_crc16Res (s : State) (i : Instr) (p : Progress) :
    (s.withProgress i p).crc16Res = s.crc16Res := rfl

@[simp] theorem State.withProgress_pktStatus (s : State) (i : Instr) (p : Progress) :
    (s.withProgress i p).pktStatus = s.pktStatus := rfl

@[simp] theorem State.withProgress_blocksAcked (s : State) (i : Instr) (p : Progress) :
    (s.withProgress i p).blocksAcked = s.blocksAcked := rfl

@[simp] theorem State.withProgress_tick (s : State) (i : Instr) (p : Progress) :
    (s.withProgress i p).tick = s.tick := rfl

@[simp] theorem State.withProgress_scr (s : State) (i : Instr) (p : Progress) :
    (s.withProgress i p).scr = s.scr := rfl

@[simp] theorem State.withProgress_rx (s : State) (i : Instr) (p : Progress) :
    (s.withProgress i p).rx = s.rx := rfl

@[simp] theorem State.withProgress_tx (s : State) (i : Instr) (p : Progress) :
    (s.withProgress i p).tx = s.tx := rfl

@[simp] theorem State.withProgress_seq (s : State) (i : Instr) (p : Progress) :
    (s.withProgress i p).seq = .run (s.cmdWord i) p := rfl

@[simp] theorem State.withProgress_bt (s : State) (i : Instr) (p : Progress) :
    (s.withProgress i p).bt = s.bt := rfl

@[simp] theorem State.withProgress_inputs (s : State) (i : Instr) (p : Progress) :
    (s.withProgress i p).inputs = s.inputs := rfl

@[simp] theorem State.withProgress_hostResp (s : State) (i : Instr) (p : Progress) :
    (s.withProgress i p).hostResp = s.hostResp := rfl

@[simp] theorem State.withProgress_txLine (s : State) (i : Instr) (p : Progress) :
    (s.withProgress i p).txLine = s.txLine := rfl

@[simp] theorem State.withProgress_draws (s : State) (i : Instr) (p : Progress) :
    (s.withProgress i p).draws = s.draws := rfl

/-! ### accept -/

@[simp] theorem State.accept_cfg (s : State) (w : Word) :
    (s.accept w).cfg = s.cfg := rfl

@[simp] theorem State.accept_events (s : State) (w : Word) :
    (s.accept w).events = s.events := rfl

@[simp] theorem State.accept_irqEn (s : State) (w : Word) :
    (s.accept w).irqEn = s.irqEn := rfl

@[simp] theorem State.accept_lastCmd (s : State) (w : Word) :
    (s.accept w).lastCmd = w := rfl

@[simp] theorem State.accept_errCode (s : State) (w : Word) :
    (s.accept w).errCode = s.errCode := rfl

@[simp] theorem State.accept_warn (s : State) (w : Word) :
    (s.accept w).warn = s.warn := rfl

@[simp] theorem State.accept_tag (s : State) (w : Word) :
    (s.accept w).tag = s.tag := rfl

@[simp] theorem State.accept_fftLen (s : State) (w : Word) :
    (s.accept w).fftLen = s.fftLen := rfl

@[simp] theorem State.accept_crc32Res (s : State) (w : Word) :
    (s.accept w).crc32Res = s.crc32Res := rfl

@[simp] theorem State.accept_crc16Res (s : State) (w : Word) :
    (s.accept w).crc16Res = s.crc16Res := rfl

@[simp] theorem State.accept_pktStatus (s : State) (w : Word) :
    (s.accept w).pktStatus = s.pktStatus := rfl

@[simp] theorem State.accept_blocksAcked (s : State) (w : Word) :
    (s.accept w).blocksAcked = s.blocksAcked := rfl

@[simp] theorem State.accept_tick (s : State) (w : Word) :
    (s.accept w).tick = s.tick := rfl

@[simp] theorem State.accept_scr (s : State) (w : Word) :
    (s.accept w).scr = s.scr := rfl

@[simp] theorem State.accept_rx (s : State) (w : Word) :
    (s.accept w).rx = s.rx := rfl

@[simp] theorem State.accept_tx (s : State) (w : Word) :
    (s.accept w).tx = s.tx := rfl

@[simp] theorem State.accept_seq (s : State) (w : Word) :
    (s.accept w).seq = .run w .start := rfl

@[simp] theorem State.accept_bt (s : State) (w : Word) :
    (s.accept w).bt = s.bt := rfl

@[simp] theorem State.accept_inputs (s : State) (w : Word) :
    (s.accept w).inputs = s.inputs := rfl

@[simp] theorem State.accept_hostResp (s : State) (w : Word) :
    (s.accept w).hostResp = s.hostResp := rfl

@[simp] theorem State.accept_txLine (s : State) (w : Word) :
    (s.accept w).txLine = s.txLine := rfl

@[simp] theorem State.accept_draws (s : State) (w : Word) :
    (s.accept w).draws = s.draws := rfl

/-! ### store -/

@[simp] theorem State.store_cfg (s : State) (ws : List Word) (t : ScrTag) :
    (s.store ws t).cfg = s.cfg := rfl

@[simp] theorem State.store_events (s : State) (ws : List Word) (t : ScrTag) :
    (s.store ws t).events = s.events := rfl

@[simp] theorem State.store_irqEn (s : State) (ws : List Word) (t : ScrTag) :
    (s.store ws t).irqEn = s.irqEn := rfl

@[simp] theorem State.store_lastCmd (s : State) (ws : List Word) (t : ScrTag) :
    (s.store ws t).lastCmd = s.lastCmd := rfl

@[simp] theorem State.store_errCode (s : State) (ws : List Word) (t : ScrTag) :
    (s.store ws t).errCode = s.errCode := rfl

@[simp] theorem State.store_warn (s : State) (ws : List Word) (t : ScrTag) :
    (s.store ws t).warn = s.warn := rfl

@[simp] theorem State.store_tag (s : State) (ws : List Word) (t : ScrTag) :
    (s.store ws t).tag = t := rfl

@[simp] theorem State.store_fftLen (s : State) (ws : List Word) (t : ScrTag) :
    (s.store ws t).fftLen = s.fftLen := rfl

@[simp] theorem State.store_crc32Res (s : State) (ws : List Word) (t : ScrTag) :
    (s.store ws t).crc32Res = s.crc32Res := rfl

@[simp] theorem State.store_crc16Res (s : State) (ws : List Word) (t : ScrTag) :
    (s.store ws t).crc16Res = s.crc16Res := rfl

@[simp] theorem State.store_pktStatus (s : State) (ws : List Word) (t : ScrTag) :
    (s.store ws t).pktStatus = s.pktStatus := rfl

@[simp] theorem State.store_blocksAcked (s : State) (ws : List Word) (t : ScrTag) :
    (s.store ws t).blocksAcked = s.blocksAcked := rfl

@[simp] theorem State.store_tick (s : State) (ws : List Word) (t : ScrTag) :
    (s.store ws t).tick = s.tick := rfl

@[simp] theorem State.store_scr (s : State) (ws : List Word) (t : ScrTag) :
    (s.store ws t).scr = s.scr.putWords 0 ws := rfl

@[simp] theorem State.store_rx (s : State) (ws : List Word) (t : ScrTag) :
    (s.store ws t).rx = s.rx := rfl

@[simp] theorem State.store_tx (s : State) (ws : List Word) (t : ScrTag) :
    (s.store ws t).tx = s.tx := rfl

@[simp] theorem State.store_seq (s : State) (ws : List Word) (t : ScrTag) :
    (s.store ws t).seq = s.seq := rfl

@[simp] theorem State.store_bt (s : State) (ws : List Word) (t : ScrTag) :
    (s.store ws t).bt = s.bt := rfl

@[simp] theorem State.store_inputs (s : State) (ws : List Word) (t : ScrTag) :
    (s.store ws t).inputs = s.inputs := rfl

@[simp] theorem State.store_hostResp (s : State) (ws : List Word) (t : ScrTag) :
    (s.store ws t).hostResp = s.hostResp := rfl

@[simp] theorem State.store_txLine (s : State) (ws : List Word) (t : ScrTag) :
    (s.store ws t).txLine = s.txLine := rfl

@[simp] theorem State.store_draws (s : State) (ws : List Word) (t : ScrTag) :
    (s.store ws t).draws = s.draws := rfl

/-! ### pushTx -/

@[simp] theorem State.pushTx_cfg (s : State) (b : Byte) :
    (s.pushTx b).cfg = s.cfg := rfl

@[simp] theorem State.pushTx_events (s : State) (b : Byte) :
    (s.pushTx b).events = s.events := rfl

@[simp] theorem State.pushTx_irqEn (s : State) (b : Byte) :
    (s.pushTx b).irqEn = s.irqEn := rfl

@[simp] theorem State.pushTx_lastCmd (s : State) (b : Byte) :
    (s.pushTx b).lastCmd = s.lastCmd := rfl

@[simp] theorem State.pushTx_errCode (s : State) (b : Byte) :
    (s.pushTx b).errCode = s.errCode := rfl

@[simp] theorem State.pushTx_warn (s : State) (b : Byte) :
    (s.pushTx b).warn = s.warn := rfl

@[simp] theorem State.pushTx_tag (s : State) (b : Byte) :
    (s.pushTx b).tag = s.tag := rfl

@[simp] theorem State.pushTx_fftLen (s : State) (b : Byte) :
    (s.pushTx b).fftLen = s.fftLen := rfl

@[simp] theorem State.pushTx_crc32Res (s : State) (b : Byte) :
    (s.pushTx b).crc32Res = s.crc32Res := rfl

@[simp] theorem State.pushTx_crc16Res (s : State) (b : Byte) :
    (s.pushTx b).crc16Res = s.crc16Res := rfl

@[simp] theorem State.pushTx_pktStatus (s : State) (b : Byte) :
    (s.pushTx b).pktStatus = s.pktStatus := rfl

@[simp] theorem State.pushTx_blocksAcked (s : State) (b : Byte) :
    (s.pushTx b).blocksAcked = s.blocksAcked := rfl

@[simp] theorem State.pushTx_tick (s : State) (b : Byte) :
    (s.pushTx b).tick = s.tick := rfl

@[simp] theorem State.pushTx_scr (s : State) (b : Byte) :
    (s.pushTx b).scr = s.scr := rfl

@[simp] theorem State.pushTx_rx (s : State) (b : Byte) :
    (s.pushTx b).rx = s.rx := rfl

@[simp] theorem State.pushTx_tx (s : State) (b : Byte) :
    (s.pushTx b).tx = s.tx.push b := rfl

@[simp] theorem State.pushTx_seq (s : State) (b : Byte) :
    (s.pushTx b).seq = s.seq := rfl

@[simp] theorem State.pushTx_bt (s : State) (b : Byte) :
    (s.pushTx b).bt = s.bt := rfl

@[simp] theorem State.pushTx_inputs (s : State) (b : Byte) :
    (s.pushTx b).inputs = s.inputs := rfl

@[simp] theorem State.pushTx_hostResp (s : State) (b : Byte) :
    (s.pushTx b).hostResp = s.hostResp := rfl

@[simp] theorem State.pushTx_txLine (s : State) (b : Byte) :
    (s.pushTx b).txLine = s.txLine := rfl

@[simp] theorem State.pushTx_draws (s : State) (b : Byte) :
    (s.pushTx b).draws = s.draws := rfl

/-! ### popRx -/

@[simp] theorem State.popRx_cfg (s : State) :
    s.popRx.cfg = s.cfg := rfl

@[simp] theorem State.popRx_events (s : State) :
    s.popRx.events = s.events := rfl

@[simp] theorem State.popRx_irqEn (s : State) :
    s.popRx.irqEn = s.irqEn := rfl

@[simp] theorem State.popRx_lastCmd (s : State) :
    s.popRx.lastCmd = s.lastCmd := rfl

@[simp] theorem State.popRx_errCode (s : State) :
    s.popRx.errCode = s.errCode := rfl

@[simp] theorem State.popRx_warn (s : State) :
    s.popRx.warn = s.warn := rfl

@[simp] theorem State.popRx_tag (s : State) :
    s.popRx.tag = s.tag := rfl

@[simp] theorem State.popRx_fftLen (s : State) :
    s.popRx.fftLen = s.fftLen := rfl

@[simp] theorem State.popRx_crc32Res (s : State) :
    s.popRx.crc32Res = s.crc32Res := rfl

@[simp] theorem State.popRx_crc16Res (s : State) :
    s.popRx.crc16Res = s.crc16Res := rfl

@[simp] theorem State.popRx_pktStatus (s : State) :
    s.popRx.pktStatus = s.pktStatus := rfl

@[simp] theorem State.popRx_blocksAcked (s : State) :
    s.popRx.blocksAcked = s.blocksAcked := rfl

@[simp] theorem State.popRx_tick (s : State) :
    s.popRx.tick = s.tick := rfl

@[simp] theorem State.popRx_scr (s : State) :
    s.popRx.scr = s.scr := rfl

@[simp] theorem State.popRx_rx (s : State) :
    s.popRx.rx = s.rx.pop := rfl

@[simp] theorem State.popRx_tx (s : State) :
    s.popRx.tx = s.tx := rfl

@[simp] theorem State.popRx_seq (s : State) :
    s.popRx.seq = s.seq := rfl

@[simp] theorem State.popRx_bt (s : State) :
    s.popRx.bt = s.bt := rfl

@[simp] theorem State.popRx_inputs (s : State) :
    s.popRx.inputs = s.inputs := rfl

@[simp] theorem State.popRx_hostResp (s : State) :
    s.popRx.hostResp = s.hostResp := rfl

@[simp] theorem State.popRx_txLine (s : State) :
    s.popRx.txLine = s.txLine := rfl

@[simp] theorem State.popRx_draws (s : State) :
    s.popRx.draws = s.draws := rfl

/-! ### respond -/

@[simp] theorem State.respond_cfg (s : State) (r : HostResponse) :
    (s.respond r).cfg = s.cfg := rfl

@[simp] theorem State.respond_events (s : State) (r : HostResponse) :
    (s.respond r).events = s.events := rfl

@[simp] theorem State.respond_irqEn (s : State) (r : HostResponse) :
    (s.respond r).irqEn = s.irqEn := rfl

@[simp] theorem State.respond_lastCmd (s : State) (r : HostResponse) :
    (s.respond r).lastCmd = s.lastCmd := rfl

@[simp] theorem State.respond_errCode (s : State) (r : HostResponse) :
    (s.respond r).errCode = s.errCode := rfl

@[simp] theorem State.respond_warn (s : State) (r : HostResponse) :
    (s.respond r).warn = s.warn := rfl

@[simp] theorem State.respond_tag (s : State) (r : HostResponse) :
    (s.respond r).tag = s.tag := rfl

@[simp] theorem State.respond_fftLen (s : State) (r : HostResponse) :
    (s.respond r).fftLen = s.fftLen := rfl

@[simp] theorem State.respond_crc32Res (s : State) (r : HostResponse) :
    (s.respond r).crc32Res = s.crc32Res := rfl

@[simp] theorem State.respond_crc16Res (s : State) (r : HostResponse) :
    (s.respond r).crc16Res = s.crc16Res := rfl

@[simp] theorem State.respond_pktStatus (s : State) (r : HostResponse) :
    (s.respond r).pktStatus = s.pktStatus := rfl

@[simp] theorem State.respond_blocksAcked (s : State) (r : HostResponse) :
    (s.respond r).blocksAcked = s.blocksAcked := rfl

@[simp] theorem State.respond_tick (s : State) (r : HostResponse) :
    (s.respond r).tick = s.tick := rfl

@[simp] theorem State.respond_scr (s : State) (r : HostResponse) :
    (s.respond r).scr = s.scr := rfl

@[simp] theorem State.respond_rx (s : State) (r : HostResponse) :
    (s.respond r).rx = s.rx := rfl

@[simp] theorem State.respond_tx (s : State) (r : HostResponse) :
    (s.respond r).tx = s.tx := rfl

@[simp] theorem State.respond_seq (s : State) (r : HostResponse) :
    (s.respond r).seq = s.seq := rfl

@[simp] theorem State.respond_bt (s : State) (r : HostResponse) :
    (s.respond r).bt = s.bt := rfl

@[simp] theorem State.respond_inputs (s : State) (r : HostResponse) :
    (s.respond r).inputs = s.inputs := rfl

@[simp] theorem State.respond_hostResp (s : State) (r : HostResponse) :
    (s.respond r).hostResp = r := rfl

@[simp] theorem State.respond_txLine (s : State) (r : HostResponse) :
    (s.respond r).txLine = s.txLine := rfl

@[simp] theorem State.respond_draws (s : State) (r : HostResponse) :
    (s.respond r).draws = s.draws := rfl

/-! ### sendBlock -/

@[simp] theorem State.sendBlock_cfg (s : State) :
    s.sendBlock.cfg = s.cfg := rfl

@[simp] theorem State.sendBlock_events (s : State) :
    s.sendBlock.events = s.events := rfl

@[simp] theorem State.sendBlock_irqEn (s : State) :
    s.sendBlock.irqEn = s.irqEn := rfl

@[simp] theorem State.sendBlock_lastCmd (s : State) :
    s.sendBlock.lastCmd = s.lastCmd := rfl

@[simp] theorem State.sendBlock_errCode (s : State) :
    s.sendBlock.errCode = s.errCode := rfl

@[simp] theorem State.sendBlock_warn (s : State) :
    s.sendBlock.warn = s.warn := rfl

@[simp] theorem State.sendBlock_tag (s : State) :
    s.sendBlock.tag = s.tag := rfl

@[simp] theorem State.sendBlock_fftLen (s : State) :
    s.sendBlock.fftLen = s.fftLen := rfl

@[simp] theorem State.sendBlock_crc32Res (s : State) :
    s.sendBlock.crc32Res = s.crc32Res := rfl

@[simp] theorem State.sendBlock_crc16Res (s : State) :
    s.sendBlock.crc16Res = s.crc16Res := rfl

@[simp] theorem State.sendBlock_pktStatus (s : State) :
    s.sendBlock.pktStatus = s.pktStatus := rfl

@[simp] theorem State.sendBlock_blocksAcked (s : State) :
    s.sendBlock.blocksAcked = s.blocksAcked := rfl

@[simp] theorem State.sendBlock_tick (s : State) :
    s.sendBlock.tick = s.tick := rfl

@[simp] theorem State.sendBlock_scr (s : State) :
    s.sendBlock.scr = s.scr := rfl

@[simp] theorem State.sendBlock_rx (s : State) :
    s.sendBlock.rx = s.rx := rfl

@[simp] theorem State.sendBlock_tx (s : State) :
    s.sendBlock.tx = s.tx := rfl

@[simp] theorem State.sendBlock_seq (s : State) :
    s.sendBlock.seq = s.seq := rfl

@[simp] theorem State.sendBlock_bt (s : State) :
    s.sendBlock.bt = { s.bt with state := .sending, outq := s.blockPacket s.bt.blk } := rfl

@[simp] theorem State.sendBlock_inputs (s : State) :
    s.sendBlock.inputs = s.inputs := rfl

@[simp] theorem State.sendBlock_hostResp (s : State) :
    s.sendBlock.hostResp = s.hostResp := rfl

@[simp] theorem State.sendBlock_txLine (s : State) :
    s.sendBlock.txLine = s.txLine := rfl

@[simp] theorem State.sendBlock_draws (s : State) :
    s.sendBlock.draws = s.draws := rfl

/-! ### sendEot -/

@[simp] theorem State.sendEot_cfg (s : State) :
    s.sendEot.cfg = s.cfg := rfl

@[simp] theorem State.sendEot_events (s : State) :
    s.sendEot.events = s.events := rfl

@[simp] theorem State.sendEot_irqEn (s : State) :
    s.sendEot.irqEn = s.irqEn := rfl

@[simp] theorem State.sendEot_lastCmd (s : State) :
    s.sendEot.lastCmd = s.lastCmd := rfl

@[simp] theorem State.sendEot_errCode (s : State) :
    s.sendEot.errCode = s.errCode := rfl

@[simp] theorem State.sendEot_warn (s : State) :
    s.sendEot.warn = s.warn := rfl

@[simp] theorem State.sendEot_tag (s : State) :
    s.sendEot.tag = s.tag := rfl

@[simp] theorem State.sendEot_fftLen (s : State) :
    s.sendEot.fftLen = s.fftLen := rfl

@[simp] theorem State.sendEot_crc32Res (s : State) :
    s.sendEot.crc32Res = s.crc32Res := rfl

@[simp] theorem State.sendEot_crc16Res (s : State) :
    s.sendEot.crc16Res = s.crc16Res := rfl

@[simp] theorem State.sendEot_pktStatus (s : State) :
    s.sendEot.pktStatus = s.pktStatus := rfl

@[simp] theorem State.sendEot_blocksAcked (s : State) :
    s.sendEot.blocksAcked = s.blocksAcked := rfl

@[simp] theorem State.sendEot_tick (s : State) :
    s.sendEot.tick = s.tick := rfl

@[simp] theorem State.sendEot_scr (s : State) :
    s.sendEot.scr = s.scr := rfl

@[simp] theorem State.sendEot_rx (s : State) :
    s.sendEot.rx = s.rx := rfl

@[simp] theorem State.sendEot_tx (s : State) :
    s.sendEot.tx = s.tx := rfl

@[simp] theorem State.sendEot_seq (s : State) :
    s.sendEot.seq = s.seq := rfl

@[simp] theorem State.sendEot_bt (s : State) :
    s.sendEot.bt = { s.bt with state := .sendEot, outq := [btEot] } := rfl

@[simp] theorem State.sendEot_inputs (s : State) :
    s.sendEot.inputs = s.inputs := rfl

@[simp] theorem State.sendEot_hostResp (s : State) :
    s.sendEot.hostResp = s.hostResp := rfl

@[simp] theorem State.sendEot_txLine (s : State) :
    s.sendEot.txLine = s.txLine := rfl

@[simp] theorem State.sendEot_draws (s : State) :
    s.sendEot.draws = s.draws := rfl

/-! ### btAbort -/

@[simp] theorem State.btAbort_cfg (s : State) (c : ErrCode) :
    (s.btAbort c).cfg = s.cfg := rfl

@[simp] theorem State.btAbort_events (s : State) (c : ErrCode) :
    (s.btAbort c).events = s.events := rfl

@[simp] theorem State.btAbort_irqEn (s : State) (c : ErrCode) :
    (s.btAbort c).irqEn = s.irqEn := rfl

@[simp] theorem State.btAbort_lastCmd (s : State) (c : ErrCode) :
    (s.btAbort c).lastCmd = s.lastCmd := rfl

@[simp] theorem State.btAbort_errCode (s : State) (c : ErrCode) :
    (s.btAbort c).errCode = s.errCode := rfl

@[simp] theorem State.btAbort_warn (s : State) (c : ErrCode) :
    (s.btAbort c).warn = s.warn := rfl

@[simp] theorem State.btAbort_tag (s : State) (c : ErrCode) :
    (s.btAbort c).tag = s.tag := rfl

@[simp] theorem State.btAbort_fftLen (s : State) (c : ErrCode) :
    (s.btAbort c).fftLen = s.fftLen := rfl

@[simp] theorem State.btAbort_crc32Res (s : State) (c : ErrCode) :
    (s.btAbort c).crc32Res = s.crc32Res := rfl

@[simp] theorem State.btAbort_crc16Res (s : State) (c : ErrCode) :
    (s.btAbort c).crc16Res = s.crc16Res := rfl

@[simp] theorem State.btAbort_pktStatus (s : State) (c : ErrCode) :
    (s.btAbort c).pktStatus = s.pktStatus := rfl

@[simp] theorem State.btAbort_blocksAcked (s : State) (c : ErrCode) :
    (s.btAbort c).blocksAcked = s.blocksAcked := rfl

@[simp] theorem State.btAbort_tick (s : State) (c : ErrCode) :
    (s.btAbort c).tick = s.tick := rfl

@[simp] theorem State.btAbort_scr (s : State) (c : ErrCode) :
    (s.btAbort c).scr = s.scr := rfl

@[simp] theorem State.btAbort_rx (s : State) (c : ErrCode) :
    (s.btAbort c).rx = s.rx := rfl

@[simp] theorem State.btAbort_tx (s : State) (c : ErrCode) :
    (s.btAbort c).tx = s.tx := rfl

@[simp] theorem State.btAbort_seq (s : State) (c : ErrCode) :
    (s.btAbort c).seq = s.seq := rfl

@[simp] theorem State.btAbort_bt (s : State) (c : ErrCode) :
    (s.btAbort c).bt = { s.bt with code := c, cancelReq := false, state := .aborted, outq := if c = .btCancelRemote then [] else [btCan, btCan] } := rfl

@[simp] theorem State.btAbort_inputs (s : State) (c : ErrCode) :
    (s.btAbort c).inputs = s.inputs := rfl

@[simp] theorem State.btAbort_hostResp (s : State) (c : ErrCode) :
    (s.btAbort c).hostResp = s.hostResp := rfl

@[simp] theorem State.btAbort_txLine (s : State) (c : ErrCode) :
    (s.btAbort c).txLine = s.txLine := rfl

@[simp] theorem State.btAbort_draws (s : State) (c : ErrCode) :
    (s.btAbort c).draws = s.draws := rfl

end Sys2Proof.Machine
end

