-- ==== Sys2Proof/Laws/Ops.lean ====
section
/-! SUPPORT. What the shared operations of the commands can do, each said once: the check list, the completion, the
progress of a streaming command, the store of the result words. -/

namespace Sys2Proof.Machine

/-! ### Checks and completion -/

theorem firstError_eq_find (checks : List (Bool × ErrCode)) :
    firstError checks = (checks.find? (fun c => c.1)).map (fun c => c.2) := by
  induction checks with
  | nil => rfl
  | cons c rest ih => obtain ⟨b, e⟩ := c; cases b <;> simp [firstError, ih]

/-- A command whose checks all pass leaves `done`. -/
theorem State.checked_of_none {s done : State} {checks : List (Bool × ErrCode)} (h : firstError checks = none) :
    s.checked checks done = done := by simp [State.checked, h]

/-- A command of which a check fails raises that check's code. -/
theorem State.checked_of_some {s done : State} {checks : List (Bool × ErrCode)} {code : ErrCode}
    (h : firstError checks = some code) : s.checked checks done = s.raise code := by simp [State.checked, h]

/-- A check list leaves one of two states. -/
theorem State.checked_cases (s done : State) (checks : List (Bool × ErrCode)) :
    (firstError checks = none ∧ s.checked checks done = done)
      ∨ ∃ code, firstError checks = some code ∧ s.checked checks done = s.raise code := by
  cases h : firstError checks with
  | none => exact .inl ⟨rfl, State.checked_of_none h⟩
  | some code => exact .inr ⟨code, rfl, State.checked_of_some h⟩

theorem firstError_mem {checks : List (Bool × ErrCode)} {code : ErrCode} (h : firstError checks = some code) :
    (true, code) ∈ checks := by
  induction checks with
  | nil => cases h
  | cons c rest ih =>
    obtain ⟨b, e⟩ := c
    cases b with
    | true => obtain rfl : e = code := by simpa [firstError] using h
              exact List.mem_cons_self ..
    | false => exact List.mem_cons_of_mem _ (ih (by simpa [firstError] using h))

/-- The completion without error, in the words of the statements. -/
theorem State.complete_ok (s : State) (w : BitVec 3) : s.complete .ok w = s.finished w := by
  by_cases h : w = 0#3 <;> simp [State.complete, State.finished, evDone, evWarn, h, BitVec.or_assoc]

theorem State.succeed_eq (s : State) : s.succeed = s.finished 0 := s.complete_ok 0

/-- The raise of an error, in the words of the statements. -/
theorem State.raise_eq {s : State} {code : ErrCode} (h : code ≠ .ok) : s.raise code = s.failed code := by
  simp [State.raise, State.complete, State.failed, evDone, evErr, h, BitVec.or_assoc]

/-! ### The sequencer's registers -/

theorem State.progress_of_run {s : State} {w : Word} {p : Progress} (h : s.seq = .run w p) : s.progress = p := by
  simp [State.progress, h]

theorem State.cmdWord_of_run {s : State} {w : Word} {p : Progress} (i : Instr) (h : s.seq = .run w p) :
    s.cmdWord i = w := by simp [State.cmdWord, h]

theorem State.withProgress_of_run {s : State} {w : Word} {p : Progress} (i : Instr) (q : Progress)
    (h : s.seq = .run w p) : s.withProgress i q = { s with seq := .run w q } := by
  simp [State.withProgress, s.cmdWord_of_run i h]

theorem State.busy_iff (s : State) : s.busy = true ↔ s.seq ≠ .idle := by simp [State.busy, bne_iff_ne]

theorem State.busy_eq_false_iff (s : State) : s.busy = false ↔ s.seq = .idle := by
  simp [State.busy]

theorem State.runsBtx_iff (s : State) : s.runsBtx = true ↔ ∃ p, s.seq = .run 0x0000000B#32 p := by
  unfold State.runsBtx
  split <;> simp_all [encode, Instr.opCode, Instr.selCode]

/-! ### Streaming commands -/

/-- A streaming command at its start step. -/
theorem State.stream_start {s : State} {i : Instr} {checks : List (Bool × ErrCode)} {bytes : List Byte}
    {finish : State → State} (h : s.progress = .start ∨ s.progress = .engine) :
    s.stream i checks bytes finish = s.checked checks (s.withProgress i (.push bytes)) := by
  rcases h with h | h <;> simp [State.stream, h]

/-- A streaming command with a byte to push, which waits while the core side sees the TX FIFO full. -/
theorem State.stream_push {s : State} {i : Instr} {checks : List (Bool × ErrCode)} {bytes : List Byte}
    {finish : State → State} {b : Byte} {rest : List Byte} (h : s.progress = .push (b :: rest)) :
    s.stream i checks bytes finish = if s.tx.seesFull then s else (s.pushTx b).withProgress i (.push rest) := by
  simp [State.stream, h]

/-- A streaming command with nothing left to push. -/
theorem State.stream_done {s : State} {i : Instr} {checks : List (Bool × ErrCode)} {bytes : List Byte}
    {finish : State → State} (h : s.progress = .push []) :
    s.stream i checks bytes finish = (finish s).succeed := by simp [State.stream, h]

/-! ### Result words -/

@[simp] theorem tabulate_length (count : Nat) (f : Nat → Word) : (tabulate count f).length = count := by
  simp [tabulate]

@[simp] theorem tabulate_getElem (count : Nat) (f : Nat → Word) (k : Nat) (h : k < (tabulate count f).length) :
    (tabulate count f)[k] = f k := by simp [tabulate]

/-- Words stored from word 0 on: they are read back, and every byte behind them is as before. -/
theorem Memory.putWords_words (m : Memory) (ws : List Word) :
    (∀ n (h : n < ws.length), (m.putWords 0 ws).word n = ws[n])
      ∧ ∀ a, 4 * ws.length ≤ a → (m.putWords 0 ws).read a = m.read a := by
  refine ⟨fun n h => ?_, fun a h => Memory.read_putWords_other m 0 a ws (.inr (by omega))⟩
  simpa using Memory.word_putWords_same m 0 n ws h

/-- What `store` writes, whatever bookkeeping follows it. -/
theorem WordsWritten.of_store {s t : State} {count : Nat} {f : Nat → Word} {ws : List Word}
    (hs : t.scr = s.scr.putWords 0 ws) (hl : ws.length = count) (hf : ∀ n (h : n < ws.length), ws[n] = f n) :
    WordsWritten s t count f := by
  subst hl
  obtain ⟨h₁, h₂⟩ := Memory.putWords_words s.scr ws
  exact ⟨fun n h => by rw [hs, h₁ n h, hf n h], fun a h => by rw [hs, h₂ a h]⟩

/-- Storing the tabulated words `f`, then completing. -/
theorem WordsWritten.of_tabulate {s t : State} {count : Nat} {f g : Nat → Word}
    (hs : t.scr = s.scr.putWords 0 (tabulate count f)) (hf : ∀ n, n < count → f n = g n) :
    WordsWritten s t count g :=
  .of_store hs (tabulate_length ..) fun n h => by
    rw [tabulate_getElem]; exact hf n (by simpa using h)

end Sys2Proof.Machine
end

