-- ==== Sys2Proof/Laws/Btx.lean ====
section
/-! SUPPORT. What the block-transfer operations can do, each said once. -/

namespace Sys2Proof.Machine

/-- What an engine step may touch: the FIFO pointers and slots, the engine state and BLOCKS_ACKED; and, only where it
ends the command, the completion's registers. -/
def EngineFrame (s t : State) : Prop :=
  (t = { s with rx := t.rx, tx := t.tx, bt := t.bt, blocksAcked := t.blocksAcked })
    ∨ ∃ code, t.seq = .idle ∧ t.errCode = code
        ∧ t = { s with rx := t.rx, tx := t.tx, bt := t.bt, errCode := t.errCode, events := t.events, seq := t.seq }

theorem State.btAbort_frame (s : State) (code : ErrCode) : s.btAbort code = { s with bt := (s.btAbort code).bt } := rfl

/-- A retry aborts or sends the block or the EOT again. -/
theorem State.btRetry_cases (s : State) (code : ErrCode) :
    (s.cfg.btMaxRetry ≤ s.bt.retries ∧ s.btRetry code = s.btAbort code)
      ∨ (s.bt.retries < s.cfg.btMaxRetry ∧ s.bt.state = .waitAck ∧ s.btRetry code = { s with
          bt := { s.bt with retries := s.bt.retries + 1, state := .sending, outq := s.blockPacket s.bt.blk } })
      ∨ (s.bt.retries < s.cfg.btMaxRetry ∧ s.bt.state ≠ .waitAck ∧ s.btRetry code = { s with
          bt := { s.bt with retries := s.bt.retries + 1, state := .sendEot, outq := [btEot] } }) := by
  unfold State.btRetry
  split <;> rename_i h
  · exact .inl ⟨h, rfl⟩
  · have h := BitVec.not_le.1 h
    by_cases hw : s.bt.state = .waitAck
    · exact .inr (.inl ⟨h, hw, by simp [hw]; rfl⟩)
    · exact .inr (.inr ⟨h, hw, by simp [hw]; rfl⟩)

/-- An ACK goes on to the next block, or to the EOT after the last. -/
theorem State.btAcked_cases (s : State) :
    (s.bt.blk + 1 = s.bt.nblk ∧ s.btAcked = { s with
        blocksAcked := BitVec.ofNat 9 (s.bt.blk + 1)
        bt := { s.bt with blk := s.bt.blk + 1, retries := 0, state := .sendEot, outq := [btEot] } })
      ∨ (s.bt.blk + 1 ≠ s.bt.nblk ∧ s.btAcked = { s with
        blocksAcked := BitVec.ofNat 9 (s.bt.blk + 1)
        bt := { s.bt with blk := s.bt.blk + 1, retries := 0, state := .sending
                          outq := s.blockPacket (s.bt.blk + 1) } }) := by
  by_cases h : s.bt.blk + 1 = s.bt.nblk
  · exact .inl ⟨h, by simp [State.btAcked, h, State.sendEot]⟩
  · exact .inr ⟨h, by simp [State.btAcked, h, State.sendBlock]; rfl⟩

theorem EngineFrame.refl (s : State) : EngineFrame s s := .inl rfl

theorem EngineFrame.abort (s : State) (code : ErrCode) : EngineFrame s (s.btAbort code) := .inl rfl

theorem EngineFrame.retry (s : State) (code : ErrCode) : EngineFrame s (s.btRetry code) := by
  rcases s.btRetry_cases code with ⟨_, h⟩ | ⟨_, _, h⟩ | ⟨_, _, h⟩ <;> rw [h] <;> exact .inl rfl

theorem EngineFrame.popped {s t : State} (h : t = { s.popRx with bt := t.bt, blocksAcked := t.blocksAcked }) :
    EngineFrame s t := by rw [h]; exact .inl rfl

theorem EngineFrame.retry_popped (s : State) (code : ErrCode) : EngineFrame s (s.popRx.btRetry code) := by
  rcases s.popRx.btRetry_cases code with ⟨_, h⟩ | ⟨_, _, h⟩ | ⟨_, _, h⟩ <;> rw [h] <;> exact .inl rfl

theorem EngineFrame.acked_popped (s : State) : EngineFrame s s.popRx.btAcked := by
  rcases s.popRx.btAcked_cases with ⟨_, h⟩ | ⟨_, h⟩ <;> rw [h] <;> exact .inl rfl

/-- The end of a BTX in the words of its rule: BT_DONE, DONE and, with a code that is not 0, ERR. -/
theorem State.btEnd_eq (s : State) (code : ErrCode) :
    s.btEnd code = { s with
      errCode := code, seq := .idle, events := s.events ||| (if code = .ok then 0x81#8 else 0x83#8) } := by
  by_cases h : code = .ok <;> simp [State.btEnd, State.complete, State.setEvents, evBtDone, evDone, evErr, h, BitVec.or_assoc]

theorem EngineFrame.ended {s u : State} (h : u = { s with rx := u.rx, bt := u.bt }) (code : ErrCode) :
    EngineFrame s (u.btEnd code) := by
  rw [State.btEnd_eq, h]; exact .inr ⟨_, rfl, rfl, rfl⟩

/-- The frame of one engine step. -/
theorem State.btEngineStep_frame (s : State) : EngineFrame s s.btEngineStep := by
  unfold State.btEngineStep
  split
  · exact .refl s
  · unfold State.btAwaitStart
    split_ifs <;> first | exact .refl s | exact .abort s _ | exact .inl rfl
  · unfold State.btSending
    split_ifs <;> first | exact .refl s | exact .abort s _ | skip
    split <;> first | exact .refl s | exact .inl rfl
  · unfold State.btWaitAck
    split_ifs <;>
      first | exact .refl s | exact .abort s _ | exact .retry s _ | exact .acked_popped s | exact .retry_popped s _
            | exact .inl rfl
  · unfold State.btSendEot
    split_ifs <;> first | exact .refl s | exact .abort s _ | exact .inl rfl
  · unfold State.btWaitEotAck
    split_ifs <;>
      first | exact .refl s | exact .abort s _ | exact .retry s _ | exact .retry_popped s _ | exact .inl rfl
            | exact .ended rfl _
  · exact .refl s
  · unfold State.btAborted
    split
    · exact .ended rfl _
    · split_ifs <;> first | exact .refl s | exact .inl rfl

end Sys2Proof.Machine
end

