-- ==== Sys2Proof/Laws/Checks.lean ====
section
/-! SUPPORT. The check list of each command is the one of spec/60_exceptions.md R502, so that the step that runs it
reports `specError`. -/

namespace Sys2Proof.Machine

theorem firstError_eq_specError {checks : List (Bool × ErrCode)} {i : Instr} {s : State}
    (h : checks = specChecks i s) : firstError checks = specError i s := by rw [h, firstError_eq_find]; rfl

/-- Two check lists agree when their conditions do. -/
theorem check_congr {b b' : Bool} {c : ErrCode} {l l' : List (Bool × ErrCode)} (h : b = true ↔ b' = true)
    (h' : l = l') : (b, c) :: l = (b', c) :: l' := by rw [Bool.eq_iff_iff.2 h, h']

theorem State.regionOut_iff (s : State) : s.regionOut = true ↔ 32768 < s.cfg.srcAddr.toNat + s.cfg.srcLen.toNat := by
  rw [State.regionOut, decide_eq_true_iff]; rfl

theorem State.firChecks_lp (s : State) : s.firChecks s.cfg.firTapsLp.toNat = specChecks .firLp s :=
  check_congr (by simp) (check_congr (by simp [State.count])
    (check_congr (by rw [Bool.or_eq_true, decide_eq_true_iff, decide_eq_true_iff]; simp [Config.firMaxTaps]) rfl))

theorem State.firChecks_bp (s : State) : s.firChecks s.cfg.firTapsBp.toNat = specChecks .firBp s :=
  check_congr (by simp) (check_congr (by simp [State.count])
    (check_congr (by rw [Bool.or_eq_true, decide_eq_true_iff, decide_eq_true_iff]; simp [Config.firMaxTaps]) rfl))

theorem State.normFChecks_eq (s : State) : s.normFChecks = specChecks .normF s :=
  check_congr (by simp) (check_congr (by simp [State.count]) (check_congr (by simp) rfl))

theorem State.normQChecks_eq (s : State) : s.normQChecks = specChecks .normQ s :=
  check_congr (by simp) (check_congr (by simp [State.count]) rfl)

theorem State.winChecks_eq (s : State) {i : Instr} (h : i = .winBlackman ∨ i = .winHamming ∨ i = .winHann) :
    s.winChecks = specChecks i s := by
  rcases h with rfl | rfl | rfl <;>
    exact check_congr (by simp) (check_congr (by simp) (check_congr (by simp [State.count]) rfl))

theorem State.fftChecks_eq (s : State) : s.fftChecks = specChecks .fft s :=
  check_congr (by simp) (check_congr (by rw [decide_eq_true_iff]; exact decide_eq_true_iff.symm) rfl)

theorem State.magChecks_eq (s : State) : s.magChecks = specChecks .mag s := by
  refine check_congr (by simp) (check_congr ?_ rfl)
  simp only [State.count, Config.fftLengths, Bool.not_eq_true', Bool.eq_false_iff, ne_eq, List.contains_iff_mem,
    List.mem_cons, List.not_mem_nil, or_false]
  tauto

theorem State.regionChecks_eq (s : State) {i : Instr} (h : i = .crc32 ∨ i = .crc16 ∨ i = .sendB) :
    [(s.regionOut, ErrCode.range)] = specChecks i s := by
  have e : s.regionOut = decide (s.cfg.srcAddr.toNat + s.cfg.srcLen.toNat > 32768) := rfl
  rcases h with rfl | rfl | rfl <;> exact check_congr (by rw [e]) rfl

theorem State.sendHChecks_eq (s : State) : s.sendHChecks = specChecks .sendH s :=
  check_congr (by simp) (check_congr (by rw [decide_eq_true_iff]; exact decide_eq_true_iff.symm) rfl)

theorem State.pktChkChecks_eq (s : State) :
    [(decide (Config.scrBytes < s.cfg.srcAddr.toNat + Config.pktBytes), ErrCode.range)] = specChecks .pktChk s :=
  check_congr (by rw [decide_eq_true_iff]; exact decide_eq_true_iff.symm) rfl

theorem State.pktBldChecks_eq (s : State) : s.pktBldChecks = specChecks .pktBld s :=
  check_congr (by rw [decide_eq_true_iff]; exact decide_eq_true_iff.symm)
    (check_congr (by rw [s.regionOut_iff]; exact decide_eq_true_iff.symm) rfl)

theorem State.btxChecks_eq (s : State) : s.btxChecks = specChecks .btx s :=
  check_congr (by simp [← BitVec.toNat_inj])
    (check_congr (by rw [s.regionOut_iff]; exact decide_eq_true_iff.symm) rfl)

/-- No check list holds code 0. -/
theorem specError_ne_ok {i : Instr} {s : State} {code : ErrCode} (h : specError i s = some code) : code ≠ .ok := by
  rintro rfl
  rw [specError, Option.map_eq_some_iff] at h
  obtain ⟨⟨b, c⟩, hc, rfl⟩ := h
  have hm := List.mem_of_find?_eq_some hc
  cases i <;> simp [specChecks] at hm

end Sys2Proof.Machine
end

