-- ==== Sys2Proof/Laws/Exec.lean ====
section
/-! SUPPORT. Every command, every agent and every step answers a next state; which command a SEQ step runs. -/

namespace Sys2Proof.Machine

/-- No command stops the machine: every command word and every operand has a defined effect. -/
theorem exec_next (i : Instr) (s : State) : ∃ t, exec i s = .next t := by cases i <;> exact ⟨_, rfl⟩

theorem State.seqStep_next (s : State) : ∃ t, s.seqStep = .next t := by
  unfold State.seqStep
  split
  · exact ⟨_, rfl⟩
  · split
    · exact exec_next _ _
    · exact ⟨_, rfl⟩

theorem State.agentStep_next (s : State) (a : AgentStep) : ∃ t, s.agentStep a = .next t := by
  cases a <;> first | exact s.seqStep_next | exact ⟨_, rfl⟩

theorem step_next (s : State) : ∃ t, step s = .next t := by
  unfold step State.machineStep
  split
  · exact s.seqStep_next
  · exact State.agentStep_next _ _

/-- A SEQ step in IDLE changes nothing. -/
theorem State.seqStep_idle {s : State} (h : s.seq = .idle) : s.seqStep = .next s := by
  simp only [State.seqStep, State.fetch, h]

/-- A SEQ step of a legal command word. -/
theorem State.seqStep_run {s : State} {w : Word} {p : Progress} {i : Instr} (h : s.seq = .run w p)
    (hd : decodeBytes (wordBytes w) = .ok i) : s.seqStep = exec i s := by simp only [State.seqStep, State.fetch, h, hd]

/-- A SEQ step of an illegal command word. -/
theorem State.seqStep_illegal {s : State} {w : Word} {p : Progress} {e : DecodeError} (h : s.seq = .run w p)
    (hd : decodeBytes (wordBytes w) = .error e) : s.seqStep = .next (s.raise .illegalCmd) := by
  simp only [State.seqStep, State.fetch, h, hd]; rfl

/-! ### Runs -/

@[simp] theorem runSteps_zero (s : State) : runSteps 0 s = .next s := rfl

theorem runSteps_succ {s t : State} (n : Nat) (h : step s = .next t) : runSteps (n + 1) s = runSteps n t := by
  rw [runSteps, h]

theorem runSteps_add {s t : State} (m n : Nat) (h : runSteps m s = .next t) : runSteps (m + n) s = runSteps n t := by
  induction m generalizing s with
  | zero => rw [runSteps_zero] at h; cases h; rw [Nat.zero_add]
  | succ m ih =>
    obtain ⟨u, hu⟩ := step_next s
    rw [runSteps_succ m hu] at h
    rw [show m + 1 + n = (m + n) + 1 by omega, runSteps_succ _ hu]
    exact ih h

theorem hostRun_succ (M : Host.Core) (n : Nat) (s t : M.State) (h : M.step s = .next t) :
    M.run (n + 1) s = M.run n t := by
  rw [Host.Core.run, h]

/-- `runSteps` is the host's `Core.run` of this machine. -/
theorem runSteps_eq_run (n : Nat) (s : Sys2Proof.core.State) : runSteps n s = Host.Core.run Sys2Proof.core n s := by
  induction n generalizing s with
  | zero => rfl
  | succ n ih =>
    obtain ⟨u, hu⟩ := step_next s
    have e : Sys2Proof.core.step s = .next u := hu
    refine (runSteps_succ n hu).trans ((ih u).trans ?_)
    exact (hostRun_succ Sys2Proof.core n s u e).symm

end Sys2Proof.Machine
end

