-- ==== Sys2Proof/Laws/Fifo.lean ====
section
/-! SUPPORT. The FIFO operations: the Gray codes, the views on numbers, the slots after a push and the stored bytes as
the slots from the read pointer on. -/

namespace Sys2Proof.Machine

@[simp] theorem ungray_gray : ∀ b : BitVec 8, ungray (gray b) = b := by decide

theorem Fifo.seesFull_iff (f : Fifo) : f.seesFull = true ↔ f.fullView := by
  simp only [Fifo.seesFull, Fifo.fullView, beq_iff_eq, ← BitVec.toNat_inj, BitVec.toNat_add]; rfl

theorem Fifo.seesEmpty_iff (f : Fifo) : f.seesEmpty = true ↔ f.rp = ungray f.wps := by simp [Fifo.seesEmpty]

theorem Fifo.push_eq_pushed (f : Fifo) (b : Byte) : f.push b = f.pushed b := by
  unfold Fifo.push Fifo.pushed; congr 1
  apply BitVec.eq_of_toNat_eq; simp

theorem Fifo.pop_eq_popped (f : Fifo) : f.pop = f.popped := by
  unfold Fifo.pop Fifo.popped; congr 1
  apply BitVec.eq_of_toNat_eq; simp

theorem Fifo.safe_iff (f : Fifo) :
    f.safe = true ↔ f.fillCount ≤ f.trueCount ∧ f.trueCount ≤ f.wp - ungray f.rps := by simp [Fifo.safe]

theorem Fifo.drained_iff (f : Fifo) :
    f.drained = true ↔ f.rp = f.wp ∧ ungray f.wps = f.wp ∧ ungray f.rps = f.wp := by simp [Fifo.drained, and_assoc]

/-- A slot after a push: the byte at the write pointer, the others as before. -/
theorem Fifo.slotAt_push (f : Fifo) (b : Byte) (p : BitVec 8) :
    (f.push b).slotAt p = if p = f.wp then b else f.slotAt p := by
  simp only [Fifo.slotAt, Fifo.push, Vector.getElem_set]
  by_cases h : p = f.wp
  · simp [h]
  · rw [if_neg h, if_neg]; intro h'; exact h (BitVec.eq_of_toNat_eq h'.symm)

/-- The stored bytes, split at the youngest. -/
theorem Fifo.bytesFrom_succ (f : Fifo) (n : Nat) (p : BitVec 8) :
    f.bytesFrom (n + 1) p = f.bytesFrom n p ++ [f.slotAt (p + BitVec.ofNat 8 n)] := by
  induction n generalizing p with
  | zero => simp [Fifo.bytesFrom]
  | succ n ih =>
    rw [Fifo.bytesFrom, ih, Fifo.bytesFrom, List.cons_append]
    congr 4
    apply BitVec.eq_of_toNat_eq; simp; omega

/-- The stored bytes depend on their slots alone. -/
theorem Fifo.bytesFrom_congr {f g : Fifo} (n : Nat) (p : BitVec 8)
    (h : ∀ i < n, f.slotAt (p + BitVec.ofNat 8 i) = g.slotAt (p + BitVec.ofNat 8 i)) :
    f.bytesFrom n p = g.bytesFrom n p := by
  induction n with
  | zero => rfl
  | succ n ih => rw [bytesFrom_succ, bytesFrom_succ, ih fun i hi => h i (by omega), h n (by omega)]

end Sys2Proof.Machine
end

