-- ==== Sys2Proof/Laws/Float.lean ====
section
/-! SUPPORT. The one rounding of the binary32 operations: `f32RoundMag` gives the pattern of the finite value nearest
its argument, ties to even. -/

namespace Sys2Proof.Machine

/-- `rne num den` is the integer nearest num / den; on a tie it is even. -/
theorem rne_spec (num den : Nat) (hd : 0 < den) :
    2 * num ≤ 2 * (rne num den * den) + den ∧ 2 * (rne num den * den) ≤ 2 * num + den
      ∧ (2 * num = 2 * (rne num den * den) + den ∨ 2 * (rne num den * den) = 2 * num + den → rne num den % 2 = 0) := by
  have hq := Nat.div_add_mod num den
  have hr := Nat.mod_lt num hd
  have e1 : (num / den + 1) * den = den * (num / den) + den := by ring
  have e0 : num / den * den = den * (num / den) := Nat.mul_comm ..
  unfold rne
  simp only
  split
  · rw [e0]; omega
  · split
    · rw [e1]; omega
    · rcases Nat.mod_two_eq_zero_or_one (num / den) with h | h
      · rw [h, Nat.add_zero, e0]; omega
      · rw [h, e1]; omega

/-- No multiple of D is nearer to N than the rounded one; an equally near one makes it even. -/
theorem nearest_multiple (N D q j : Int) (hD : 0 < D) (h1 : 2 * N ≤ 2 * (q * D) + D) (h2 : 2 * (q * D) ≤ 2 * N + D)
    (h3 : 2 * N = 2 * (q * D) + D ∨ 2 * (q * D) = 2 * N + D → q % 2 = 0) :
    |q * D - N| ≤ |j * D - N| ∧ (|q * D - N| = |j * D - N| → q = j ∨ q % 2 = 0) := by
  rcases lt_trichotomy j q with h | h | h
  · have : j * D ≤ q * D - D := by nlinarith
    rw [abs_of_nonpos (by linarith : j * D - N ≤ 0)]
    rcases abs_cases (q * D - N) with ⟨e, _⟩ | ⟨e, _⟩ <;> rw [e]
    · exact ⟨by linarith, fun h => .inr (h3 (.inr (by linarith)))⟩
    · exact ⟨by linarith, fun h => absurd h (by linarith)⟩
  · subst h; exact ⟨le_refl _, fun _ => .inl rfl⟩
  · have : q * D + D ≤ j * D := by nlinarith
    rw [abs_of_nonneg (by linarith : 0 ≤ j * D - N)]
    rcases abs_cases (q * D - N) with ⟨e, _⟩ | ⟨e, _⟩ <;> rw [e]
    · exact ⟨by linarith, fun h => absurd h (by linarith)⟩
    · exact ⟨by linarith, fun h => .inr (h3 (.inl (by linarith)))⟩

/-! ### Patterns -/

theorem f32_fields (x : F32) : x.toNat = (f32Neg x).toNat * 2 ^ 31 + f32Exp x * 2 ^ 23 + f32Frac x
    ∧ f32Exp x < 256 ∧ f32Frac x < 2 ^ 23 := by
  have hx := x.isLt
  have h1 : (f32Neg x).toNat = x.toNat / 2 ^ 31 := by
    simp only [f32Neg, BitVec.getLsbD, Nat.testBit_eq_decide_div_mod_eq]
    have h : x.toNat / 2 ^ 31 = 0 ∨ x.toNat / 2 ^ 31 = 1 := by omega
    rcases h with h | h <;> rw [h] <;> rfl
  have h2 : f32Exp x = x.toNat / 2 ^ 23 % 256 := by simp [f32Exp, Nat.shiftRight_eq_div_pow]
  have h3 : f32Frac x = x.toNat % 2 ^ 23 := by simp [f32Frac]
  omega

/-- The fields of a packed pattern. -/
theorem f32Pack_fields (neg : Bool) (p : Nat) (hp : p < 2 ^ 31) :
    f32Neg (f32Pack neg p) = neg ∧ f32Exp (f32Pack neg p) = p / 2 ^ 23 ∧ f32Frac (f32Pack neg p) = p % 2 ^ 23 := by
  have ht : (f32Pack neg p).toNat = neg.toNat * 2 ^ 31 + p := by
    cases neg <;> simp [f32Pack] <;> omega
  obtain ⟨h, _, _⟩ := f32_fields (f32Pack neg p)
  rw [ht] at h
  have : f32Neg (f32Pack neg p) = neg := by
    cases neg <;> cases h' : f32Neg (f32Pack _ p) <;> rw [h'] at h <;> simp at h ⊢ <;> omega
  rw [this] at h
  refine ⟨this, ?_, ?_⟩ <;> omega

/-- The magnitude of the pattern e·2^23 + q with q at most 2^24 and, unless e = 0, at least 2^23: q·2^e units. -/
theorem f32Units_pack (neg : Bool) (e q : Nat) (hq : q ≤ 2 ^ 24) (he : e = 0 ∨ 2 ^ 23 ≤ q)
    (hp : e * 2 ^ 23 + q < 2 ^ 31) : f32Units (f32Pack neg (e * 2 ^ 23 + q)) = q * 2 ^ e := by
  obtain ⟨_, h2, h3⟩ := f32Pack_fields neg _ hp
  unfold f32Units
  rw [h2, h3]
  by_cases c1 : q < 2 ^ 23
  · obtain rfl : e = 0 := by omega
    rw [if_pos (by omega)]; omega
  · by_cases c2 : q < 2 ^ 24
    · rw [if_neg (by omega), show (e * 2 ^ 23 + q) / 2 ^ 23 - 1 = e by omega,
        show 2 ^ 23 + (e * 2 ^ 23 + q) % 2 ^ 23 = q by omega]
    · obtain rfl : q = 2 ^ 24 := by omega
      rw [if_neg (by omega), show (e * 2 ^ 23 + 2 ^ 24) / 2 ^ 23 - 1 = e + 1 by omega,
        show 2 ^ 23 + (e * 2 ^ 23 + 2 ^ 24) % 2 ^ 23 = 2 ^ 23 by omega, pow_succ]
      ring

/-- Every finite magnitude is below 2^24 multiples of a power of two. -/
theorem f32Units_form (x : F32) : ∃ m k, f32Units x = m * 2 ^ k ∧ m < 2 ^ 24 := by
  obtain ⟨_, _, h⟩ := f32_fields x
  unfold f32Units
  split
  · exact ⟨_, 0, by rw [pow_zero, Nat.mul_one], by omega⟩
  · exact ⟨_, _, rfl, by omega⟩

/-! ### Rounding -/

/-- What `f32RoundMag` computes below the overflow boundary: a significand q and an exponent e with q·2^e the multiple
of 2^e nearest num / den, where 2^e leaves 24 bits. -/
theorem f32RoundMag_form (num den : Nat) (hd : 0 < den) (h : num < (2 ^ 277 - 2 ^ 252) * den) :
    ∃ e q, f32RoundMag num den = e * 2 ^ 23 + q ∧ q = rne num (den * 2 ^ e) ∧ q ≤ 2 ^ 24
      ∧ (e = 0 ∨ (2 ^ 23 ≤ q ∧ 2 ^ 23 * 2 ^ e * den ≤ num)) ∧ e * 2 ^ 23 + q < f32Inf := by
  set e := Nat.log2 (num / den) - 23 with he
  set q := rne num (den * 2 ^ e) with hq
  have hD : 0 < den * 2 ^ e := by positivity
  obtain ⟨s1, s2, _⟩ := rne_spec num (den * 2 ^ e) hD
  rw [← hq] at s1 s2
  have hlt : num / den < 2 ^ (e + 24) := by
    by_cases h0 : num / den = 0
    · rw [h0]; positivity
    · have := (Nat.log2_lt h0 (k := Nat.log2 (num / den) + 1)).1 (by omega)
      exact lt_of_lt_of_le this (Nat.pow_le_pow_right (by norm_num) (by omega))
  have hup : num < 2 ^ 24 * (den * 2 ^ e) := by
    have := (Nat.div_lt_iff_lt_mul hd).1 hlt
    rw [pow_add] at this
    nlinarith
  have q24 : q ≤ 2 ^ 24 := by
    by_contra hc
    have : (2 ^ 24 + 1) * (den * 2 ^ e) ≤ q * (den * 2 ^ e) := Nat.mul_le_mul_right _ (by omega)
    nlinarith
  have hlo : e = 0 ∨ 2 ^ 23 * 2 ^ e * den ≤ num := by
    by_cases h0 : e = 0
    · exact .inl h0
    · right
      have hne : num / den ≠ 0 := by
        intro hz; rw [hz] at he; simp at he; exact h0 he
      have hl : 2 ^ (e + 23) ≤ num / den := by
        have := Nat.log2_self_le hne
        rwa [show Nat.log2 (num / den) = e + 23 by omega] at this
      have := (Nat.le_div_iff_mul_le hd).1 hl
      rw [pow_add] at this
      nlinarith
  have hq23 : e = 0 ∨ 2 ^ 23 ≤ q := by
    rcases hlo with h0 | h0
    · exact .inl h0
    · right
      by_contra hc
      have : q * (den * 2 ^ e) ≤ (2 ^ 23 - 1) * (den * 2 ^ e) := Nat.mul_le_mul_right _ (by omega)
      nlinarith
  have hinf : e * 2 ^ 23 + q < f32Inf := by
    have he253 : e ≤ 253 := by
      rcases hlo with h0 | h0
      · omega
      · by_contra hc
        have : 2 ^ 254 ≤ 2 ^ e := Nat.pow_le_pow_right (by norm_num) (by omega)
        have h4 : 2 ^ 277 * den ≤ 2 ^ 23 * 2 ^ e * den := Nat.mul_le_mul_right _ (by
          calc 2 ^ 277 = 2 ^ 23 * 2 ^ 254 := by rw [← pow_add]
            _ ≤ _ := Nat.mul_le_mul_left _ this)
        have h5 : (2 ^ 277 - 2 ^ 252) * den ≤ 2 ^ 277 * den := Nat.mul_le_mul_right _ (Nat.sub_le ..)
        omega
    have hI : f32Inf = 255 * 2 ^ 23 := rfl
    rw [hI]
    by_cases h253 : e = 253
    · have : q < 2 ^ 24 := by
        by_contra hc
        have hq' : q = 2 ^ 24 := by omega
        rw [hq', h253] at s2
        have k1 : (2 ^ 277 - 2 ^ 252) * den = 33554431 * (den * 2 ^ 252) := by
          rw [show (2 ^ 277 - 2 ^ 252 : Nat) = (2 ^ 25 - 1) * 2 ^ 252 by rw [Nat.sub_mul, one_mul, ← pow_add],
            Nat.mul_assoc, Nat.mul_comm den]
          norm_num
        have k2 : den * 2 ^ 253 = 2 * (den * 2 ^ 252) := by
          rw [show (2 : Nat) ^ 253 = 2 * 2 ^ 252 by norm_num, Nat.mul_left_comm]
        rw [k1] at h
        rw [k2] at s2
        generalize den * 2 ^ 252 = w at h s2
        omega
      omega
    · omega
  refine ⟨e, q, ?_, rfl, q24, ?_, hinf⟩
  · show min (e * 2 ^ 23 + q) f32Inf = _
    exact min_eq_left hinf.le
  · rcases hlo with h0 | h0
    · exact .inl h0
    · rcases hq23 with h1 | h1
      · exact .inl h1
      · exact .inr ⟨h1, h0⟩

/-- No finite magnitude is nearer to num / den than the rounded one, and an equally near other one makes the pattern
even: on the scale of units of 2^-149, times den. -/
theorem f32RoundMag_nearest (neg : Bool) (num den : Nat) (hd : 0 < den) (h : num < (2 ^ 277 - 2 ^ 252) * den) :
    let x := f32Pack neg (f32RoundMag num den)
    f32IsFinite x = true ∧ f32Neg x = neg
      ∧ ∀ y : F32, |(f32Units x * den : Int) - num| ≤ |(f32Units y * den : Int) - num|
          ∧ (|(f32Units x * den : Int) - num| = |(f32Units y * den : Int) - num| →
              f32Units x = f32Units y ∨ x.getLsbD 0 = false) := by
  intro x
  obtain ⟨e, q, hp, hq, q24, hlo, hinf⟩ := f32RoundMag_form num den hd h
  have hI : f32Inf = 255 * 2 ^ 23 := rfl
  have hx : x = f32Pack neg (e * 2 ^ 23 + q) := by show f32Pack neg (f32RoundMag num den) = _; rw [hp]
  have hlt : e * 2 ^ 23 + q < 2 ^ 31 := by omega
  obtain ⟨f1, f2, f3⟩ := f32Pack_fields neg _ hlt
  have hu : f32Units x = q * 2 ^ e := by
    rw [hx]; exact f32Units_pack neg e q q24 (by tauto) hlt
  refine ⟨?_, by rw [hx]; exact f1, ?_⟩
  · rw [hx, f32IsFinite, f2, bne_iff_ne]; omega
  intro y
  have hD : 0 < den * 2 ^ e := by positivity
  obtain ⟨s1, s2, s3⟩ := rne_spec num (den * 2 ^ e) hD
  rw [← hq] at s1 s2 s3
  have near := fun j : Int => nearest_multiple num (den * 2 ^ e : Nat) q j (by exact_mod_cast hD)
    (by exact_mod_cast s1) (by exact_mod_cast s2) (fun hh => by
      have := s3 (by rcases hh with hh | hh
                     · exact .inl (by exact_mod_cast hh)
                     · exact .inr (by exact_mod_cast hh))
      omega)
  have eu : (f32Units x * den : Int) = q * (den * 2 ^ e : Nat) := by rw [hu]; push_cast; ring
  have even : q % 2 = 0 → x.getLsbD 0 = false := by
    intro h2
    rw [hx]
    have : (f32Pack neg (e * 2 ^ 23 + q)).toNat % 2 = 0 := by
      cases neg <;> simp [f32Pack] <;> omega
    rw [BitVec.getLsbD, Nat.testBit_zero, this]; rfl
  obtain ⟨m, k, hy, hm⟩ := f32Units_form y
  by_cases c : e ≤ k
  · have ey : (f32Units y * den : Int) = (m * 2 ^ (k - e) : Nat) * (den * 2 ^ e : Nat) := by
      rw [hy]; push_cast
      rw [show (2 : Int) ^ k = 2 ^ (k - e) * 2 ^ e by rw [← pow_add]; congr 1; omega]; ring
    obtain ⟨n1, n2⟩ := near (m * 2 ^ (k - e) : Nat)
    rw [eu, ey]
    refine ⟨n1, fun hh => ?_⟩
    rcases n2 hh with h4 | h4
    · left
      rw [hu, hy, show q = m * 2 ^ (k - e) by exact_mod_cast h4, mul_assoc, ← pow_add]
      congr 2; omega
    · exact .inr (even (by omega))
  · have he : e ≠ 0 := by omega
    obtain ⟨q23, hX⟩ : 2 ^ 23 ≤ q ∧ 2 ^ 23 * 2 ^ e * den ≤ num := by tauto
    have hw : f32Units y < 2 ^ 23 * 2 ^ e := by
      rw [hy]
      calc m * 2 ^ k < 2 ^ 24 * 2 ^ k := Nat.mul_lt_mul_of_pos_right hm (by positivity)
        _ = 2 ^ 23 * 2 ^ (k + 1) := by rw [pow_succ 2 k, show (2 : Nat) ^ 24 = 2 ^ 23 * 2 by norm_num]; ring
        _ ≤ 2 ^ 23 * 2 ^ e := Nat.mul_le_mul_left _ (Nat.pow_le_pow_right (by norm_num) (by omega))
    have hw' : (f32Units y * den : Int) < 2 ^ 23 * (den * 2 ^ e : Nat) := by
      have : f32Units y * den < 2 ^ 23 * 2 ^ e * den := Nat.mul_lt_mul_of_pos_right hw hd
      have h5 : 2 ^ 23 * 2 ^ e * den = 2 ^ 23 * (den * 2 ^ e) := by ring
      rw [h5] at this
      exact_mod_cast this
    have hX' : (2 ^ 23 * (den * 2 ^ e : Nat) : Int) ≤ num := by
      have h5 : 2 ^ 23 * 2 ^ e * den = 2 ^ 23 * (den * 2 ^ e) := by ring
      rw [h5] at hX
      exact_mod_cast hX
    obtain ⟨n1, _⟩ := near (2 ^ 23)
    have strict : |(f32Units x * den : Int) - num| < |(f32Units y * den : Int) - num| := by
      rw [eu]
      refine lt_of_le_of_lt n1 ?_
      rw [abs_of_nonpos (by linarith), abs_of_nonpos (by linarith)]
      linarith
    exact ⟨strict.le, fun hh => absurd hh (ne_of_lt strict)⟩

/-- The rounded pattern is the nearest binary32 of ±num/den units of 2^-149, ties to even. -/
theorem f32Pack_isNearest (neg : Bool) (num den : Nat) (hd : 0 < den) (h : num < (2 ^ 277 - 2 ^ 252) * den) :
    IsNearestF32 (f32Pack neg (f32RoundMag num den)) ((if neg then -1 else 1) * ((num : ℝ) / den) / 2 ^ 149) := by
  obtain ⟨fin, hneg, near⟩ := f32RoundMag_nearest neg num den hd h
  set x := f32Pack neg (f32RoundMag num den)
  have hd' : (0 : ℝ) < den := by exact_mod_cast hd
  set X : ℝ := (num : ℝ) / den with hX
  have hX0 : 0 ≤ X := by positivity
  refine ⟨fin, fun y _ => ?_⟩
  obtain ⟨n1, n2⟩ := near y
  have conv (u : Nat) : |(u : ℝ) - X| * den = ((|(u * den : Int) - num| : Int) : ℝ) := by
    rw [Int.cast_abs]
    conv_lhs => rw [← abs_of_pos hd', ← abs_mul]
    congr 1
    rw [sub_mul, hX, div_mul_cancel₀ _ hd'.ne']; push_cast; ring
  have m1 : |(f32Units x : ℝ) - X| ≤ |(f32Units y : ℝ) - X| := by
    refine le_of_mul_le_mul_right ?_ hd'
    rw [conv, conv]; exact_mod_cast n1
  have m2 : |(f32Units x : ℝ) - X| = |(f32Units y : ℝ) - X| → f32Units x = f32Units y ∨ x.getLsbD 0 = false := by
    intro hh
    apply n2
    have := congrArg (· * (den : ℝ)) hh
    simp only [conv] at this
    exact_mod_cast this
  set σ : ℝ := if neg then -1 else 1 with hσ
  have hσ2 : |σ| = 1 := by rw [hσ]; split <;> simp
  have vx : (f32Int x : ℝ) = σ * f32Units x := by
    rw [f32Int, hneg, hσ]; cases neg <;> simp
  have pw : (0 : ℝ) < 2 ^ 149 := by positivity
  have scale (v : ℝ) : |v / 2 ^ 149 - σ * X / 2 ^ 149| = |v - σ * X| / 2 ^ 149 := by
    rw [← sub_div, abs_div, abs_of_pos pw]
  rw [scale, scale]
  have ex : |(f32Int x : ℝ) - σ * X| = |(f32Units x : ℝ) - X| := by
    rw [vx, ← mul_sub, abs_mul, hσ2, one_mul]
  have vy : (f32Int y : ℝ) = σ * f32Units y ∨ (f32Int y : ℝ) = -(σ * f32Units y) := by
    rw [f32Int, hσ]; cases neg <;> cases f32Neg y <;> simp
  have y0 : (0 : ℝ) ≤ f32Units y := by positivity
  rcases vy with vy | vy
  · have ey : |(f32Int y : ℝ) - σ * X| = |(f32Units y : ℝ) - X| := by
      rw [vy, ← mul_sub, abs_mul, hσ2, one_mul]
    rw [ex, ey]
    refine ⟨by gcongr, fun hh => ?_⟩
    rcases m2 ((div_left_inj' pw.ne').1 hh) with h5 | h5
    · left
      have : (f32Int x : ℝ) = f32Int y := by rw [vx, vy, h5]
      exact_mod_cast this
    · exact .inr h5
  · have ey : |(f32Int y : ℝ) - σ * X| = f32Units y + X := by
      rw [vy, show -(σ * (f32Units y : ℝ)) - σ * X = -(σ * (f32Units y + X)) by ring, abs_neg, abs_mul, hσ2, one_mul,
        abs_of_nonneg (by linarith)]
    have le : |(f32Units y : ℝ) - X| ≤ f32Units y + X := by
      rw [abs_le]; constructor <;> linarith
    rw [ex, ey]
    refine ⟨by gcongr; exact m1.trans le, fun hh => ?_⟩
    have hh := (div_left_inj' pw.ne').1 hh
    have e5 : |(f32Units x : ℝ) - X| = |(f32Units y : ℝ) - X| := le_antisymm m1 (hh ▸ le)
    rcases m2 e5 with h5 | h5
    · left
      rw [h5] at hh
      have : (f32Units y : ℝ) = 0 ∨ X = 0 := by
        rcases abs_cases ((f32Units y : ℝ) - X) with ⟨e, _⟩ | ⟨e, _⟩
        · right; linarith
        · left; linarith
      have hy0 : (f32Units y : ℝ) = 0 := by
        rcases this with h6 | h6
        · exact h6
        · have := n1
          have hn : num = 0 := by
            have := (div_eq_zero_iff.1 (hX ▸ h6)).resolve_right hd'.ne'
            exact_mod_cast this
          by_contra hne
          obtain ⟨a1, _⟩ := near 0
          rw [hn, h5] at a1
          have z : f32Units 0 = 0 := by decide
          rw [z] at a1
          have : ((f32Units y * den : Int)) ≤ 0 := by simpa using (le_abs_self _).trans a1
          have : (f32Units y : Int) * den ≤ 0 := by linarith
          have hpos : 0 < f32Units y := by
            rcases Nat.eq_zero_or_pos (f32Units y) with h0 | h0
            · exact absurd (by exact_mod_cast h0) hne
            · exact h0
          have : 0 < (f32Units y : Int) * den := by positivity
          omega
      have : (f32Int x : ℝ) = f32Int y := by rw [vx, vy, h5, hy0]; simp
      exact_mod_cast this
    · exact .inr h5

/-- From the overflow boundary on, the rounded pattern is that of infinity. -/
theorem f32RoundMag_overflow (num den : Nat) (hd : 0 < den) (h : (2 ^ 277 - 2 ^ 252) * den ≤ num) :
    f32RoundMag num den = f32Inf := by
  set e := Nat.log2 (num / den) - 23 with he
  set q := rne num (den * 2 ^ e) with hq
  have hD : 0 < den * 2 ^ e := by positivity
  obtain ⟨s1, _, s3⟩ := rne_spec num (den * 2 ^ e) hD
  rw [← hq] at s1 s3
  have hb : (2 ^ 277 - 2 ^ 252 : Nat) = (2 ^ 25 - 1) * 2 ^ 252 := by rw [Nat.sub_mul, one_mul, ← pow_add]
  rw [hb] at h
  have hX : (2 ^ 25 - 1) * 2 ^ 252 ≤ num / den := (Nat.le_div_iff_mul_le hd).2 h
  have hne : num / den ≠ 0 := by
    have : 0 < (2 ^ 25 - 1) * 2 ^ 252 := by positivity
    omega
  have hlog : 276 ≤ Nat.log2 (num / den) := by
    refine (Nat.le_log2 hne).2 (le_trans ?_ hX)
    rw [show (2 : Nat) ^ 276 = 2 ^ 24 * 2 ^ 252 by rw [← pow_add]]
    exact Nat.mul_le_mul_right _ (by norm_num)
  have hlow : 2 ^ 23 * (den * 2 ^ e) ≤ num := by
    have h1 : 2 ^ (e + 23) ≤ num / den := by
      have := Nat.log2_self_le hne
      rwa [show Nat.log2 (num / den) = e + 23 by omega] at this
    have := (Nat.le_div_iff_mul_le hd).1 h1
    rw [pow_add] at this
    nlinarith
  have hsum : f32Inf ≤ e * 2 ^ 23 + q := by
    show 255 * 2 ^ 23 ≤ _
    by_cases h253 : e = 253
    · have hD2 : den * 2 ^ e = 2 * (den * 2 ^ 252) := by
        rw [h253, show (2 : Nat) ^ 253 = 2 * 2 ^ 252 by norm_num, Nat.mul_left_comm]
      have hn : 33554431 * (den * 2 ^ 252) ≤ num := by
        have : (2 ^ 25 - 1) * 2 ^ 252 * den = 33554431 * (den * 2 ^ 252) := by
          rw [Nat.mul_assoc, Nat.mul_comm den]; norm_num
        rwa [this] at h
      rw [hD2] at s1 s3
      obtain ⟨w, hw⟩ : ∃ w, den * 2 ^ 252 = w := ⟨_, rfl⟩
      have hw0 : 0 < w := by rw [← hw]; positivity
      rw [hw] at s1 s3 hn
      clear hb hX h hne hlog hlow hD2 hw
      have h1 : 2 ^ 24 - 1 ≤ q := by
        by_contra hc
        have : q * (2 * w) ≤ (2 ^ 24 - 2) * (2 * w) := Nat.mul_le_mul_right _ (by omega)
        omega
      have h2 : q ≠ 2 ^ 24 - 1 := by
        intro hc
        rw [hc] at s1 s3
        have := s3 (.inl (by omega))
        omega
      omega
    · clear hb hX h
      have h1 : 2 ^ 23 ≤ q := by
        by_contra hc
        have : q * (den * 2 ^ e) ≤ (2 ^ 23 - 1) * (den * 2 ^ e) := Nat.mul_le_mul_right _ (by omega)
        omega
      omega
  exact min_eq_right hsum

/-- The fields of a pattern with its sign flipped. -/
theorem f32Flip_fields (x : F32) : f32Neg (f32Flip x) = !f32Neg x ∧ f32Exp (f32Flip x) = f32Exp x
    ∧ f32Frac (f32Flip x) = f32Frac x := by
  refine ⟨?_, ?_, ?_⟩
  · simp only [f32Neg, f32Flip, BitVec.getLsbD_xor]
    rw [show (0x80000000#32).getLsbD 31 = true by decide]; simp
  · simp only [f32Exp, f32Flip, BitVec.extractLsb'_xor]
    rw [show BitVec.extractLsb' 23 8 0x80000000#32 = 0 by decide]; simp
  · simp only [f32Frac, f32Flip, BitVec.extractLsb'_xor]
    rw [show BitVec.extractLsb' 0 23 0x80000000#32 = 0 by decide]; simp

/-- Flipping the sign negates the value and keeps the class. -/
theorem f32Flip_value (x : F32) : f32Int (f32Flip x) = -f32Int x ∧ f32IsFinite (f32Flip x) = f32IsFinite x
    ∧ f32IsInf (f32Flip x) = f32IsInf x ∧ f32IsNan (f32Flip x) = f32IsNan x := by
  obtain ⟨h1, h2, h3⟩ := f32Flip_fields x
  simp only [f32Int, f32Units, f32IsFinite, f32IsInf, f32IsNan, h1, h2, h3]
  cases f32Neg x <;> simp

/-- A magnitude that binary32 holds is not changed by the rounding. -/
theorem f32RoundMag_exact (neg : Bool) (num den q e : Nat) (hd : 0 < den) (hq : q < 2 ^ 24) (he : e ≤ 253)
    (h : num = q * 2 ^ e * den) :
    f32IsFinite (f32Pack neg (f32RoundMag num den)) = true ∧ f32Neg (f32Pack neg (f32RoundMag num den)) = neg
      ∧ f32Units (f32Pack neg (f32RoundMag num den)) = q * 2 ^ e := by
  have hlim : num < (2 ^ 277 - 2 ^ 252) * den := by
    have h1 : q * 2 ^ e ≤ (2 ^ 24 - 1) * 2 ^ 253 :=
      Nat.mul_le_mul (by omega) (Nat.pow_le_pow_right (by norm_num) he)
    have h2 : (2 ^ 277 - 2 ^ 252 : Nat) = (2 ^ 24 - 1) * 2 ^ 253 + 2 ^ 252 := by
      rw [Nat.sub_mul, one_mul, ← pow_add, show (2 : Nat) ^ 253 = 2 ^ 252 + 2 ^ 252 by rw [pow_succ]; omega]
      have : (2 : Nat) ^ 252 + 2 ^ 252 ≤ 2 ^ (24 + 253) := by
        rw [← two_mul, ← pow_succ']; exact Nat.pow_le_pow_right (by norm_num) (by norm_num)
      omega
    rw [h, h2]
    refine Nat.mul_lt_mul_of_pos_right (lt_of_le_of_lt h1 (Nat.lt_add_of_pos_right (by positivity))) hd
  obtain ⟨f1, f2, f3⟩ := f32RoundMag_nearest neg num den hd hlim
  refine ⟨f1, f2, ?_⟩
  -- the binary32 whose magnitude is q·2^e, normalized
  obtain ⟨q', e', h1, h2, h3, h4⟩ : ∃ q' e', q * 2 ^ e = q' * 2 ^ e' ∧ q' ≤ 2 ^ 24 ∧ (e' = 0 ∨ 2 ^ 23 ≤ q') ∧ e' ≤ 253 := by
    induction e generalizing q with
    | zero => exact ⟨q, 0, rfl, by omega, .inl rfl, by omega⟩
    | succ e ih =>
      by_cases hc : 2 ^ 23 ≤ q
      · exact ⟨q, e + 1, rfl, by omega, .inr hc, he⟩
      · have e2 : q * 2 ^ (e + 1) = 2 * q * 2 ^ e := by rw [pow_succ]; ring
        rw [e2] at h ⊢
        exact ih (2 * q) (by omega) (by omega) h
  have hp : e' * 2 ^ 23 + q' < 2 ^ 31 := by omega
  have hy : f32Units (f32Pack neg (e' * 2 ^ 23 + q')) = q * 2 ^ e := by rw [h1]; exact f32Units_pack neg e' q' h2 h3 hp
  have n1 := (f3 (f32Pack neg (e' * 2 ^ 23 + q'))).1
  rw [hy, h] at n1
  have z : ((q * 2 ^ e : Nat) * (den : Int)) - ((q * 2 ^ e * den : Nat) : Int) = 0 := by push_cast; ring
  rw [z, abs_zero] at n1
  have n2 := abs_eq_zero.1 (le_antisymm n1 (abs_nonneg _))
  have n3 : f32Units (f32Pack neg (f32RoundMag num den)) * den = q * 2 ^ e * den := by
    rw [h]; have := sub_eq_zero.1 n2; exact_mod_cast this
  exact Nat.eq_of_mul_eq_mul_right hd n3

/-- `f32(n)` of an integer below 2^24 is exact. -/
theorem f32OfNat_exact (n : Nat) (h : n < 2 ^ 24) :
    f32IsFinite (f32OfNat n) = true ∧ f32Neg (f32OfNat n) = false ∧ f32Units (f32OfNat n) = n * 2 ^ 149 := by
  have hn : (decide ((n : Int) < 0)) = false := by simp
  have e : f32OfNat n = f32Pack false (f32RoundMag (n * 2 ^ 149) 1) := by
    unfold f32OfNat f32OfRat
    rw [hn, Int.natAbs_natCast]
  rw [e]
  exact f32RoundMag_exact false _ 1 n 149 (by norm_num) h (by norm_num) (by rw [Nat.mul_one])

end Sys2Proof.Machine
end

