-- ==== Sys2Proof/Laws/HostPort.lean ====
section
/-! SUPPORT. What a HOST access does, by the region of its address, and which agents' steps can touch what. -/

namespace Sys2Proof.Machine

/-! ### The cases of an access -/

theorem arrayReg_none {base n a : Nat} {f : Fin n → Reg} (h : base + 4 * n ≤ a) : arrayReg base n a f = none := by
  unfold arrayReg
  split
  · rw [dif_neg (by omega)]
  · rfl

/-- There is no register from offset 0x600 on, so a fact about every register address is a finite check. -/
theorem regAt_none {a : Nat} (h : 0x600 ≤ a) : regAt a = none := by
  unfold regAt
  rw [arrayReg_none (by omega), arrayReg_none (by omega), arrayReg_none (by omega), arrayReg_none (by omega)]
  have key : ∀ l : List (Nat × Reg), (∀ x ∈ l, x.1 < 0x600) → l.lookup a = none := by
    intro l
    induction l with
    | nil => intro _; rfl
    | cons x l ih =>
      intro hx
      have h1 := hx x (by simp)
      rw [List.lookup_cons, beq_false_of_ne (by omega)]
      exact ih fun y hy => hx y (by simp [hy])
  rw [key regMap (by decide)]; rfl

/-- A word-sized read of a register. -/
theorem State.hostStep_read_reg {s : State} {a : BitVec 16} {r : Reg} (hl : a.toNat < 0x8000) (h4 : a.toNat % 4 = 0)
    (hr : regAt a.toNat = some r) :
    s.hostStep (.read a .word) = (s.afterRead r).respond (.data (s.regValue r)) := by
  simp [State.hostStep, State.memRead, legalAccess, hl, h4, hr]

/-- A word-sized write of a register. -/
theorem State.hostStep_write_reg {s : State} {a : BitVec 16} {r : Reg} (v : Word) (hl : a.toNat < 0x8000)
    (h4 : a.toNat % 4 = 0) (hr : regAt a.toNat = some r) :
    s.hostStep (.write a .word v) = (s.regWrite v r).respond .written := by
  simp [State.hostStep, State.memWrite, legalAccess, hl, h4, hr]

/-- A word-sized read of a reserved address. -/
theorem State.hostStep_read_reserved {s : State} {a : BitVec 16} (hl : a.toNat < 0x8000) (h4 : a.toNat % 4 = 0)
    (hr : regAt a.toNat = none) : s.hostStep (.read a .word) = s.respond (.data 0) := by
  simp [State.hostStep, State.memRead, legalAccess, hl, h4, hr]

/-- A word-sized write of a reserved address. -/
theorem State.hostStep_write_reserved {s : State} {a : BitVec 16} (v : Word) (hl : a.toNat < 0x8000)
    (h4 : a.toNat % 4 = 0) (hr : regAt a.toNat = none) :
    s.hostStep (.write a .word v) = s.respond .written := by
  simp [State.hostStep, State.memWrite, legalAccess, hl, h4, hr]

theorem legalAccess_scr {a : BitVec 16} {n : AccSize} (hl : 0x8000 ≤ a.toNat) :
    legalAccess a n = decide (a.toNat % n.bytes = 0) := by
  have hm : (0x8000 : Nat) % n.bytes = 0 := by cases n <;> rfl
  have : (a.toNat - 0x8000) % n.bytes = a.toNat % n.bytes := by
    cases n <;> simp only [AccSize.bytes] <;> omega
  simp [legalAccess, Nat.not_lt.2 hl, this, ← Bool.beq_eq_decide_eq]

/-- An aligned write of SCR in IDLE. -/
theorem State.hostStep_write_scr {s : State} {a : BitVec 16} {n : AccSize} (v : Word) (hl : 0x8000 ≤ a.toNat)
    (ha : a.toNat % n.bytes = 0) (hi : s.seq = .idle) :
    s.hostStep (.write a n v)
      = { s with scr := s.scr.write (a.toNat - 0x8000) (lowBytes n v), hostResp := .written } := by
  simp [State.hostStep, State.memWrite, legalAccess_scr hl, ha, Nat.not_lt.2 hl, State.busy, hi, State.respond]

/-- An aligned write of SCR while a command runs: dropped. -/
theorem State.hostStep_write_scr_busy {s : State} {a : BitVec 16} {n : AccSize} (v : Word) (hl : 0x8000 ≤ a.toNat)
    (ha : a.toNat % n.bytes = 0) (hi : s.seq ≠ .idle) :
    s.hostStep (.write a n v) = (s.setEvents evWrDrop).respond .written := by
  simp [State.hostStep, State.memWrite, legalAccess_scr hl, ha, Nat.not_lt.2 hl, State.busy, hi]

/-- An aligned read of SCR in IDLE. -/
theorem State.hostStep_read_scr {s : State} {a : BitVec 16} {n : AccSize} (hl : 0x8000 ≤ a.toNat)
    (ha : a.toNat % n.bytes = 0) (hi : s.seq = .idle) :
    s.hostStep (.read a n) = s.respond (.data (s.scr.load (a.toNat - 0x8000) n)) := by
  simp [State.hostStep, State.memRead, legalAccess_scr hl, ha, Nat.not_lt.2 hl, State.busy, hi]

/-- A forbidden access: the bus error, with no change of DSPB's state. -/
theorem State.hostStep_forbidden {s : State} {a : BitVec 16} {n : AccSize} (h : legalAccess a n = false) (v : Word) :
    s.hostStep (.read a n) = s.respond (.fault .busError)
      ∧ s.hostStep (.write a n v) = s.respond (.fault .busError) := by
  simp [State.hostStep, State.memRead, State.memWrite, h]

/-- The busy guard. -/
theorem State.regWrite_guarded {s : State} {r : Reg} (v : Word) (hb : s.seq ≠ .idle) (hr : r.busyGuarded = true) :
    s.regWrite v r = s.setEvents evWrDrop := by simp [State.regWrite, State.busy, hb, hr]

/-- A register write that the guard lets through. -/
theorem State.regWrite_open {s : State} {r : Reg} (v : Word) (h : s.seq = .idle ∨ r.busyGuarded = false) :
    s.regWrite v r = s.regStore v r := by
  rcases h with h | h <;> simp [State.regWrite, State.busy, h]

/-! ### The codes software reads are the spec's numbers -/

theorem specErrNumber_eq (c : ErrCode) : specErrNumber c = c.code.toNat := by cases c <;> rfl
theorem specKindNumber_eq (k : Kind) : specKindNumber k = k.code.toNat := by cases k <;> rfl
theorem specWinNumber_eq (w : Win) : specWinNumber w = w.code.toNat := by cases w <;> rfl
theorem specBtNumber_eq (b : BtState) : specBtNumber b = b.code.toNat := by cases b <;> rfl

/-- A word-sized read of a register other than RXDATA answers its value and changes nothing. -/
theorem State.hostStep_read_plain {s : State} {a : BitVec 16} {r : Reg} (hl : a.toNat < 0x8000) (h4 : a.toNat % 4 = 0)
    (hr : regAt a.toNat = some r) (hx : r ≠ .rxData) :
    s.hostStep (.read a .word) = { s with hostResp := .data (s.regValue r) } := by
  rw [State.hostStep_read_reg hl h4 hr]
  cases r <;> first | rfl | exact absurd rfl hx

/-- An aligned read of SCR while a command runs draws the next free value, cut to the access size (log 8). -/
theorem State.hostStep_read_scr_busy {s : State} {a : BitVec 16} {n : AccSize} (hl : 0x8000 ≤ a.toNat)
    (ha : a.toNat % n.bytes = 0) (hi : s.seq ≠ .idle) :
    s.hostStep (.read a n)
      = { s with draws := s.draws + 1, hostResp := .data (drawn n (Config.busyRead s.draws)) } := by
  simp [State.hostStep, State.memRead, legalAccess_scr hl, ha, Nat.not_lt.2 hl, State.busy, hi, State.respond]

/-- A host read changes no more than its answer, the draw counter and, at RXDATA, the RX FIFO's read pointer. -/
theorem State.memRead_frame (s : State) (a : BitVec 16) (n : AccSize) :
    s.memRead a n = { s with rx := (s.memRead a n).rx, hostResp := (s.memRead a n).hostResp
                             draws := (s.memRead a n).draws }
      ∧ ((s.memRead a n).rx = s.rx ∨ ((s.memRead a n).rx = s.rx.pop ∧ s.runsBtx = false ∧ s.rx.seesEmpty = false)) := by
  unfold State.memRead
  split
  · exact ⟨rfl, .inl rfl⟩
  · split
    · split
      · exact ⟨rfl, .inl rfl⟩
      · rename_i r _
        cases r <;> first | exact ⟨rfl, .inl rfl⟩ | skip
        show (if (s.runsBtx || s.rx.seesEmpty) = true then s else s.popRx).respond _ = _ ∧ _
        simp only [State.afterRead]
        split <;> rename_i h
        · exact ⟨rfl, .inl rfl⟩
        · simp only [Bool.or_eq_true, not_or, Bool.not_eq_true] at h
          exact ⟨rfl, .inr ⟨rfl, h.1, h.2⟩⟩
    · split <;> exact ⟨rfl, .inl rfl⟩

end Sys2Proof.Machine
end

