-- ==== Sys2Proof/Laws/PerInstr.lean ====
section
/-! SUPPORT. Statements made per command: one lemma per constructor of `Instr`. -/

namespace Sys2Proof.Laws

/-- The word of a command keeps the format of spec/30_encoding.md R160: RSV is 0, OP is at most 0x0B, SEL is at most 2,
the command is well-formed, and its word decodes to it. -/
def EncodedInFormat.Statement (i : Instr) : Prop :=
  i.wf = true ∧ rsvField (encode i) = 0 ∧ (opField (encode i)).toNat ≤ 0x0B ∧ (selField (encode i)).toNat ≤ 2
    ∧ decodeWord (encode i) = .ok i

theorem EncodedInFormat.nop : EncodedInFormat.Statement .nop := by unfold EncodedInFormat.Statement; decide
theorem EncodedInFormat.synthF32 : EncodedInFormat.Statement .synthF32 := by unfold EncodedInFormat.Statement; decide
theorem EncodedInFormat.synthU16 : EncodedInFormat.Statement .synthU16 := by unfold EncodedInFormat.Statement; decide
theorem EncodedInFormat.synthFix : EncodedInFormat.Statement .synthFix := by unfold EncodedInFormat.Statement; decide
theorem EncodedInFormat.firNone : EncodedInFormat.Statement .firNone := by unfold EncodedInFormat.Statement; decide
theorem EncodedInFormat.firLp : EncodedInFormat.Statement .firLp := by unfold EncodedInFormat.Statement; decide
theorem EncodedInFormat.firBp : EncodedInFormat.Statement .firBp := by unfold EncodedInFormat.Statement; decide
theorem EncodedInFormat.normF : EncodedInFormat.Statement .normF := by unfold EncodedInFormat.Statement; decide
theorem EncodedInFormat.normQ : EncodedInFormat.Statement .normQ := by unfold EncodedInFormat.Statement; decide
theorem EncodedInFormat.winBlackman : EncodedInFormat.Statement .winBlackman := by
  unfold EncodedInFormat.Statement; decide
theorem EncodedInFormat.winHamming : EncodedInFormat.Statement .winHamming := by
  unfold EncodedInFormat.Statement; decide
theorem EncodedInFormat.winHann : EncodedInFormat.Statement .winHann := by unfold EncodedInFormat.Statement; decide
theorem EncodedInFormat.fft : EncodedInFormat.Statement .fft := by unfold EncodedInFormat.Statement; decide
theorem EncodedInFormat.mag : EncodedInFormat.Statement .mag := by unfold EncodedInFormat.Statement; decide
theorem EncodedInFormat.crc32 : EncodedInFormat.Statement .crc32 := by unfold EncodedInFormat.Statement; decide
theorem EncodedInFormat.crc16 : EncodedInFormat.Statement .crc16 := by unfold EncodedInFormat.Statement; decide
theorem EncodedInFormat.sendB : EncodedInFormat.Statement .sendB := by unfold EncodedInFormat.Statement; decide
theorem EncodedInFormat.sendH : EncodedInFormat.Statement .sendH := by unfold EncodedInFormat.Statement; decide
theorem EncodedInFormat.pktChk : EncodedInFormat.Statement .pktChk := by unfold EncodedInFormat.Statement; decide
theorem EncodedInFormat.pktBld : EncodedInFormat.Statement .pktBld := by unfold EncodedInFormat.Statement; decide
theorem EncodedInFormat.btx : EncodedInFormat.Statement .btx := by unfold EncodedInFormat.Statement; decide

end Sys2Proof.Laws
end

