-- ==== Sys2Proof/Laws/Spectrum.lean ====
section
/-! SUPPORT. The peak property of spec/43_fft_magnitude.md R344, for tones on bins of a 16-point transform, through each
of the three SYNTH commands. It is a property the rule asks a model to have, not a rule the machine enforces. -/

namespace Sys2Proof.Machine

set_option Elab.async false

/-- The machine about to synthesize 16 samples of one tone on bin k at FS = 1600, with P1's amplitude and offset
(spec/95_test_vectors.md P1, where k = 2). -/
def binTone (k : Nat) : State :=
  { State.reset with
    cfg := { Cfg.reset with
      fs := 1600, len := 16, dcOffset := 1650, numTones := 1
      freq := Cfg.reset.freq.set 0 (BitVec.ofNat 32 (100 * k)), amp := Cfg.reset.amp.set 0 1000 } }

/-- R344 for SYNTH.FIX and the integer stages: a tone on each of the bins 1 to 7. -/
theorem synthFix_peaks_q15 :
    ∀ k ∈ [1, 2, 3, 4, 5, 6, 7], endsWithPeak (runCommands (.synthFix :: spectrumQ15) (binTone k)) k = true := by
  decide +kernel

/-- R344 for SYNTH.FIX and the binary32 stages. -/
theorem synthFix_peaks_f32 :
    ∀ k ∈ [1, 2, 3, 4, 5, 6, 7], endsWithPeak (runCommands (.synthFix :: spectrumF32) (binTone k)) k = true := by
  decide +kernel

/-! ### The binary32 synthesizer

fsin is open but for two properties (spec/41_synthesis.md R235), so what follows is under a named assumption on it. -/

/-- The 16 angles of the tone on bin 2 (R234), as binary32 patterns. -/
def toneAngles : List F32 :=
  [0x00000000, 0x3F490FDB, 0x3FC90FDB, 0x4016CBE4, 0x40490FDB, 0x407B53D2, 0x4096CBE4, 0x40AFEDE0,
   0x40C90FDB, 0x40E231D7, 0x40FB53D2, 0x410A3AE6, 0x4116CBE4, 0x41235CE1, 0x412FEDE0, 0x413C7EDE]

/-- The binary32 value nearest to the sine of each of these angles. -/
def toneSines : List F32 :=
  [0x00000000, 0x3F3504F3, 0x3F800000, 0x3F3504F3, 0xB3BBBD2E, 0xBF3504F5, 0xBF800000, 0xBF3504EF,
   0x343BBD2E, 0x3F3504F9, 0x3F800000, 0x3F3504F7, 0xB2CCDE2E, 0xBF3504EC, 0xBF800000, 0xBF3504E8]

/-- The assumption: fsin rounds the sine correctly at these angles. -/
def FsinRoundsTone : Prop := ∀ n < 16, fsin (toneAngles.getD n 0) = toneSines.getD n 0

/-- Sample n of the tone under the assumption: clamped, before the quantizer (R234, R237). -/
def toneSample (n : Nat) : F32 :=
  (binTone 2).clampF (f32Add (f32OfNat (binTone 2).cfg.dcOffset.toNat)
    (f32Mul (f32OfNat ((binTone 2).cfg.ampAt 0)) (toneSines.getD n 0)))

/-- The angle R234 gives for sample n is the one listed. -/
theorem toneAngles_eq : ∀ n < 16,
    f32Mul (f32Mul f32TwoPi (f32OfNat ((binTone 2).cfg.freqAt 0))) ((binTone 2).synthTime n) = toneAngles.getD n 0 := by
  decide +kernel

/-- With one tone, v_n is the offset and that tone (R234). -/
theorem State.toneSumF_one {s : State} (h : s.synthTones = 1) (n : Nat) :
    s.toneSumF n = f32Add (f32OfNat s.cfg.dcOffset.toNat) (s.toneF n 0) := by
  rw [State.toneSumF, h, List.range_one, List.foldl_cons, List.foldl_nil]

/-- Sample n as the two commands compute it is the tone's sample. -/
theorem clampF_tone (h : FsinRoundsTone) {n : Nat} (hn : n < 16) :
    (binTone 2).clampF ((binTone 2).toneSumF n) = toneSample n := by
  rw [State.toneSumF_one (by decide), State.toneF, toneAngles_eq n hn, h n hn, toneSample]

/-- What a SYNTH of the tone comes to, when its sample words are these. -/
def afterTone (kind : Kind) (word : Nat → Word) : State :=
  ((binTone 2).store (tabulate 16 word) { kind, win := .none, count := 16 }).succeed

/-- A SYNTH of the tone completes with the sample words it is shown to compute (R233). -/
theorem synthDone_tone (kind : Kind) {sample word : Nat → Word} (h : ∀ n < 16, sample n = word n) :
    (binTone 2).checked (binTone 2).synthChecks ((binTone 2).synthDone kind sample) = afterTone kind word := by
  have c : (binTone 2).synthCount = 16 := by decide
  have w : (binTone 2).synthWarns = 0 := by decide
  have t : tabulate 16 sample = tabulate 16 word := List.map_congr_left fun n hn => h n (List.mem_range.1 hn)
  rw [State.checked_of_none (by decide), State.synthDone, c, w, t]; rfl

/-- R344 for SYNTH.U16 and the integer stages, under the assumption. -/
theorem synthU16_peaks_q15 (h : FsinRoundsTone) :
    endsWithPeak (runCommands (.synthU16 :: spectrumQ15) (binTone 2)) 2 = true := by
  rw [runCommands, exec, execSynthU16, synthDone_tone .u16 (word := fun n => wordU16 ((binTone 2).quantize (toneSample n)))
    fun n hn => by rw [clampF_tone h hn]]
  decide +kernel

/-- R344 for SYNTH.F32 and the binary32 stages, under the assumption. -/
theorem synthF32_peaks_f32 (h : FsinRoundsTone) :
    endsWithPeak (runCommands (.synthF32 :: spectrumF32) (binTone 2)) 2 = true := by
  rw [runCommands, exec, execSynthF32, synthDone_tone .f32Phys (word := toneSample)
    fun n hn => by rw [State.noisyF, if_pos (by decide), clampF_tone h hn]]
  decide +kernel

end Sys2Proof.Machine
end

