-- ==== Sys2Proof/Laws/Trig.lean ====
section
/-! SUPPORT. The fixed-point cosines and sines of the tables are within 2^-67 of the real ones. The bound is what the
known digits of π allow (20 decimals); the computation itself errs by a few units of 2^-128. -/

namespace Sys2Proof.Machine

open Finset

/-- The series that `altSeries` computes, in the reals: from i = 0 that of cos, from i = 1 that of (sin x)/x. -/
noncomputable def realSeries (X : ℝ) : ℕ → ℕ → ℝ
  | 0, _ => 1
  | n + 1, i => 1 - X * realSeries X n (i + 2) / ((i + 1) * (i + 2))

theorem realSeries_eq (X : ℝ) (n i : ℕ) :
    realSeries X n i = ∑ k ∈ range (n + 1), (-1) ^ k * X ^ k * (i.factorial / (i + 2 * k).factorial : ℝ) := by
  induction n generalizing i with
  | zero =>
    have : (i.factorial : ℝ) ≠ 0 := by positivity
    simp [realSeries, this]
  | succ n ih =>
    have hf : (i.factorial : ℝ) ≠ 0 := by positivity
    rw [realSeries, ih, sum_range_succ' _ (n + 1), Nat.mul_zero, pow_zero, pow_zero, show i + 0 = i from rfl,
      div_self hf, one_mul, one_mul,
      sub_eq_add_neg, add_comm]
    congr 1
    rw [mul_sum, sum_div, ← sum_neg_distrib]
    refine sum_congr rfl fun k _ => ?_
    have e : i + 2 * (k + 1) = i + 2 + 2 * k := by ring
    have h1 : ((i + 2).factorial : ℝ) = (i + 2) * ((i + 1) * i.factorial) := by
      rw [Nat.factorial_succ, Nat.factorial_succ]; push_cast; ring
    have h2 : ((i + 2 + 2 * k).factorial : ℝ) ≠ 0 := by positivity
    have h3 : ((i : ℝ) + 1) ≠ 0 := by positivity
    have h4 : ((i : ℝ) + 2) ≠ 0 := by positivity
    rw [e, h1]
    field_simp
    ring

theorem realSeries_bounds (X : ℝ) (h0 : 0 ≤ X) (h1 : X ≤ 1) (n i : ℕ) :
    0 ≤ realSeries X n i ∧ realSeries X n i ≤ 1 := by
  induction n generalizing i with
  | zero => simp [realSeries]
  | succ n ih =>
    obtain ⟨a, b⟩ := ih (i + 2)
    have hd : (2 : ℝ) ≤ (i + 1) * (i + 2) := by
      have : (0 : ℝ) ≤ i := by positivity
      nlinarith
    have hp : 0 ≤ X * realSeries X n (i + 2) := mul_nonneg h0 a
    have hq : X * realSeries X n (i + 2) ≤ 1 := mul_le_one₀ h1 a b
    rw [realSeries]
    constructor
    · have : X * realSeries X n (i + 2) / ((i + 1) * (i + 2)) ≤ 1 := by
        rw [div_le_one (by linarith)]; linarith
      linarith
    · have : 0 ≤ X * realSeries X n (i + 2) / ((i + 1) * (i + 2)) := by positivity
      linarith

theorem altSeries_le (x2 n i : ℕ) : altSeries x2 n i ≤ trigOne := by
  cases n with
  | zero => exact le_refl _
  | succ n => exact Nat.sub_le ..

theorem trigOne_pos : 0 < trigOne := by unfold trigOne; positivity

/-- A natural quotient is its real quotient rounded down. -/
theorem nat_div_close (a b : ℕ) (hb : 0 < b) :
    ((a / b : ℕ) : ℝ) ≤ (a : ℝ) / b ∧ (a : ℝ) / b < ((a / b : ℕ) : ℝ) + 1 := by
  have hb' : (0 : ℝ) < b := by exact_mod_cast hb
  refine ⟨Nat.cast_div_le, ?_⟩
  rw [div_lt_iff₀ hb']
  have h := Nat.lt_div_mul_add hb (a := a)
  have e : (((a / b : ℕ) : ℝ) + 1) * b = ((a / b * b + b : ℕ) : ℝ) := by push_cast; ring
  rw [e]; exact_mod_cast h

/-- `altSeries` computes the real series to within 3 units. -/
theorem altSeries_close (x2 : ℕ) (X : ℝ) (h0 : 0 ≤ X) (h1 : X ≤ 1) (hx : x2 ≤ trigOne)
    (hX : |(x2 : ℝ) - X * trigOne| ≤ 1) (n i : ℕ) :
    |(altSeries x2 n i : ℝ) - realSeries X n i * trigOne| ≤ 3 := by
  induction n generalizing i with
  | zero => simp [altSeries, realSeries]
  | succ n ih =>
    set a := altSeries x2 n (i + 2) with ha
    set R := realSeries X n (i + 2) with hR
    have hO : (0 : ℝ) < trigOne := by exact_mod_cast trigOne_pos
    obtain ⟨r0, r1⟩ := realSeries_bounds X h0 h1 n (i + 2)
    have hE := ih (i + 2)
    have hd : 0 < trigOne * ((i + 1) * (i + 2)) := Nat.mul_pos trigOne_pos (by positivity)
    have hq : x2 * a / trigOne / ((i + 1) * (i + 2)) ≤ trigOne := by
      refine (Nat.div_le_self ..).trans (Nat.div_le_of_le_mul ?_)
      exact Nat.mul_le_mul hx (altSeries_le ..)
    have hd2 : (2 : ℝ) ≤ ((i : ℝ) + 1) * (i + 2) := by
      have : (0 : ℝ) ≤ i := by positivity
      nlinarith
    obtain ⟨d1, d2⟩ := nat_div_close (x2 * a) (trigOne * ((i + 1) * (i + 2))) hd
    rw [altSeries, realSeries, ← ha, ← hR, Nat.cast_sub hq, Nat.div_div_eq_div_mul]
    have hm : |(x2 : ℝ) * a - X * trigOne * (R * trigOne)| ≤ 4 * trigOne := by
      have e : (x2 : ℝ) * a - X * trigOne * (R * trigOne)
          = x2 * (a - R * trigOne) + (x2 - X * trigOne) * (R * trigOne) := by ring
      rw [e]
      refine (abs_add_le ..).trans ?_
      rw [abs_mul, abs_mul, abs_of_nonneg (by positivity : (0 : ℝ) ≤ x2),
        abs_of_nonneg (by positivity : (0 : ℝ) ≤ R * trigOne)]
      have b1 : (x2 : ℝ) * |(a : ℝ) - R * trigOne| ≤ trigOne * 3 := by
        have : (x2 : ℝ) ≤ trigOne := by exact_mod_cast hx
        exact mul_le_mul this hE (abs_nonneg _) hO.le
      have b2 : |(x2 : ℝ) - X * trigOne| * (R * trigOne) ≤ 1 * (1 * trigOne) := by
        refine mul_le_mul hX ?_ (by positivity) (by norm_num)
        exact mul_le_mul_of_nonneg_right r1 hO.le
      linarith
    set D : ℝ := ((i : ℝ) + 1) * (i + 2) with hD
    have eD : ((trigOne * ((i + 1) * (i + 2)) : ℕ) : ℝ) = trigOne * D := by rw [hD]; push_cast; ring
    rw [eD] at d1 d2
    have hDpos : 0 < D := by linarith
    have hm2 : |(x2 : ℝ) * a / (trigOne * D) - X * R / D * trigOne| ≤ 2 := by
      have e : (x2 : ℝ) * a / (trigOne * D) - X * R / D * trigOne
          = ((x2 : ℝ) * a - X * trigOne * (R * trigOne)) / (trigOne * D) := by field_simp
      rw [e, abs_div, abs_of_pos (by positivity : 0 < (trigOne : ℝ) * D), div_le_iff₀ (by positivity)]
      nlinarith
    push_cast at d1 d2 ⊢
    have e : (trigOne : ℝ) - ((x2 * a / (trigOne * ((i + 1) * (i + 2))) : ℕ) : ℝ) - (1 - X * R / D) * trigOne
        = X * R / D * trigOne - ((x2 * a / (trigOne * ((i + 1) * (i + 2))) : ℕ) : ℝ) := by ring
    rw [e]
    rw [abs_le] at hm2 ⊢
    constructor <;> linarith

/-! ### The series against cosine and sine -/

theorem cos_sin_series (x : ℝ) (hx : |x| ≤ 1) :
    |Real.cos x - realSeries (x ^ 2) 17 0| ≤ 1 / 2 ^ 128 ∧ |Real.sin x - x * realSeries (x ^ 2) 17 1| ≤ 1 / 2 ^ 128 := by
  have hn : ‖(x : ℂ) * Complex.I‖ ≤ 1 := by simpa using hx
  have hb := Complex.exp_bound (x := (x : ℂ) * Complex.I) hn (n := 36) (by norm_num)
  have hsum : ∑ m ∈ range 36, ((x : ℂ) * Complex.I) ^ m / (m.factorial : ℂ)
      = (realSeries (x ^ 2) 17 0 : ℂ) + ((x * realSeries (x ^ 2) 17 1 : ℝ) : ℂ) * Complex.I := by
    have pair : ∀ (n : ℕ) (f : ℕ → ℂ), ∑ m ∈ range (2 * n), f m = ∑ k ∈ range n, (f (2 * k) + f (2 * k + 1)) := by
      intro n f
      induction n with
      | zero => simp
      | succ n ih =>
        rw [show 2 * (n + 1) = 2 * n + 1 + 1 by ring, sum_range_succ, sum_range_succ, ih, sum_range_succ]; ring
    rw [show 36 = 2 * 18 by norm_num, pair, realSeries_eq, realSeries_eq]
    push_cast
    rw [mul_sum, sum_mul, ← sum_add_distrib]
    refine sum_congr rfl fun k _ => ?_
    have i2 : Complex.I ^ (2 * k) = (-1) ^ k := by rw [pow_mul, Complex.I_sq]
    have i3 : Complex.I ^ (2 * k + 1) = (-1) ^ k * Complex.I := by rw [pow_succ, i2]
    rw [mul_pow, mul_pow, i2, i3]
    have e1 : (0 + 2 * k).factorial = (2 * k).factorial := by rw [Nat.zero_add]
    have e2 : (1 + 2 * k).factorial = (2 * k + 1).factorial := by rw [Nat.add_comm]
    rw [e1, e2]
    simp only [Nat.factorial_zero, Nat.factorial_one, Nat.cast_one]
    rw [pow_succ (x : ℂ) (2 * k), pow_mul]
    ring
  rw [hsum, Complex.exp_mul_I] at hb
  have hbound : ‖(x : ℂ) * Complex.I‖ ^ 36 * ((Nat.succ 36 : ℝ) * ((Nat.factorial 36 : ℝ) * (36 : ℕ))⁻¹) ≤ 1 / 2 ^ 128 := by
    have h1 : ‖(x : ℂ) * Complex.I‖ ^ 36 ≤ 1 := pow_le_one₀ (norm_nonneg _) hn
    have h2 : ((Nat.succ 36 : ℝ) * ((Nat.factorial 36 : ℝ) * (36 : ℕ))⁻¹) ≤ 1 / 2 ^ 128 := by
      norm_num [Nat.factorial]
    calc _ ≤ 1 * ((Nat.succ 36 : ℝ) * ((Nat.factorial 36 : ℝ) * (36 : ℕ))⁻¹) := by gcongr
      _ ≤ _ := by rw [one_mul]; exact h2
  have hb' := hb.trans hbound
  have key : Complex.cos x + Complex.sin x * Complex.I
      - ((realSeries (x ^ 2) 17 0 : ℂ) + ((x * realSeries (x ^ 2) 17 1 : ℝ) : ℂ) * Complex.I)
      = ((Real.cos x - realSeries (x ^ 2) 17 0 : ℝ) : ℂ)
        + ((Real.sin x - x * realSeries (x ^ 2) 17 1 : ℝ) : ℂ) * Complex.I := by
    push_cast; ring
  rw [key] at hb'
  have parts : ∀ A B : ℝ, |A| ≤ ‖(A : ℂ) + (B : ℂ) * Complex.I‖ ∧ |B| ≤ ‖(A : ℂ) + (B : ℂ) * Complex.I‖ := by
    intro A B
    have h1 := Complex.abs_re_le_norm ((A : ℂ) + (B : ℂ) * Complex.I)
    have h2 := Complex.abs_im_le_norm ((A : ℂ) + (B : ℂ) * Complex.I)
    simp only [Complex.add_re, Complex.add_im, Complex.ofReal_re, Complex.ofReal_im, Complex.re_ofReal_mul,
      Complex.im_ofReal_mul, Complex.I_re, Complex.I_im, mul_zero, mul_one, add_zero, zero_add] at h1 h2
    exact ⟨h1, h2⟩
  exact ⟨(parts _ _).1.trans hb', (parts _ _).2.trans hb'⟩

/-! ### The angle -/

theorem trigTwoPi_close : |(trigTwoPi : ℝ) / trigOne - 2 * Real.pi| ≤ 2 / 10 ^ 20 := by
  have h1 := Real.pi_gt_d20
  have h2 := Real.pi_lt_d20
  have e1 : 2 * (3.14159265358979323846 : ℝ) ≤ (trigTwoPi : ℝ) / trigOne := by
    rw [le_div_iff₀ (by exact_mod_cast trigOne_pos)]
    unfold trigTwoPi trigOne trigBits; norm_num
  have e2 : (trigTwoPi : ℝ) / trigOne ≤ 2 * (3.14159265358979323847 : ℝ) := by
    rw [div_le_iff₀ (by exact_mod_cast trigOne_pos)]
    unfold trigTwoPi trigOne trigBits; norm_num
  rw [abs_le]
  constructor <;> linarith

/-- The fixed-point angle of p/q of a turn, for p/q at most an eighth. -/
theorem angle_close (p q : ℕ) (hq : 0 < q) (hp : 8 * p ≤ q) :
    |((trigTwoPi * p / q : ℕ) : ℝ) / trigOne - 2 * Real.pi * p / q| ≤ 1 / 2 ^ 68
      ∧ trigTwoPi * p / q ≤ trigOne := by
  have hO : (0 : ℝ) < trigOne := by exact_mod_cast trigOne_pos
  have hq' : (0 : ℝ) < q := by exact_mod_cast hq
  obtain ⟨d1, d2⟩ := nat_div_close (trigTwoPi * p) q hq
  push_cast at d1 d2
  have ht := trigTwoPi_close
  have hpq : (p : ℝ) / q ≤ 1 / 8 := by
    rw [div_le_div_iff₀ hq' (by norm_num)]; exact_mod_cast (by omega : p * 8 ≤ 1 * q)
  have hpq0 : (0 : ℝ) ≤ (p : ℝ) / q := by positivity
  constructor
  · set F : ℝ := ((trigTwoPi * p / q : ℕ) : ℝ)
    have e : F / trigOne - 2 * Real.pi * p / q
        = (F - trigTwoPi * p / q) / trigOne + (trigTwoPi / trigOne - 2 * Real.pi) * (p / q) := by field_simp; ring
    rw [e]
    refine (abs_add_le ..).trans ?_
    have b1 : |(F - (trigTwoPi : ℝ) * p / q) / trigOne| ≤ 1 / trigOne := by
      rw [abs_div, abs_of_pos hO]
      gcongr
      rw [abs_le]; constructor <;> linarith
    have b2 : |((trigTwoPi : ℝ) / trigOne - 2 * Real.pi) * (p / q)| ≤ 2 / 10 ^ 20 * (1 / 8) := by
      rw [abs_mul, abs_of_nonneg hpq0]
      exact mul_le_mul ht hpq hpq0 (by norm_num)
    have b3 : (1 : ℝ) / trigOne + 2 / 10 ^ 20 * (1 / 8) ≤ 1 / 2 ^ 68 := by
      unfold trigOne trigBits; norm_num
    linarith
  · refine Nat.div_le_of_le_mul ?_
    have : trigTwoPi ≤ 8 * trigOne := by decide
    nlinarith

/-! ### Cosine and sine of an eighth of a turn -/

theorem eighth_aux (p q : ℕ) (hq : 0 < q) (hp : 8 * p ≤ q) (i : ℕ) :
    let x := trigTwoPi * p / q
    |(altSeries (x * x / trigOne) 17 i : ℝ) - realSeries (((x : ℝ) / trigOne) ^ 2) 17 i * trigOne| ≤ 3
      ∧ |(x : ℝ) / trigOne| ≤ 1 := by
  intro x
  have hO : (0 : ℝ) < trigOne := by exact_mod_cast trigOne_pos
  have hx : x ≤ trigOne := (angle_close p q hq hp).2
  have hx1 : (x : ℝ) / trigOne ≤ 1 := by rw [div_le_one hO]; exact_mod_cast hx
  have hx0 : (0 : ℝ) ≤ (x : ℝ) / trigOne := by positivity
  refine ⟨altSeries_close _ _ (by positivity) (pow_le_one₀ hx0 hx1) ?_ ?_ 17 i, by rw [abs_of_nonneg hx0]; exact hx1⟩
  · exact Nat.div_le_of_le_mul (Nat.mul_le_mul hx hx)
  · obtain ⟨d1, d2⟩ := nat_div_close (x * x) trigOne trigOne_pos
    have e : ((x : ℝ) / trigOne) ^ 2 * trigOne = ((x * x : ℕ) : ℝ) / trigOne := by push_cast; field_simp
    rw [e, abs_le]; constructor <;> linarith

theorem cosEighth_close (p q : ℕ) (hq : 0 < q) (hp : 8 * p ≤ q) :
    |(cosEighth p q : ℝ) / trigOne - Real.cos (2 * Real.pi * p / q)| ≤ 1 / 2 ^ 67 := by
  have hO : (0 : ℝ) < trigOne := by exact_mod_cast trigOne_pos
  obtain ⟨h1, h2⟩ := eighth_aux p q hq hp 0
  obtain ⟨h3, _⟩ := cos_sin_series _ h2
  obtain ⟨h4, _⟩ := angle_close p q hq hp
  set x := trigTwoPi * p / q with hx
  have h5 : |Real.cos ((x : ℝ) / trigOne) - Real.cos (2 * Real.pi * p / q)| ≤ 1 / 2 ^ 68 :=
    (Real.abs_cos_sub_cos_le ..).trans h4
  have h6 : |(cosEighth p q : ℝ) / trigOne - realSeries (((x : ℝ) / trigOne) ^ 2) 17 0| ≤ 3 / trigOne := by
    have e : (cosEighth p q : ℝ) / trigOne - realSeries (((x : ℝ) / trigOne) ^ 2) 17 0
        = ((cosEighth p q : ℝ) - realSeries (((x : ℝ) / trigOne) ^ 2) 17 0 * trigOne) / trigOne := by field_simp
    rw [e, abs_div, abs_of_pos hO]
    gcongr
    exact h1
  have h7 : (3 : ℝ) / trigOne + 1 / 2 ^ 128 + 1 / 2 ^ 68 ≤ 1 / 2 ^ 67 := by unfold trigOne trigBits; norm_num
  rw [abs_le] at *
  constructor <;> linarith [h3.1, h3.2, h5.1, h5.2, h6.1, h6.2]

theorem sinEighth_close (p q : ℕ) (hq : 0 < q) (hp : 8 * p ≤ q) :
    |(sinEighth p q : ℝ) / trigOne - Real.sin (2 * Real.pi * p / q)| ≤ 1 / 2 ^ 67 := by
  have hO : (0 : ℝ) < trigOne := by exact_mod_cast trigOne_pos
  obtain ⟨h1, h2⟩ := eighth_aux p q hq hp 1
  obtain ⟨_, h3⟩ := cos_sin_series _ h2
  obtain ⟨h4, hx1⟩ := angle_close p q hq hp
  set x := trigTwoPi * p / q with hx
  have h5 : |Real.sin ((x : ℝ) / trigOne) - Real.sin (2 * Real.pi * p / q)| ≤ 1 / 2 ^ 68 :=
    (Real.abs_sin_sub_sin_le ..).trans h4
  set a := altSeries (x * x / trigOne) 17 1 with ha
  set R := realSeries (((x : ℝ) / trigOne) ^ 2) 17 1 with hR
  obtain ⟨d1, d2⟩ := nat_div_close (x * a) trigOne trigOne_pos
  have hs : sinEighth p q = x * a / trigOne := rfl
  have hx1' : (x : ℝ) ≤ trigOne := by exact_mod_cast hx1
  have h6 : |(sinEighth p q : ℝ) / trigOne - (x : ℝ) / trigOne * R| ≤ 4 / trigOne := by
    have e : (sinEighth p q : ℝ) / trigOne - (x : ℝ) / trigOne * R
        = (((sinEighth p q : ℝ) - ((x * a : ℕ) : ℝ) / trigOne) + (x : ℝ) / trigOne * (a - R * trigOne)) / trigOne := by
      push_cast; field_simp; ring
    rw [e, abs_div, abs_of_pos hO]
    gcongr
    refine (abs_add_le ..).trans ?_
    have b1 : |(sinEighth p q : ℝ) - ((x * a : ℕ) : ℝ) / trigOne| ≤ 1 := by
      rw [hs, abs_le]; constructor <;> linarith
    have b2 : |(x : ℝ) / trigOne * (a - R * trigOne)| ≤ 1 * 3 := by
      rw [abs_mul]
      exact mul_le_mul h2 h1 (abs_nonneg _) (by norm_num)
    linarith
  have h7 : (4 : ℝ) / trigOne + 1 / 2 ^ 128 + 1 / 2 ^ 68 ≤ 1 / 2 ^ 67 := by unfold trigOne trigBits; norm_num
  rw [abs_le] at *
  constructor <;> linarith [h3.1, h3.2, h5.1, h5.2, h6.1, h6.2]

theorem cosQuarter_close (p q : ℕ) (hq : 0 < q) (hp : 4 * p ≤ q) :
    |(cosQuarter p q : ℝ) / trigOne - Real.cos (2 * Real.pi * p / q)| ≤ 1 / 2 ^ 67 := by
  unfold cosQuarter
  split
  · exact cosEighth_close p q hq ‹_›
  · have h := sinEighth_close (q - 4 * p) (4 * q) (by omega) (by omega)
    have hq' : (q : ℝ) ≠ 0 := by exact_mod_cast hq.ne'
    have e : 2 * Real.pi * ((q - 4 * p : ℕ) : ℝ) / ((4 * q : ℕ) : ℝ) = Real.pi / 2 - 2 * Real.pi * p / q := by
      rw [Nat.cast_sub hp]; push_cast; field_simp; ring
    rwa [e, Real.sin_pi_div_two_sub] at h

/-! ### Any angle -/

/-- `cosTurn p q` is the cosine of p/q of a turn, in units of 2^-128, to within 2^-67. -/
theorem cosTurn_close (p q : ℕ) (hq : 0 < q) :
    |(cosTurn p q : ℝ) / trigOne - Real.cos (2 * Real.pi * p / q)| ≤ 1 / 2 ^ 67 := by
  have hq' : (q : ℝ) ≠ 0 := by exact_mod_cast hq.ne'
  have hr := Nat.mod_lt p hq
  -- whole turns
  have e1 : Real.cos (2 * Real.pi * p / q) = Real.cos (2 * Real.pi * (p % q : ℕ) / q) := by
    have hp : (p : ℝ) = (p % q : ℕ) + q * (p / q : ℕ) := by exact_mod_cast (Nat.mod_add_div p q).symm
    have : 2 * Real.pi * p / q = 2 * Real.pi * (p % q : ℕ) / q + (p / q : ℕ) * (2 * Real.pi) := by
      rw [hp]; field_simp
    rw [this, Real.cos_add_nat_mul_two_pi]
  rw [e1]
  unfold cosTurn
  simp only
  generalize p % q = r at hr
  -- the second half turn mirrors the first
  set r' := if q < 2 * r then q - r else r with hr'
  have e2 : Real.cos (2 * Real.pi * r / q) = Real.cos (2 * Real.pi * r' / q) := by
    rw [hr']; split
    · have : 2 * Real.pi * ((q - r : ℕ) : ℝ) / q = 2 * Real.pi - 2 * Real.pi * r / q := by
        rw [Nat.cast_sub hr.le]; field_simp
      rw [this, Real.cos_two_pi_sub]
    · rfl
  have h2 : 2 * r' ≤ q := by rw [hr']; split <;> omega
  rw [e2]
  split
  · have h := cosQuarter_close (q - 2 * r') (2 * q) (by omega) (by omega)
    have e : 2 * Real.pi * ((q - 2 * r' : ℕ) : ℝ) / ((2 * q : ℕ) : ℝ) = Real.pi - 2 * Real.pi * r' / q := by
      rw [Nat.cast_sub h2]; push_cast; field_simp
    rw [e, Real.cos_pi_sub] at h
    push_cast
    rw [abs_le] at h ⊢
    constructor <;> [linarith [h.2, neg_div (trigOne : ℝ) (cosQuarter (q - 2 * r') (2 * q) : ℝ)];
      linarith [h.1, neg_div (trigOne : ℝ) (cosQuarter (q - 2 * r') (2 * q) : ℝ)]]
  · have h := cosQuarter_close r' q hq (by omega)
    simpa using h

/-- `sinTurn p q` is the sine of p/q of a turn, in units of 2^-128, to within 2^-67. -/
theorem sinTurn_close (p q : ℕ) (hq : 0 < q) :
    |(sinTurn p q : ℝ) / trigOne - Real.sin (2 * Real.pi * p / q)| ≤ 1 / 2 ^ 67 := by
  have h := cosTurn_close (4 * p + 3 * q) (4 * q) (by omega)
  have hq' : (q : ℝ) ≠ 0 := by exact_mod_cast hq.ne'
  have e : 2 * Real.pi * ((4 * p + 3 * q : ℕ) : ℝ) / ((4 * q : ℕ) : ℝ)
      = (2 * Real.pi * p / q - Real.pi / 2) + 2 * Real.pi := by
    push_cast; field_simp; ring
  rwa [e, Real.cos_add_two_pi, Real.cos_sub_pi_div_two] at h

end Sys2Proof.Machine
end

