-- ==== Sys2Proof/Tests/Slice0.lean ====
section
/-! SUPPORT. Tests. Expected values are those of spec/95_test_vectors.md (V-..., P1 to P6) or are counted by hand from
the rules named. The `witness_` theorems show, for each statement with hypotheses, operands that meet them, with the
boundary values of their ranges. -/

open Sys2Proof Sys2Proof.Machine

namespace Sys2Proof.Tests

set_option Elab.async false

/-! ### Helpers -/

/-- The state `exec` leaves. -/
def after (i : Instr) (s : State) : State :=
  match exec i s with
  | .next t => t
  | .fault _ => s
  | .refused _ => s

/-- The command word w runs, with this progress; else the machine is as after reset. -/
def running (w : Word) (p : Progress) : State := { State.reset with lastCmd := w, seq := .run w p }

/-- These words in SCR from word 0 on, under this tag. -/
def loaded (ws : List Word) (kind : Kind) (win : Win) (count : Nat) : State :=
  { State.reset with scr := Memory.putWords [] 0 ws, tag := { kind, win, count := BitVec.ofNat 13 count } }

/-- FS 1600, DC_OFFSET 1650, one tone of 200 Hz and 1000 mV; SRC_LEN 1. -/
def cfg1 : Cfg :=
  { Cfg.reset with
    fs := 1600, dcOffset := 1650, numTones := 1, len := 4, srcLen := 1
    freq := Cfg.reset.freq.set 0 200, amp := Cfg.reset.amp.set 0 1000 }

/-- A FIFO that the producer side sees full: the 255 bytes it can hold are stored, no pointer copy has moved. -/
def fullFifo : Fifo := { Fifo.reset with wp := 255 }

/-- A BTX whose engine is in this state, SRC_LEN 1, one block. -/
def engine (st : BtState) (outq : List Byte) (blk : Nat) : State :=
  { running 0x0B .engine with
    cfg := { Cfg.reset with srcLen := 1 }
    bt := { BtEngine.reset with state := st, outq, blk, nblk := 1 } }

/-- The RX FIFO with one byte visible. -/
def rxWith (b : Byte) : Fifo := (Fifo.reset.push b).syncW

/-! ### Well-formed accesses: each check refuses an ill-formed term -/

theorem test_wf_register_needs_a_word : (HostAccess.read 0x0008 .byte).wf = false := by decide
theorem test_wf_register_write_needs_a_word : (HostAccess.write 0x0014 .half 5).wf = false := by decide
theorem test_wf_register_needs_alignment : (HostAccess.read 0x0006 .word).wf = false := by decide
theorem test_wf_scr_half_needs_alignment : (HostAccess.write 0x8001 .half 0).wf = false := by decide
theorem test_wf_scr_word_needs_alignment : (HostAccess.read 0x8002 .word).wf = false := by decide
theorem test_wf_last_register_word : (HostAccess.read 0x7FFC .word).wf = true := by decide
theorem test_wf_scr_byte_anywhere : (HostAccess.write 0xFFFF .byte 0).wf = true := by decide

/-! ### Decoding: every command's word written out from spec/30_encoding.md R160 and R162, as its four bytes OP, SEL,
0, 0; and the illegal words of spec/95_test_vectors.md 2.1 -/

theorem test_decode_nop : decodeBytes [0x00, 0x00, 0x00, 0x00] = .ok .nop := by decide
theorem test_decode_synth :
    decodeBytes [0x01, 0x00, 0x00, 0x00] = .ok .synthF32 ∧ decodeBytes [0x01, 0x01, 0x00, 0x00] = .ok .synthU16
      ∧ decodeBytes [0x01, 0x02, 0x00, 0x00] = .ok .synthFix := by decide
theorem test_decode_fir :
    decodeBytes [0x02, 0x00, 0x00, 0x00] = .ok .firNone ∧ decodeBytes [0x02, 0x01, 0x00, 0x00] = .ok .firLp
      ∧ decodeBytes [0x02, 0x02, 0x00, 0x00] = .ok .firBp := by decide
theorem test_decode_norm :
    decodeBytes [0x03, 0x00, 0x00, 0x00] = .ok .normF ∧ decodeBytes [0x03, 0x01, 0x00, 0x00] = .ok .normQ := by decide
theorem test_decode_win :
    decodeBytes [0x04, 0x00, 0x00, 0x00] = .ok .winBlackman ∧ decodeBytes [0x04, 0x01, 0x00, 0x00] = .ok .winHamming
      ∧ decodeBytes [0x04, 0x02, 0x00, 0x00] = .ok .winHann := by decide
theorem test_decode_fft_mag :
    decodeBytes [0x05, 0x00, 0x00, 0x00] = .ok .fft ∧ decodeBytes [0x06, 0x00, 0x00, 0x00] = .ok .mag := by decide
theorem test_decode_crc :
    decodeBytes [0x07, 0x00, 0x00, 0x00] = .ok .crc32 ∧ decodeBytes [0x07, 0x01, 0x00, 0x00] = .ok .crc16 := by decide
theorem test_decode_send :
    decodeBytes [0x08, 0x00, 0x00, 0x00] = .ok .sendB ∧ decodeBytes [0x08, 0x01, 0x00, 0x00] = .ok .sendH := by decide
theorem test_decode_packets :
    decodeBytes [0x09, 0x00, 0x00, 0x00] = .ok .pktChk ∧ decodeBytes [0x0A, 0x00, 0x00, 0x00] = .ok .pktBld
      ∧ decodeBytes [0x0B, 0x00, 0x00, 0x00] = .ok .btx := by decide
theorem test_decode_illegal_words :
    ([0x301, 0x302, 0x203, 0x304, 0x105, 0x207, 0x10B] : List Word).all
        (fun w => decodeWord w == .error .unlistedSel) = true
      ∧ decodeWord 0x0C = .error .unassignedOp ∧ decodeWord 0xFF = .error .unassignedOp
      ∧ decodeWord 0x405 = .error .reservedBits ∧ decodeWord 0x80000001 = .error .reservedBits := by decide
theorem test_decode_needs_one_word : decodeBytes [0x00, 0x00, 0x00] = .error .notOneWord := by decide
theorem test_table_words :
    (legalWords.all fun p => decodeTableWord 32 p.1.toNat == some p.2 && encode p.2 == p.1) = true := by decide

/-- The first step after reset runs the table's command: CRC32 of an empty region (R403). -/
theorem test_first_step_runs_the_word :
    (match step (State.reset.withFetchWord 32 0x07) with
      | .next t => t.lastCmd == 0x07 && t.seq == .idle && t.events == 0x01 && t.crc32Res == 0
      | .fault _ | .refused _ => false) = true := by decide +kernel

/-! ### Commands -/

/-- V-CTL-6: NOP leaves ERR set. -/
theorem test_nop : (after .nop { running 0 .start with events := 0x02, errCode := .range }).events = 0x03
    ∧ (after .nop { running 0 .start with errCode := .range }).errCode = .ok := by decide +kernel
/-- V-SYN-16, first two words. -/
theorem test_synthF32_noise :
    (after .synthF32 { running 1 .start with
      cfg := { cfg1 with numTones := 0, len := 2, noiseAmp := 0x42C80000 } }).scr.words 2
      = [0x44C1C067, 0x44C224C9] := by decide +kernel
/-- V-SYN-17: seed 0. -/
theorem test_synthF32_seed_zero :
    (after .synthF32 { running 1 .start with
      cfg := { cfg1 with numTones := 0, len := 1, noiseAmp := 0x42C80000, noiseSeed := 0 } }).scr.word 0
      = 0x44C1C000 := by decide +kernel
/-- V-SYN-9. -/
theorem test_synthU16 :
    (after .synthU16 { running 0x101 .start with cfg := { cfg1 with numTones := 0, len := 2 } }).scr.words 2
      = [2047, 2047] := by decide +kernel
/-- V-SYN-1, first four words. -/
theorem test_synthFix :
    (after .synthFix { running 0x201 .start with cfg := cfg1 }).scr.words 4 = [2047, 2924, 3287, 2924]
      ∧ (after .synthFix { running 0x201 .start with cfg := cfg1 }).tag = ⟨.u16, .none, 4⟩ := by decide +kernel
/-- V-SYN-5: the clamp to VREF. -/
theorem test_synthFix_clamps :
    (after .synthFix { running 0x201 .start with
      cfg := { cfg1 with amp := cfg1.amp.set 0 4000 } }).scr.words 4 = [2047, 4095, 4095, 4095] := by decide +kernel
/-- V-FIR-11. -/
theorem test_firNone : (after .firNone (running 0x02 .start)).errCode = .ok := by decide +kernel
/-- V-FIR-1. -/
theorem test_firLp :
    (after .firLp { loaded [100, 200, 300, 400] .u16 .none 4 with
      cfg := { Cfg.reset with
        firTapsLp := 2, coefLp := (Cfg.reset.coefLp.set 0 16384).set 1 16384 } }).scr.words 4
      = [50, 150, 250, 350] := by decide +kernel
/-- V-FIR-3: negative sums clamp to 0. -/
theorem test_firLp_clamps :
    (after .firLp { loaded [4095, 0, 4095, 100] .u16 .none 4 with
      cfg := { Cfg.reset with
        firTapsLp := 2, coefLp := (Cfg.reset.coefLp.set 0 0x7FFF).set 1 0x8000 } }).scr.words 4
      = [4095, 0, 4095, 0] := by decide +kernel
/-- V-FIR-5. -/
theorem test_firBp :
    (after .firBp { loaded [0x3F800000, 0x40000000, 0x40400000] .f32Phys .none 3 with
      cfg := { Cfg.reset with
        firTapsBp := 3, coefBp := (Cfg.reset.coefBp.set 0 0x3F800000).set 1 0xBF800000 } }).scr.words 3
      = [0x3F800000, 0x3F800000, 0x3F800000] := by decide +kernel
/-- V-FIR-10. -/
theorem test_firBp_taps :
    (after .firBp { loaded [1] .u16 .none 4 with cfg := { Cfg.reset with firTapsBp := 65 } }).errCode = .cfgInvalid := by
  decide +kernel
/-- Section 2.5. -/
theorem test_normF :
    (after .normF (loaded [0, 2047, 2048, 3287, 65535] .u16 .none 5)).scr.words 5
      = [0xBF800000, 0xBA000000, 0, 0x3F1AE000, 0x41F7FF00] := by decide +kernel
theorem test_normF_millivolts :
    (after .normF (loaded [0x44CE4000, 0x454E4000, 0] .f32Phys .none 3)).scr.words 3
      = [0, 0x3F800000, 0xBF800000] := by decide +kernel
theorem test_normQ :
    (after .normQ (loaded [0, 2047, 2048, 4095, 65535] .u16 .none 5)).scr.words 5
      = [0xFFFF8000, 0xFFFFFFF0, 0, 0x7FF0, 0x7FFF] := by decide +kernel
/-- V-WIN-1, V-WIN-5. -/
theorem test_winBlackman :
    (after .winBlackman (loaded [0, 16384] .q15 .none 16)).scr.word 1 = 275 := by decide +kernel
theorem test_winBlackman_twice :
    (after .winBlackman (loaded [0, 16384] .q15 .blackman 16)).errCode = .tagMismatch := by decide +kernel
/-- V-WIN-2. -/
theorem test_winHamming : (after .winHamming (loaded [16384] .q15 .none 16)).scr.word 0 = 1311 := by decide +kernel
/-- V-WIN-3, V-WIN-8. -/
theorem test_winHann :
    (after .winHann (loaded (List.replicate 16 0xFFFF8000) .q15 .none 16)).scr.word 5 = 0xFFFFA000 := by decide +kernel
theorem test_winHann_negative_zero :
    (after .winHann (loaded [0xBA000000] .f32N .none 16)).scr.word 0 = 0x80000000 := by decide +kernel
/-- P1's windowed data. -/
def p1Data : List Word :=
  ([0, 235, 1528, 2814, -6, -8870, -16876, -13829, -16, 11903, 12489, 5522, -3, -1085, -333, 0] : List Int).map
    (BitVec.ofInt 32)
/-- P1: bins 0 to 2. -/
theorem test_fft :
    (after .fft (loaded p1Data .q15 .blackman 16)).scr.words 6
        = ([-409, 0, 493, 2430, -5, -3908] : List Int).map (BitVec.ofInt 32) := by decide +kernel
/-- V-ERR-1. -/
theorem test_fft_short : after .fft (loaded p1Data .q15 .none 8) = (loaded p1Data .q15 .none 8).failed .lenInvalid := by
  decide +kernel
/-- P1: words 0 to 2 of MAG under Blackman. -/
theorem test_mag :
    (after .mag (loaded (([-409, 0, 493, 2430, -5, -3908] : List Int).map (BitVec.ofInt 32)) .q15Spec .blackman 16)).scr.words 3
      = [3895, 23609, 37219] := by decide +kernel
/-- V-RST-3. -/
theorem test_mag_after_reset : (after .mag State.reset).errCode = .tagMismatch := by decide +kernel
/-- P2: "123456789" at scratch byte 0. -/
def p2 : State :=
  { loaded [0x34333231, 0x38373635, 0x39] .empty .none 0 with cfg := { Cfg.reset with srcLen := 9 } }
theorem test_crc32 : (after .crc32 p2).crc32Res = 0xCBF43926 := by decide +kernel
theorem test_crc16 : (after .crc16 p2).crc16Res = 0x31C3 := by decide +kernel
/-- P2: SEND.B's sequence and its first push. -/
theorem test_sendB :
    (after .sendB { p2 with seq := .run 0x08 .start }).seq
      = .run 0x08 (.push [0x31, 0x32, 0x33, 0x34, 0x35, 0x36, 0x37, 0x38, 0x39]) := by decide +kernel
theorem test_sendB_push :
    (after .sendB { p2 with seq := .run 0x08 (.push [0x31, 0x32]) }).tx.contents = [0x31] := by decide +kernel
/-- R408's order: bits 7:0, then bits 15:8. -/
theorem test_sendH :
    (after .sendH { loaded [0x7FF, 0xCDB] .empty .none 0 with
      cfg := { Cfg.reset with srcLen := 2 }, seq := .run 0x108 .start }).seq
      = .run 0x108 (.push [0xFF, 0x07, 0xDB, 0x0C]) := by decide +kernel
theorem test_sendH_align :
    (after .sendH { running 0x108 .start with cfg := { Cfg.reset with srcAddr := 2 } }).errCode = .align := by
  decide +kernel
/-- P3: the packet with an empty region, id 1; the corrupted ones. -/
def p3Packet : List Byte := [0x01, 0x01, 0xFE] ++ List.replicate 128 0x1A ++ [0xF8, 0xB0]
set_option maxRecDepth 20000 in
theorem test_pktBld :
    (after .pktBld { running 0x0A .start with cfg := { Cfg.reset with pktSeq := 1 } }).seq
      = .run 0x0A (.push p3Packet) := by decide +kernel
theorem test_pktBld_length :
    (after .pktBld { running 0x0A .start with cfg := { Cfg.reset with srcLen := 129 } }).errCode = .lenInvalid := by
  decide +kernel
set_option maxRecDepth 20000 in
theorem test_pktChk :
    (after .pktChk { State.reset with
      scr := Memory.write [] 0x100 p3Packet, cfg := { Cfg.reset with srcAddr := 0x100, pktSeq := 1 } }).pktStatus = 0x1F
    ∧ (after .pktChk { State.reset with
      scr := Memory.write [] 0x100 p3Packet
      cfg := { Cfg.reset with srcAddr := 0x100, pktSeq := 2 } }).pktStatus = 0x0D := by decide +kernel
set_option maxRecDepth 20000 in
theorem test_pktChk_corrupted :
    pktStatusOf 0x01 0x01 (p3Packet.set 3 0x1B) = 0x07 ∧ pktStatusOf 0x01 0x01 (p3Packet.set 2 0xFF) = 0x0B := by
  decide +kernel
/-- V-BT-8, V-BT-4. -/
theorem test_btx_empty_region : (after .btx (running 0x0B .start)).errCode = .lenInvalid := by decide +kernel
theorem test_btx_start_timeout :
    (after .btx { engine .awaitStart [] 0 with cfg := { Cfg.reset with srcLen := 1, btToStart := 0 } }).bt.outq
      = [0x18, 0x18] := by decide +kernel
/-- V-BT-9: the tick wraps. -/
theorem test_elapsed_wraps :
    ({ engine .waitAck [] 0 with tick := 3, bt := { BtEngine.reset with t0 := 0xFFFFFFFE } }).timedOut 5 = true := by
  decide +kernel

/-! ### The host port, the FIFOs, the tables -/

/-- V-CTL-1: STATUS right after FFT is issued. -/
theorem test_status_busy : (State.reset.hostStep (.write 0x14 .word 5)).reads 0x08 = .data 0x00000509 := by decide +kernel
theorem test_status_reset : State.reset.reads 0x08 = .data 0x00000008 := by decide +kernel
/-- R500, R62, R70: the codes and words of ERR_CODE, SCR_TAG and BT_RESULT, with a command running. -/
theorem test_register_words :
    ({ running 0x0B .engine with errCode := .btCancelRemote }).reads 0x18 = .data 9
      ∧ ({ running 0x0B .engine with tag := ⟨.f32Spec, .hamming, 0x800⟩ }).reads 0x20 = .data 0x08000025
      ∧ ({ running 0x0B .engine with blocksAcked := 0x100, bt := { BtEngine.reset with retries := 0x0A } }).reads 0x8C
        = .data 0x000A0100 := by decide +kernel
/-- R13: NaN, overflow, and the zero of an exact difference. -/
theorem test_f32_special :
    f32Sub 0x7F800000 0x7F800000 = 0x7FC00000 ∧ f32Add 0x7F7FFFFF 0x73000000 = 0x7F800000
      ∧ f32Add 0x7F7FFFFF 0x72FFFFFF = 0x7F7FFFFF ∧ f32Sub 0x3F800000 0x3F800000 = 0
      ∧ f32OfNat 0x1000001 = 0x4B800000 ∧ f32OfNat 0xFFFFFFFF = 0x4F800000 := by decide +kernel
/-- V-ERR-4 to V-ERR-6. -/
theorem test_bus_errors :
    State.reset.hostStep (.read 0x08 .byte) = { State.reset with hostResp := .fault .busError }
      ∧ State.reset.hostStep (.write 0x8001 .half 7) = { State.reset with hostResp := .fault .busError }
      ∧ State.reset.reads 0xA4 = .data 0 := by decide +kernel
/-- Section 2.3, R240. -/
theorem test_sinLut :
    [0, 1, 2, 64, 128, 255, 256, 257, 384, 512, 640, 768, 896, 1023].map sinLut
      = [0, 201, 402, 12540, 23170, 32767, 32767, 32767, 23170, 0, -23170, -32768, -23170, -201] := by decide +kernel
/-- Section 2.6: the Blackman window, and N = 3. -/
theorem test_windows :
    (List.range 8).map (winQ15 .blackman 16) = [0, 549, 2526, 6579, 12911, 20644, 27828, 32183]
      ∧ (List.range 4).map (winF32 .hann 16) = [0, 0x3D310F14, 0x3E2967B7, 0x3EB0E443]
      ∧ winF32 .blackman 3 1 = 0x3F800000 := by decide +kernel
/-- Section 2.7. -/
theorem test_twiddles :
    twQ15 16 0 = (32767, 0) ∧ twQ15 16 1 = (30274, -12540) ∧ twF32 16 1 = (0x3F6C835E, 0xBEC3EF15) := by decide +kernel

/-! ### Witnesses: the hypotheses of each statement can be met -/

theorem witness_StepRunsDecodedCommand :
    (running 0x05 .start).seq = .run 0x05 .start ∧ decodeBytes (wordBytes 0x05) = .ok .fft
      ∧ (running 0x05 .start).inputs = [] ∧ ({ running 0x05 .start with inputs := [.seq, .tick] }).inputs = .seq :: [.tick] := by
  decide +kernel
theorem witness_IllegalWordCompletesWithIllegalCmd :
    (running 0x302 .start).seq = .run 0x302 .start ∧ (∀ i : Instr, (0x302, i) ∉ legalWords) := by
  refine ⟨rfl, fun i => by cases i <;> decide⟩
theorem witness_CmdWriteIssuesOrIsDropped : State.reset.seq = .idle ∧ (running 0x05 .start).seq ≠ .idle := by decide +kernel
theorem witness_BusyGuardedWritesAreDropped :
    (running 0x05 .start).seq ≠ .idle
      ∧ [0x20, 0x40, 0x6C, 0x78, 0x80, 0x88, 0x98, 0xA0, 0x100, 0x13C, 0x400, 0x5FC].all guardedAddr = true
      ∧ (0x8000 ≤ (0x8000 : BitVec 16).toNat ∧ (0x8000 : BitVec 16).toNat % AccSize.bytes .word = 0)
      ∧ (0x8000 ≤ (0xFFFF : BitVec 16).toNat ∧ (0xFFFF : BitVec 16).toNat % AccSize.bytes .byte = 0) := by decide +kernel
theorem witness_OperandsFixedWhileBusy :
    AgentStep.isReset .tick = false ∧ (running 0x05 .start).agentStep .tick = .next (running 0x05 .start).tickStep
      ∧ (running 0x05 .start).seq = .run 0x05 .start ∧ (running 0x05 .start).tickStep.seq = .run 0x05 .start :=
  ⟨rfl, rfl, rfl, rfl⟩
theorem witness_OneStepCommandsCompleteAtOnce : multiStep .nop = false ∧ multiStep .pktChk = false := by decide
theorem witness_FailingCommandChangesNothingElse :
    specError .fft State.reset = some .tagMismatch ∧ specError .synthFix State.reset = some .cfgInvalid
      ∧ (multiStep .btx = true → ∃ w, (running 0x0B .start).seq = .run w .start)
      ∧ specError .btx (running 0x0B .start) = some .lenInvalid :=
  ⟨by decide +kernel, by decide +kernel, fun _ => ⟨_, rfl⟩, by decide +kernel⟩
theorem witness_SynthFixResult :
    specSynthReady { cfg1 with len := 1 } ∧ specSynthReady { cfg1 with len := 4096, numTones := 8 }
      ∧ specSynthReady { cfg1 with len := 4097, numTones := 9 } := by unfold specSynthReady; decide +kernel
theorem witness_FloatSynthResult :
    specSynthReady { cfg1 with len := 1 } ∧ specSynthReady { cfg1 with len := 4097, numTones := 9, noiseAmp := 1 } := by
  unfold specSynthReady; decide +kernel
/-- Two machines that differ in SCR and agree on the operands. -/
theorem witness_SynthDependsOnOperandsOnly :
    let s₁ : State := { State.reset with cfg := cfg1 }
    let s₂ : State := { loaded [7] .u16 .none 1 with cfg := { cfg1 with pktSeq := 9 } }
    specSynthReady s₁.cfg ∧ s₁.cfg.sigSrc = s₂.cfg.sigSrc ∧ s₁.cfg.fs = s₂.cfg.fs ∧ s₁.cfg.vref = s₂.cfg.vref
      ∧ s₁.cfg.dcOffset = s₂.cfg.dcOffset ∧ s₁.cfg.len = s₂.cfg.len ∧ s₁.cfg.numTones = s₂.cfg.numTones
      ∧ s₁.cfg.freq = s₂.cfg.freq ∧ s₁.cfg.amp = s₂.cfg.amp ∧ s₁.cfg.noiseAmp = s₂.cfg.noiseAmp
      ∧ s₁.cfg.noiseSeed = s₂.cfg.noiseSeed ∧ exec .synthFix s₁ = .next (after .synthFix s₁)
      ∧ exec .synthFix s₂ = .next (after .synthFix s₂) := by
  refine ⟨by unfold specSynthReady; decide +kernel, rfl, rfl, rfl, rfl, rfl, rfl, rfl, rfl, rfl, rfl, rfl, rfl⟩
theorem witness_SynthOutputInRange :
    specSynthReady cfg1 ∧ 0 < min cfg1.len.toNat 4096 ∧ 3 < min cfg1.len.toNat 4096
      ∧ exec .synthFix { State.reset with cfg := cfg1 } = .next (after .synthFix { State.reset with cfg := cfg1 })
      ∧ exec .synthF32 { State.reset with cfg := cfg1 } = .next (after .synthF32 { State.reset with cfg := cfg1 })
      ∧ exec .synthU16 { State.reset with cfg := cfg1 } = .next (after .synthU16 { State.reset with cfg := cfg1 }) :=
  ⟨by unfold specSynthReady; decide +kernel, by decide +kernel, by decide +kernel, rfl, rfl, rfl⟩
theorem witness_NoiseAndCodeConversionsAreExact : 65535 < 65536 := by decide
theorem witness_SinLutIsTheRoundedSine : 0 < 1024 ∧ 1023 < 1024 := by decide
theorem witness_FirResult :
    let s : State := { loaded [1, 2] .u16 .none 1 with cfg := { Cfg.reset with firTapsLp := 1, firTapsBp := 64 } }
    ((Instr.firLp = .firLp ∧ s.cfg.coefLp = s.cfg.coefLp ∧ 1 = s.cfg.firTapsLp.toNat)
      ∧ (Instr.firBp = .firBp ∧ s.cfg.coefBp = s.cfg.coefBp ∧ 64 = s.cfg.firTapsBp.toNat))
      ∧ s.tag.kind = .u16 ∧ s.tag.count ≠ 0 ∧ (loaded [] .f32Phys .none 4096).tag.kind = .f32Phys
      ∧ (loaded [] .f32Phys .none 4096).tag.count ≠ 0 := by decide +kernel
theorem witness_NormFResult :
    (loaded [1] .u16 .none 1).tag.count ≠ 0 ∧ (loaded [1] .u16 .none 1).tag.kind = .u16
      ∧ (loaded [1] .f32Phys .none 4096).tag.count ≠ 0 ∧ (loaded [1] .f32Phys .none 4096).tag.kind = .f32Phys
      ∧ (loaded [1] .f32Phys .none 4096).cfg.vref ≠ 0 := by decide +kernel
theorem witness_NormQResult :
    (loaded [1] .u16 .none 1).tag.count ≠ 0 ∧ (loaded [1] .u16 .none 1).tag.kind = .u16 := by decide +kernel
theorem witness_WindowResult :
    (Instr.winHann, Win.hann) ∈ [(Instr.winBlackman, Win.blackman), (.winHamming, .hamming), (.winHann, .hann)]
      ∧ (loaded [1] .f32N .none 2).tag.kind = .f32N ∧ (loaded [1] .f32N .none 2).tag.win = .none
      ∧ 2 ≤ (loaded [1] .f32N .none 2).tag.count.toNat ∧ (loaded [1] .q15 .none 4096).tag.kind = .q15
      ∧ 2 ≤ (loaded [1] .q15 .none 4096).tag.count.toNat := by decide +kernel
theorem witness_WindowTablesFitTheWindow :
    Win.hann ≠ .none ∧ 2 ≤ 2 ∧ 4096 ≤ 4096 ∧ 4095 < 4096
      ∧ (∃ r : ℝ, IsWindowValue .hann 2 0 r) ∧ ∃ r : ℝ, IsWindowValue .blackman 4096 4095 r :=
  ⟨by decide, by decide, by decide, by decide, ⟨_, rfl⟩, ⟨_, rfl⟩⟩
theorem witness_FftOnFloatResult :
    (loaded [] .f32N .none 31).tag.kind = .f32N ∧ 2 ^ 4 ≤ (loaded [] .f32N .none 31).tag.count.toNat
      ∧ (loaded [] .f32N .none 31).tag.count.toNat < 2 ^ 5 ∧ 2 ^ 12 ≤ (loaded [] .f32N .none 4096).tag.count.toNat := by
  decide +kernel
theorem witness_FftOnQ15Result :
    (loaded [] .q15 .hann 16).tag.kind = .q15 ∧ 2 ^ 4 ≤ (loaded [] .q15 .hann 16).tag.count.toNat
      ∧ (loaded [] .q15 .hann 16).tag.count.toNat < 2 ^ 5 ∧ 2 ^ 12 ≤ (loaded [] .q15 .hann 4096).tag.count.toNat := by
  decide +kernel
theorem witness_FftOfQ15Impulse : 4 ≤ 4 ∧ 12 ≤ 12 ∧ (-32768 : Int) ≤ -32768 ∧ (32767 : Int) ≤ 32767 := by decide
theorem witness_TwiddlesAreTheRoundedRoots :
    16 ∈ [16, 32, 64, 128, 256, 512, 1024, 2048, 4096] ∧ 7 < 16 / 2
      ∧ 4096 ∈ [16, 32, 64, 128, 256, 512, 1024, 2048, 4096] ∧ 2047 < 4096 / 2 := by decide
theorem witness_MagResult :
    (loaded [] .f32Spec .hann 16).tag.kind = .f32Spec
      ∧ (loaded [] .f32Spec .hann 16).tag.count.toNat ∈ [16, 32, 64, 128, 256, 512, 1024, 2048, 4096]
      ∧ ((loaded [] .f32Spec .hann 16).tag.win, 50, 32768) ∈
        [(Win.none, 100, 16384), (.blackman, 42, 39010), (.hamming, 54, 30341), (.hann, 50, 32768)]
      ∧ (loaded [] .q15Spec .none 4096).tag.kind = .q15Spec
      ∧ (loaded [] .q15Spec .none 4096).tag.count.toNat ∈ [16, 32, 64, 128, 256, 512, 1024, 2048, 4096] := by
  decide +kernel
/-- 1.0 and 1.0, and the largest finite value with 0: every clause's premises hold. -/
theorem witness_FloatOpsRoundToNearestEven :
    f32IsFinite 0x3F800000 = true ∧ f32IsFinite 0x7F7FFFFF = true ∧ f32Int 0x3F800000 = 2 ^ 149
      ∧ (0 : Int) ≤ f32Int 0x3F800000
      ∧ |(f32Int 0x3F800000 : ℝ) / 2 ^ 149 + (f32Int 0x3F800000 : ℝ) / 2 ^ 149| < 2 ^ 128 - 2 ^ 103
      ∧ |(f32Int 0x3F800000 : ℝ) / 2 ^ 149 - (f32Int 0x3F800000 : ℝ) / 2 ^ 149| < 2 ^ 128 - 2 ^ 103
      ∧ |(f32Int 0x3F800000 : ℝ) / 2 ^ 149 * ((f32Int 0x3F800000 : ℝ) / 2 ^ 149)| < 2 ^ 128 - 2 ^ 103
      ∧ |(f32Int 0x3F800000 : ℝ) / 2 ^ 149 / ((f32Int 0x3F800000 : ℝ) / 2 ^ 149)| < 2 ^ 128 - 2 ^ 103 := by
  have h : f32Int 0x3F800000 = 2 ^ 149 := by decide +kernel
  refine ⟨by decide +kernel, by decide +kernel, h, by rw [h]; positivity, ?_, ?_, ?_, ?_⟩ <;> rw [h] <;> norm_num
/-- A NaN, an infinity, zeros and a negative value; the largest finite value twice and its sum and square past the
overflow boundary; a rational and the largest register value. -/
theorem witness_FloatSpecialValues :
    (f32IsNan 0x7F800001 && f32IsInf 0xFF800000 && f32IsInf 0x7F800000
        && [0x80000000, 0xBF800000, 0x7F7FFFFF, 0xFF7FFFFF].all f32IsFinite) = true
      ∧ (f32Int 0x80000000 = 0 ∧ f32Int 0xBF800000 < 0 ∧ f32Int 0x00000001 = 1
        ∧ f32Int 0x7F7FFFFF = (2 ^ 24 - 1) * 2 ^ 253)
      ∧ |((1 : Int) : ℝ) / (3 : Nat)| < 2 ^ 128 - 2 ^ 103
      ∧ ∀ m : ℝ, m = (2 ^ 24 - 1) * 2 ^ 253 / 2 ^ 149 →
        2 ^ 128 - 2 ^ 103 ≤ |m + m| ∧ 2 ^ 128 - 2 ^ 103 ≤ |m - -m| ∧ 2 ^ 128 - 2 ^ 103 ≤ |m * m|
          ∧ 2 ^ 128 - 2 ^ 103 ≤ |m / (1 / 2 ^ 149)| := by
  refine ⟨by decide +kernel, by decide +kernel, by norm_num [abs_of_pos], ?_⟩
  rintro m rfl
  refine ⟨?_, ?_, ?_, ?_⟩ <;> exact le_abs.2 (.inl (by norm_num))
theorem witness_CrcDetectsOneChangedByte : (0x00 : Byte) ≠ 0x80 := by decide
theorem witness_CrcCommandsResult :
    (32767 : BitVec 15).toNat + (1 : BitVec 16).toNat ≤ 32768 ∧ (0 : BitVec 15).toNat + (32768 : BitVec 16).toNat ≤ 32768 := by
  decide
theorem witness_StreamingCommandSteps :
    (0x00000008#32, Instr.sendB) ∈ [(0x00000008#32, Instr.sendB), (0x00000108#32, .sendH), (0x0000000A#32, .pktBld)]
      ∧ (running 0x08 .start).seq = .run 0x08 .start ∧ specError .sendB (running 0x08 .start) = none
      ∧ specError .sendH (running 0x108 .start) = none ∧ specError .pktBld (running 0x0A .start) = none
      ∧ (running 0x08 (.push [1, 2])).seq = .run 0x08 (.push (1 :: [2])) ∧ ¬ (running 0x08 (.push [1, 2])).tx.fullView
      ∧ ({ running 0x08 (.push [1]) with tx := fullFifo }).tx.fullView
      ∧ specError .sendB (running 0x08 (.push [])) = none := by unfold Fifo.fullView; decide +kernel
theorem witness_StreamedBytesAreConserved :
    let s : State := { running 0x08 (.push [0x41]) with
      cfg := { Cfg.reset with srcLen := 1 }, scr := [(0, 0x41)] }
    s.safe = true ∧ AgentStep.isReset .seq = false ∧ s.seq = .run 0x08 (.push [0x41])
      ∧ s.agentStep .seq = .next (after .sendB s) := by
  refine ⟨by decide +kernel, rfl, rfl, rfl⟩
theorem witness_StreamSendsTheWholeSequence :
    let s : State := { running 0x08 .start with cfg := { Cfg.reset with srcLen := 2 }, scr := [(0, 0x41)]
                                                inputs := [.seq] ++ (List.replicate 2 lineRound).flatten ++ [.seq] }
    (0x00000008#32, Instr.sendB) ∈ [(0x00000008#32, Instr.sendB), (0x00000108#32, .sendH), (0x0000000A#32, .pktBld)]
      ∧ s.seq = .run 0x08 .start ∧ specError .sendB s = none ∧ s.tx.drained = true
      ∧ 2 = (specStream .sendB s).length
      ∧ s.inputs = [.seq] ++ (List.replicate 2 lineRound).flatten ++ [.seq] := by decide +kernel
theorem witness_PktChkResult : (32635 : BitVec 15).toNat + 133 ≤ 32768 := by decide
theorem witness_BuiltPacketIsValid : (List.replicate 128 (0x1A : Byte)).length = 128 ∧ (2 : Byte) ≠ 1 := by
  decide +kernel
theorem witness_CorruptedPacketIsInvalid :
    (List.replicate 128 (0x1A : Byte)).length = 128 ∧ 127 < 128
      ∧ (List.replicate 128 (0x1A : Byte))[127]? ≠ some 0x1B ∧ (0xFF : Byte) ≠ 255#8 - 0x01 := by
  decide +kernel
theorem witness_BtxStartStep :
    let s : State := { running 0x0B .start with cfg := { Cfg.reset with srcAddr := 32767, srcLen := 1 } }
    s.seq = .run 0x0B .start ∧ s.cfg.srcLen ≠ 0 ∧ s.cfg.srcAddr.toNat + s.cfg.srcLen.toNat ≤ 32768 := by decide +kernel
/-- AWAIT_START: a cancel request, the timeout, no byte, 'C', CAN and another byte are all possible. -/
theorem witness_BtxAwaitStartStep :
    (engine .awaitStart [] 0).inEngine .awaitStart ∧ ({ engine .awaitStart [] 0 with rx := rxWith 0x43 }).inEngine .awaitStart
      ∧ (rxWith 0x43).front = 0x43 ∧ (rxWith 0x43).rp ≠ ungray (rxWith 0x43).wps
      ∧ specElapsed { engine .awaitStart [] 0 with tick := 10000 } 10000 = true
      ∧ specElapsed { engine .awaitStart [] 0 with tick := 9999 } 10000 = false := by
  unfold State.inEngine; decide +kernel
theorem witness_BtxPushingStates :
    (engine .sending [1, 2] 0).inEngine .sending ∧ (engine .sending [1, 2] 0).bt.cancelReq = false
      ∧ ¬ (engine .sending [1, 2] 0).tx.fullView ∧ (engine .sending [1, 2] 0).bt.outq = 1 :: [2]
      ∧ (engine .sending [1] 0).bt.outq = [1] ∧ (engine .sendEot [4] 1).inEngine .sendEot
      ∧ (engine .aborted [0x18] 0).inEngine .aborted ∧ (engine .aborted [0x18] 0).bt.outq = 0x18 :: []
      ∧ fullFifo.fullView
      ∧ (let s : State := { engine .aborted [] 0 with bt := { BtEngine.reset with state := .aborted, code := .btTimeout } }
        s.inEngine .aborted ∧ s.bt.outq = [] ∧ s.bt.code ≠ .ok)
      ∧ (let s : State := { engine .sending [1] 0 with bt := { BtEngine.reset with state := .sending, cancelReq := true } }
        s.inEngine .sending ∧ s.bt.cancelReq = true) := by
  unfold State.inEngine Fifo.fullView; decide +kernel
theorem witness_BtxWaitAckStep :
    (engine .waitAck [] 0).inEngine .waitAck ∧ ({ engine .waitAck [] 0 with rx := rxWith 0x06 }).inEngine .waitAck
      ∧ (rxWith 0x06).front = 0x06 ∧ (rxWith 0x15).front = 0x15 ∧ (rxWith 0x18).front = 0x18 := by
  unfold State.inEngine; decide +kernel
theorem witness_BtxWaitEotAckStep :
    (engine .waitEotAck [] 1).inEngine .waitEotAck
      ∧ ({ engine .waitEotAck [] 1 with rx := rxWith 0x06 }).inEngine .waitEotAck := by
  unfold State.inEngine; decide +kernel
theorem witness_BtxDeliversEveryBlock :
    let s : State := { running 0x0B .start with cfg := { Cfg.reset with srcLen := 129 }, inputs := btxSchedule 2 }
    s.seq = .run 0x0B .start ∧ specError .btx s = none ∧ s.cfg.btToStart ≠ 0 ∧ s.cfg.btToAck ≠ 0
      ∧ s.tx.drained = true ∧ s.rx.drained = true ∧ 2 = (s.cfg.srcLen.toNat + 127) / 128 ∧ s.inputs = btxSchedule 2 :=
  ⟨rfl, by decide +kernel⟩
theorem witness_CtrlWriteActions :
    (0x3 : Word).getLsbD 0 = true ∧ (0x2 : Word).getLsbD 0 = false ∧ (0x2 : Word).getLsbD 1 = true
      ∧ (∃ p, (engine .waitEotAck [] 1).seq = .run 0x0B p) ∧ 1 ≤ specBtNumber (engine .awaitStart [] 0).bt.state
      ∧ specBtNumber (engine .waitEotAck [] 1).bt.state ≤ 5 ∧ (∀ p, State.reset.seq ≠ .run 0x0B p)
      ∧ State.reset.bt.state ∈ [BtState.idle, .complete, .aborted] :=
  ⟨by decide, by decide, by decide, ⟨_, rfl⟩, by decide, by decide, (fun p h => by cases h), by decide⟩
theorem witness_FifoKeepsOrder :
    Fifo.reset.safe = true ∧ Fifo.reset.seesFull = false ∧ (rxWith 1).safe = true ∧ (rxWith 1).seesEmpty = false
      ∧ Fifo.reset.drained = true ∧ (List.replicate 255 (7 : Byte)).length < 256 := by decide +kernel
theorem witness_AgentStepsBesideTheCore :
    ({ State.reset with rx := fullFifo }).rx.fullView ∧ ¬ State.reset.rx.fullView
      ∧ ({ State.reset with tx := rxWith 7 }).tx.rp ≠ ungray ({ State.reset with tx := rxWith 7 }).tx.wps := by
  unfold Fifo.fullView; decide +kernel
theorem witness_SerialDataDoors :
    (∃ p, (engine .sending [1] 0).seq = .run 0x0B p) ∧ State.reset.rx.rp = ungray State.reset.rx.wps
      ∧ (∀ p, ({ State.reset with rx := rxWith 7 }).seq ≠ .run 0x0B p) ∧ (rxWith 7).rp ≠ ungray (rxWith 7).wps
      ∧ (running 0x05 .start).seq ≠ .idle ∧ State.reset.seq = .idle ∧ fullFifo.fullView ∧ ¬ Fifo.reset.fullView :=
  ⟨⟨_, rfl⟩, by decide, (fun p h => by cases h), by decide, by decide, rfl, (by unfold Fifo.fullView; decide),
    (by unfold Fifo.fullView; decide)⟩
theorem witness_ScratchAccesses :
    State.reset.seq = .idle ∧ (running 0x05 .start).seq ≠ .idle ∧ 32767 < 32768 ∧ 32767 % AccSize.bytes .byte = 0 ∧ 32766 % AccSize.bytes .half = 0
      ∧ 32764 % AccSize.bytes .word = 0 := by decide
theorem witness_ForbiddenAndReservedAccesses :
    forbiddenAccess 0x7FFE .word ∧ forbiddenAccess 0x7FFC .half ∧ forbiddenAccess 0x8001 .half ∧ forbiddenAccess 0xFFFE .word
      ∧ [0x28, 0x3C, 0xA4, 0xFC, 0x140, 0x3FC, 0x600, 0x7FFC].all reservedAddr = true
      ∧ [0x00, 0x08, 0x18, 0x24, 0x70, 0x74, 0x7C, 0x8C, 0x90, 0x94, 0x7FFC].all writeIgnored = true
      ∧ [0x20, 0xA0, 0x100, 0x13C, 0x400, 0x5FC, 0x8000].all reservedAddr = false := by
  unfold forbiddenAccess; decide +kernel
theorem witness_RegisterReadsAnswerTheState :
    let s : State := { engine .waitAck [] 3 with
      errCode := .btCancelHost, tag := ⟨.q15Mag, .hann, 4096⟩, blocksAcked := 256 }
    specReadings s ≠ [] ∧ (specReadings s).getD 5 (0, 0) = (0x0018, 10)
      ∧ (specReadings s).getD 7 (0, 0) = (0x0020, 0x10000038) ∧ (specReadings s).getD 28 (0, 0) = (0x008C, 256)
      ∧ (specReadings s).getD 176 (0, 0) = (0x05FC, 0) ∧ (specReadings s).length = 177 :=
  ⟨List.cons_ne_nil _ _, rfl, rfl, rfl, rfl, rfl⟩
theorem witness_RegisterWritesAreReadBack :
    State.reset.seq = .idle ∧ storeRegs.contains (0x0010, 0x3FF) = true ∧ storeRegs.contains (0x05FC, 0xFFFFFFFF) = true
      ∧ (0x05FC : BitVec 16) ≠ 0x0010 := by decide +kernel
theorem witness_ControlRegisterWrites :
    State.reset.seq = .idle ∧ (8 : Word).toNat % 16 ≤ 8 ∧ 8 < (9 : Word).toNat % 16 ∧ 7 < 8 ∧ 2 < 3 := by decide
theorem witness_ResetState : 15 < 16 := by decide
theorem witness_MemoryStaysCanonical :
    (loaded [0x00410000] .empty .none 0).scr.wf = true
      ∧ step (loaded [0x00410000] .empty .none 0) = .next (loaded [0x00410000] .empty .none 0) :=
  ⟨by decide +kernel, rfl⟩
/-- A safe state in the middle of a BTX, and its step. -/
theorem witness_SafetyIsInvariant :
    (engine .waitAck [] 0).safe = true ∧ step (engine .waitAck [] 0) = .next (engine .waitAck [] 0).btEngineStep :=
  ⟨by decide +kernel, rfl⟩
theorem witness_ResetIsSafe : Memory.wf [(0, 0x41), (32767, 0x01)] = true := by decide +kernel

end Sys2Proof.Tests
end

section
/-! The integer square root of spec/00_scope.md R11. -/

namespace Sys2Proof.Proofs

open Sys2Proof.Machine

/-- Each base-4 digit of the operand adds one binary digit to the root. -/
theorem isqrtAux_eq_sqrt (fuel n : Nat) (h : n < 4 ^ fuel) : isqrtAux fuel n = Nat.sqrt n := by
  induction fuel generalizing n with
  | zero =>
    obtain rfl : n = 0 := by simpa using h
    rfl
  | succ k ih =>
    have hroot := ih (n / 4) (by rw [pow_succ] at h; omega)
    have hlow := Nat.sqrt_le (n / 4)
    have hup := Nat.lt_succ_sqrt (n / 4)
    simp only [isqrtAux, hroot]
    rw [Nat.succ_eq_add_one] at hup
    generalize Nat.sqrt (n / 4) = r at hlow hup
    have hsq : 2 * r * (2 * r) = 4 * (r * r) := by ring
    have hsq2 : (2 * r + 1 + 1) * (2 * r + 1 + 1) = 4 * ((r + 1) * (r + 1)) := by ring
    split <;> rw [Nat.eq_sqrt] <;> constructor <;> omega

theorem isqrt_eq_sqrt (n : Nat) : isqrt n = Nat.sqrt n := by
  refine isqrtAux_eq_sqrt _ n ?_
  calc n < 2 ^ (Nat.log2 n + 1) := Nat.lt_log2_self
    _ ≤ 2 ^ (2 * (Nat.log2 n / 2 + 1)) := Nat.pow_le_pow_right (by norm_num) (by omega)
    _ = 4 ^ (Nat.log2 n / 2 + 1) := pow_mul 2 2 _

/-- Settles O28: isqrt agrees with Mathlib's square root. -/
theorem isqrtIsTheFloorRoot : Obligations.IsqrtIsTheFloorRoot := by
  intro p
  rw [isqrt_eq_sqrt]
  exact ⟨Nat.sqrt_le p, fun m hm => Nat.le_sqrt.2 hm⟩

end Sys2Proof.Proofs
end

section
/-! Facts about binary32 patterns: the classes, the sizes and the signs of the values, and the rounding of a real number
(spec/00_scope.md R13). -/

namespace Sys2Proof.Proofs

open Sys2Proof Sys2Proof.Machine

/-! ### Classes -/

theorem isNan_of_finite {x : F32} (h : f32IsFinite x = true) : f32IsNan x = false := by
  have he : f32Exp x ≠ 255 := by simpa [f32IsFinite] using h
  simp [f32IsNan, he]

theorem isInf_of_finite {x : F32} (h : f32IsFinite x = true) : f32IsInf x = false := by
  have he : f32Exp x ≠ 255 := by simpa [f32IsFinite] using h
  simp [f32IsInf, he]

theorem isNan_of_inf {x : F32} (h : f32IsInf x = true) : f32IsNan x = false := by
  obtain ⟨he, hf⟩ : f32Exp x = 255 ∧ f32Frac x = 0 := by simpa [f32IsInf] using h
  simp [f32IsNan, hf]

theorem isFinite_of_inf {x : F32} (h : f32IsInf x = true) : f32IsFinite x = false := by
  obtain ⟨he, hf⟩ : f32Exp x = 255 ∧ f32Frac x = 0 := by simpa [f32IsInf] using h
  simp [f32IsFinite, he]

/-! ### Values as signed magnitudes -/

/-- The sign of a value, as a factor. -/
def signFactor (neg : Bool) : ℝ := if neg then -1 else 1

@[simp] theorem abs_signFactor (neg : Bool) : |signFactor neg| = 1 := by
  cases neg <;> simp [signFactor]

/-- The sign of a product or quotient: operands of different sign give a negative result. -/
theorem signFactor_bne (a b : Bool) : signFactor (a != b) = signFactor a * signFactor b := by
  cases a <;> cases b <;> simp [signFactor]

theorem signFactor_div (a b : Bool) : signFactor a / signFactor b = signFactor (a != b) := by
  cases a <;> cases b <;> simp [signFactor]

theorem f32Int_eq_signFactor (x : F32) : (f32Int x : ℝ) = signFactor (f32Neg x) * f32Units x := by
  cases h : f32Neg x <;> simp [f32Int, signFactor, h]

theorem f32Int_natAbs (x : F32) : (f32Int x).natAbs = f32Units x := by
  unfold f32Int; split <;> simp

theorem f32Int_eq_zero_iff (x : F32) : f32Int x = 0 ↔ f32Units x = 0 := by
  rw [← f32Int_natAbs, Int.natAbs_eq_zero]

theorem intCast_eq_signFactor (n : Int) : (n : ℝ) = signFactor (decide (n < 0)) * n.natAbs := by
  rcases lt_or_ge n 0 with h | h
  · simp [signFactor, h, Nat.cast_natAbs, abs_of_neg]
  · simp [signFactor, h, Nat.cast_natAbs, abs_of_nonneg]

theorem f32Units_le_of_finite {x : F32} (h : f32IsFinite x = true) : f32Units x ≤ (2 ^ 24 - 1) * 2 ^ 253 := by
  obtain ⟨_, hexp, hfrac⟩ := f32_fields x
  have he : f32Exp x ≠ 255 := by simpa [f32IsFinite] using h
  unfold f32Units
  split
  · omega
  · exact Nat.mul_le_mul (by omega) (Nat.pow_le_pow_right (by norm_num) (by omega))

/-- An odd number of units has no factor 2 to spare for an exponent, so it fits the 24 bits of the significand. -/
theorem f32Int_even_or_small (x : F32) : f32Int x % 2 = 0 ∨ f32Int x < 2 ^ 24 := by
  obtain ⟨m, k, hu, hm⟩ := f32Units_form x
  have habs := f32Int_natAbs x
  rcases Nat.eq_zero_or_pos k with rfl | hk
  · right; rw [pow_zero, Nat.mul_one] at hu; omega
  · left
    obtain ⟨j, rfl⟩ : ∃ j, k = j + 1 := ⟨k - 1, by omega⟩
    have : f32Units x = 2 * (m * 2 ^ j) := by rw [hu, pow_succ]; ring
    omega

/-! ### Zeros and infinities as patterns -/

theorem f32Pack_inf (neg : Bool) : f32Pack neg f32Inf = specInf neg := by cases neg <;> rfl

theorem f32Pack_zero (neg : Bool) : f32Pack neg 0 = specZero neg := by cases neg <;> rfl

theorem eq_specInf_of_inf {x : F32} (h : f32IsInf x = true) : x = specInf (f32Neg x) := by
  obtain ⟨he, hf⟩ : f32Exp x = 255 ∧ f32Frac x = 0 := by simpa [f32IsInf] using h
  obtain ⟨hx, _, _⟩ := f32_fields x
  rw [he, hf] at hx
  apply BitVec.eq_of_toNat_eq
  cases hn : f32Neg x <;> rw [hn] at hx <;> simpa [specInf] using hx

/-! ### Rounding a real number -/

@[simp] theorem f32RoundMag_zero (den : Nat) : f32RoundMag 0 den = 0 := by
  simp [f32RoundMag, rne, f32Inf]

theorem f32RoundMag_lt (num den : Nat) : f32RoundMag num den < 2 ^ 31 :=
  lt_of_le_of_lt (min_le_right _ f32Inf) (by decide)

@[simp] theorem f32Neg_pack_round (neg : Bool) (num den : Nat) : f32Neg (f32Pack neg (f32RoundMag num den)) = neg :=
  (f32Pack_fields neg _ (f32RoundMag_lt num den)).1

/-- The overflow boundary in units is an odd multiple of 2^252: half of the last place above the largest finite value. -/
theorem overflow_units_eq : 2 ^ 277 - 2 ^ 252 = (2 ^ 25 - 1) * 2 ^ 252 := by
  rw [Nat.sub_mul, one_mul, ← pow_add]

/-- The overflow boundary for a real number and for the fraction of units it is rounded from. -/
theorem abs_lt_overflow_iff {neg : Bool} {num den : Nat} {r : ℝ} (hd : 0 < den)
    (hr : r = signFactor neg * ((num : ℝ) / den) / 2 ^ 149) :
    |r| < 2 ^ 128 - 2 ^ 103 ↔ num < (2 ^ 25 - 1) * 2 ^ 252 * den := by
  have hd' : (0 : ℝ) < den := by exact_mod_cast hd
  have habs : |r| = (num : ℝ) / den / 2 ^ 149 := by
    rw [hr, abs_div, abs_mul, abs_signFactor, one_mul, abs_of_nonneg (by positivity), abs_of_pos (by positivity)]
  have hb : ((2 : ℝ) ^ 128 - 2 ^ 103) * 2 ^ 149 = (2 ^ 25 - 1) * 2 ^ 252 := by norm_num
  rw [habs, div_lt_iff₀ (by positivity), hb, div_lt_iff₀ hd']
  have hc : (((2 ^ 25 - 1) * 2 ^ 252 * den : Nat) : ℝ) = (2 ^ 25 - 1) * 2 ^ 252 * den := by norm_num
  rw [← hc, Nat.cast_lt]

theorem isNearest_pack {neg : Bool} {num den : Nat} {r : ℝ} (hd : 0 < den)
    (hr : r = signFactor neg * ((num : ℝ) / den) / 2 ^ 149) (h : |r| < 2 ^ 128 - 2 ^ 103) :
    IsNearestF32 (f32Pack neg (f32RoundMag num den)) r := by
  have hn := (abs_lt_overflow_iff hd hr).1 h
  rw [← overflow_units_eq] at hn
  rw [hr]
  exact f32Pack_isNearest neg num den hd hn

theorem pack_overflow {neg : Bool} {num den : Nat} {r : ℝ} (hd : 0 < den)
    (hr : r = signFactor neg * ((num : ℝ) / den) / 2 ^ 149) (h : 2 ^ 128 - 2 ^ 103 ≤ |r|) :
    f32Pack neg (f32RoundMag num den) = specInf neg := by
  have hn := Nat.le_of_not_lt ((abs_lt_overflow_iff hd hr).not.1 h.not_gt)
  rw [← overflow_units_eq] at hn
  rw [f32RoundMag_overflow num den hd hn, f32Pack_inf]

theorem isNearest_self {x : F32} (h : f32IsFinite x = true) : IsNearestF32 x ((f32Int x : ℝ) / 2 ^ 149) := by
  refine ⟨h, fun y _ => ?_⟩
  rw [sub_self, abs_zero]
  refine ⟨abs_nonneg _, fun he => .inl ?_⟩
  have := (div_left_inj' (by positivity : (2 : ℝ) ^ 149 ≠ 0)).1 (sub_eq_zero.1 (abs_eq_zero.1 he.symm))
  exact_mod_cast this.symm

end Sys2Proof.Proofs
end
section
/-! What each binary32 operation computes on finite operands: the pattern rounded from an exact fraction of units,
and that fraction as a real number (spec/00_scope.md R13). -/

namespace Sys2Proof.Proofs

open Sys2Proof Sys2Proof.Machine

section
variable {x y : F32} (hx : f32IsFinite x = true) (hy : f32IsFinite y = true)
include hx hy

theorem f32Add_of_zero (h : f32Int x + f32Int y = 0) : f32Add x y = specZero (f32Neg x && f32Neg y) := by
  simp [f32Add, isNan_of_finite, isInf_of_finite, hx, hy, h, f32Pack_zero]

theorem f32Add_of_ne_zero (h : f32Int x + f32Int y ≠ 0) :
    f32Add x y = f32Pack (decide (f32Int x + f32Int y < 0)) (f32RoundMag (f32Int x + f32Int y).natAbs 1) := by
  simp [f32Add, isNan_of_finite, isInf_of_finite, hx, hy, h]

theorem f32Mul_of_finite :
    f32Mul x y = f32Pack (f32Neg x != f32Neg y) (f32RoundMag (f32Units x * f32Units y) (2 ^ 149)) := by
  simp [f32Mul, isNan_of_finite, isInf_of_finite, hx, hy]

theorem f32Div_of_finite (h : f32Units y ≠ 0) :
    f32Div x y = f32Pack (f32Neg x != f32Neg y) (f32RoundMag (f32Units x * 2 ^ 149) (f32Units y)) := by
  simp [f32Div, isNan_of_finite, isInf_of_finite, hx, hy, h]

end

theorem sum_eq_units (x y : F32) : (f32Int x : ℝ) / 2 ^ 149 + (f32Int y : ℝ) / 2 ^ 149
    = signFactor (decide (f32Int x + f32Int y < 0)) * (((f32Int x + f32Int y).natAbs : ℝ) / (1 : Nat)) / 2 ^ 149 := by
  rw [Nat.cast_one, div_one, ← intCast_eq_signFactor]
  push_cast; ring

theorem product_eq_units (x y : F32) : (f32Int x : ℝ) / 2 ^ 149 * ((f32Int y : ℝ) / 2 ^ 149)
    = signFactor (f32Neg x != f32Neg y) * (((f32Units x * f32Units y : Nat) : ℝ) / (2 ^ 149 : Nat)) / 2 ^ 149 := by
  rw [f32Int_eq_signFactor, f32Int_eq_signFactor, signFactor_bne]
  push_cast; ring

theorem quotient_eq_units (x y : F32) : (f32Int x : ℝ) / 2 ^ 149 / ((f32Int y : ℝ) / 2 ^ 149)
    = signFactor (f32Neg x != f32Neg y) * (((f32Units x * 2 ^ 149 : Nat) : ℝ) / f32Units y) / 2 ^ 149 := by
  rw [f32Int_eq_signFactor, f32Int_eq_signFactor, ← signFactor_div, div_div_div_cancel_right₀ (by positivity),
    Nat.cast_mul, Nat.cast_pow, Nat.cast_ofNat]
  field_simp

theorem rat_eq_units (num : Int) (den : Nat) : (num : ℝ) / den
    = signFactor (decide (num < 0)) * (((num.natAbs * 2 ^ 149 : Nat) : ℝ) / den) / 2 ^ 149 := by
  conv_lhs => rw [intCast_eq_signFactor]
  rw [Nat.cast_mul, Nat.cast_pow, Nat.cast_ofNat]
  field_simp

theorem f32Sub_value (x y : F32) :
    (f32Int x : ℝ) / 2 ^ 149 - (f32Int y : ℝ) / 2 ^ 149
      = (f32Int x : ℝ) / 2 ^ 149 + (f32Int (f32Flip y) : ℝ) / 2 ^ 149 := by
  rw [(f32Flip_value y).1]; push_cast; ring

/-! ### Correct rounding -/

theorem f32Add_isNearest {x y : F32} (hx : f32IsFinite x = true) (hy : f32IsFinite y = true)
    (h : |(f32Int x : ℝ) / 2 ^ 149 + (f32Int y : ℝ) / 2 ^ 149| < 2 ^ 128 - 2 ^ 103) :
    IsNearestF32 (f32Add x y) ((f32Int x : ℝ) / 2 ^ 149 + (f32Int y : ℝ) / 2 ^ 149) := by
  by_cases hs : f32Int x + f32Int y = 0
  · have hr : (f32Int x : ℝ) / 2 ^ 149 + (f32Int y : ℝ) / 2 ^ 149
        = signFactor (f32Neg x && f32Neg y) * (((0 : Nat) : ℝ) / (1 : Nat)) / 2 ^ 149 := by
      rw [sum_eq_units, hs]; simp
    have hpack := isNearest_pack one_pos hr h
    rwa [f32RoundMag_zero, f32Pack_zero, ← f32Add_of_zero hx hy hs] at hpack
  · rw [f32Add_of_ne_zero hx hy hs]
    exact isNearest_pack one_pos (sum_eq_units x y) h

theorem f32Sub_isNearest {x y : F32} (hx : f32IsFinite x = true) (hy : f32IsFinite y = true)
    (h : |(f32Int x : ℝ) / 2 ^ 149 - (f32Int y : ℝ) / 2 ^ 149| < 2 ^ 128 - 2 ^ 103) :
    IsNearestF32 (f32Sub x y) ((f32Int x : ℝ) / 2 ^ 149 - (f32Int y : ℝ) / 2 ^ 149) := by
  obtain ⟨_, hfin, _, _⟩ := f32Flip_value y
  rw [f32Sub_value] at h ⊢
  exact f32Add_isNearest hx (hfin.trans hy) h

theorem f32Mul_isNearest {x y : F32} (hx : f32IsFinite x = true) (hy : f32IsFinite y = true)
    (h : |(f32Int x : ℝ) / 2 ^ 149 * ((f32Int y : ℝ) / 2 ^ 149)| < 2 ^ 128 - 2 ^ 103) :
    IsNearestF32 (f32Mul x y) ((f32Int x : ℝ) / 2 ^ 149 * ((f32Int y : ℝ) / 2 ^ 149)) := by
  rw [f32Mul_of_finite hx hy]
  exact isNearest_pack (by positivity) (product_eq_units x y) h

theorem f32Div_isNearest {x y : F32} (hx : f32IsFinite x = true) (hy : f32IsFinite y = true) (hy0 : f32Int y ≠ 0)
    (h : |(f32Int x : ℝ) / 2 ^ 149 / ((f32Int y : ℝ) / 2 ^ 149)| < 2 ^ 128 - 2 ^ 103) :
    IsNearestF32 (f32Div x y) ((f32Int x : ℝ) / 2 ^ 149 / ((f32Int y : ℝ) / 2 ^ 149)) := by
  have hu : f32Units y ≠ 0 := (f32Int_eq_zero_iff y).not.1 hy0
  rw [f32Div_of_finite hx hy hu]
  exact isNearest_pack (Nat.pos_of_ne_zero hu) (quotient_eq_units x y) h

/-! ### The square root -/

/-- The midpoint of two even values is an integer, and an odd value Y lies far below r: so the midpoint of X and Y is
never strictly between r and r + 1. -/
theorem midpoint_not_between {X Y r : Int} (hX : X % 2 = 0) (hup : X ≤ 2 * r + 1 - 2 ^ 74)
    (hY : Y % 2 = 0 ∨ Y < 2 ^ 24) (h : |2 * X - (2 * r + 1)| ≤ |2 * Y - (2 * r + 1)|) :
    (X < Y → 2 * r + 2 ≤ X + Y) ∧ (Y < X → X + Y ≤ 2 * r) := by
  rcases abs_cases (2 * X - (2 * r + 1)) with ⟨e1, _⟩ | ⟨e1, _⟩ <;>
    rcases abs_cases (2 * Y - (2 * r + 1)) with ⟨e2, _⟩ | ⟨e2, _⟩ <;> omega

theorem abs_sub_div (v w : ℝ) : |v / 2 ^ 149 - w / 2 ^ 149| = |v - w| / 2 ^ 149 := by
  rw [← sub_div, abs_div, abs_of_pos (by positivity : (0 : ℝ) < 2 ^ 149)]

theorem f32Int_two_pow_74 : f32IsFinite 0x1A000000 = true ∧ f32Int 0x1A000000 = 2 ^ 74 := by
  decide

/-- The pattern nearest r + 1/2 units is the one nearest any value strictly between r and r + 1 units, when r has more
than 25 bits. -/
theorem isNearest_of_same_floor {x : F32} {r : Nat} {s : ℝ} (hr : 2 ^ 74 ≤ r) (hlow : (r : ℝ) < s) (hup : s < r + 1)
    (h : IsNearestF32 x (((2 * r + 1 : Nat) : ℝ) / (2 : Nat) / 2 ^ 149)) : IsNearestF32 x (s / 2 ^ 149) := by
  obtain ⟨hx, hnear⟩ := h
  have near (y : F32) (hy : f32IsFinite y = true) :
      |2 * f32Int x - (2 * r + 1)| ≤ |2 * f32Int y - (2 * r + 1 : Int)| := by
    have double (v : Int) :
        (|2 * v - (2 * r + 1 : Int)| : Int) = 2 * |(v : ℝ) - ((2 * r + 1 : Nat) : ℝ) / (2 : Nat)| := by
      rw [Int.cast_abs, ← abs_two (α := ℝ), ← abs_mul]
      push_cast; congr 1; ring
    obtain ⟨hle, _⟩ := hnear y hy
    rw [abs_sub_div, abs_sub_div, div_le_div_iff_of_pos_right (by positivity)] at hle
    have : ((|2 * f32Int x - (2 * r + 1)| : Int) : ℝ) ≤ (|2 * f32Int y - (2 * r + 1 : Int)| : Int) := by
      rw [double, double]; linarith
    exact_mod_cast this
  obtain ⟨hfin74, h74⟩ := f32Int_two_pow_74
  obtain ⟨hX1, hX2⟩ : 2 ^ 74 ≤ f32Int x ∧ f32Int x ≤ 2 * r + 1 - 2 ^ 74 := by
    have h0 := near _ hfin74
    rw [h74, abs_of_nonpos (a := 2 * 2 ^ 74 - (2 * (r : Int) + 1)) (by omega), abs_le] at h0
    omega
  have hXeven : f32Int x % 2 = 0 := (f32Int_even_or_small x).resolve_right (by omega)
  refine ⟨hx, fun y hy => ?_⟩
  obtain ⟨hbelow, habove⟩ := midpoint_not_between hXeven hX2 (f32Int_even_or_small y) (near y hy)
  rw [abs_sub_div, abs_sub_div, div_le_div_iff_of_pos_right (by positivity), div_left_inj' (by positivity)]
  have closer : f32Int x = f32Int y ∨ |(f32Int x : ℝ) - s| < |(f32Int y : ℝ) - s| := by
    rcases lt_trichotomy (f32Int x) (f32Int y) with hlt | heq | hgt
    · right
      have hm : (2 * r + 2 : ℝ) ≤ f32Int x + f32Int y := by exact_mod_cast hbelow hlt
      have hlt' : (f32Int x : ℝ) < f32Int y := by exact_mod_cast hlt
      rw [abs_lt]
      exact ⟨by linarith [le_abs_self ((f32Int y : ℝ) - s)], by linarith [le_abs_self ((f32Int y : ℝ) - s)]⟩
    · exact .inl heq
    · right
      have hm : (f32Int x + f32Int y : ℝ) ≤ 2 * r := by exact_mod_cast habove hgt
      have hgt' : (f32Int y : ℝ) < f32Int x := by exact_mod_cast hgt
      rw [abs_lt]
      exact ⟨by linarith [neg_abs_le ((f32Int y : ℝ) - s)], by linarith [neg_abs_le ((f32Int y : ℝ) - s)]⟩
  rcases closer with heq | hlt
  · rw [heq]; exact ⟨le_rfl, fun _ => .inl rfl⟩
  · exact ⟨hlt.le, fun he => absurd he hlt.ne⟩

theorem f32Neg_of_pos {x : F32} (h : 0 < f32Int x) : f32Neg x = false := by
  by_contra hc
  rw [f32Int, if_pos (by simpa using hc)] at h
  omega

theorem f32Int_of_nonneg {x : F32} (h : 0 ≤ f32Int x) : f32Int x = f32Units x := by
  rw [← f32Int_natAbs]; omega

theorem f32Sqrt_of_zero {x : F32} (hx : f32IsFinite x = true) (h : f32Int x = 0) : f32Sqrt x = x := by
  simp [f32Sqrt, isNan_of_finite, hx, (f32Int_eq_zero_iff x).1 h]

theorem f32Sqrt_of_pos {x : F32} (hx : f32IsFinite x = true) (h : 0 < f32Int x) :
    let r := Nat.sqrt (f32Units x * 2 ^ 149)
    f32Sqrt x = f32Pack false (f32RoundMag (if r * r = f32Units x * 2 ^ 149 then 2 * r else 2 * r + 1) 2) := by
  have hu : f32Units x ≠ 0 := (f32Int_eq_zero_iff x).not.1 h.ne'
  simp [f32Sqrt, isNan_of_finite, isInf_of_finite, hx, hu, f32Neg_of_pos h, isqrt_eq_sqrt]

/-- The root of u units is the square root of u·2^149, in units. -/
theorem sqrt_units (u : Nat) : Real.sqrt ((u : ℝ) / 2 ^ 149) = Real.sqrt (u * 2 ^ 149 : Nat) / 2 ^ 149 := by
  rw [Real.sqrt_eq_iff_mul_self_eq (by positivity) (by positivity), div_mul_div_comm,
    Real.mul_self_sqrt (by positivity), Nat.cast_mul, Nat.cast_pow, Nat.cast_ofNat]
  field_simp

/-- Roots of finite values are far below the overflow boundary. -/
theorem sqrt_units_lt {x : F32} (hx : f32IsFinite x = true) : Nat.sqrt (f32Units x * 2 ^ 149) < 2 ^ 213 := by
  rw [Nat.sqrt_lt]
  calc f32Units x * 2 ^ 149 ≤ (2 ^ 24 - 1) * 2 ^ 253 * 2 ^ 149 := Nat.mul_le_mul_right _ (f32Units_le_of_finite hx)
    _ < 2 ^ 24 * 2 ^ 253 * 2 ^ 149 := by gcongr; norm_num
    _ = 2 ^ 213 * 2 ^ 213 := by simp only [← pow_add]

theorem isNearest_sqrt_fraction {n : Nat} (h : n < 2 ^ 215) :
    IsNearestF32 (f32Pack false (f32RoundMag n 2)) ((n : ℝ) / (2 : Nat) / 2 ^ 149) := by
  have hr : (n : ℝ) / (2 : Nat) / 2 ^ 149 = signFactor false * ((n : ℝ) / (2 : Nat)) / 2 ^ 149 := by
    simp [signFactor]
  refine isNearest_pack two_pos hr ((abs_lt_overflow_iff two_pos hr).2 ?_)
  exact h.trans (by norm_num)

theorem f32Sqrt_isNearest {x : F32} (hx : f32IsFinite x = true) (h : 0 ≤ f32Int x) :
    IsNearestF32 (f32Sqrt x) (Real.sqrt ((f32Int x : ℝ) / 2 ^ 149)) := by
  rcases h.eq_or_lt with h0 | hpos
  · have hself := isNearest_self hx
    rw [f32Sqrt_of_zero hx h0.symm]
    rw [← h0, Int.cast_zero, zero_div] at hself ⊢
    rwa [Real.sqrt_zero]
  · have hbound := sqrt_units_lt hx
    have hfloor := Nat.sqrt_le (f32Units x * 2 ^ 149)
    have hceil := Nat.lt_succ_sqrt (f32Units x * 2 ^ 149)
    have hlarge : 2 ^ 74 ≤ Nat.sqrt (f32Units x * 2 ^ 149) := by
      have hu : 1 ≤ f32Units x := by have := f32Int_of_nonneg h; omega
      rw [Nat.le_sqrt]
      calc 2 ^ 74 * 2 ^ 74 ≤ 1 * 2 ^ 149 := by norm_num
        _ ≤ f32Units x * 2 ^ 149 := Nat.mul_le_mul_right _ hu
    rw [f32Sqrt_of_pos hx hpos, f32Int_of_nonneg h, Int.cast_natCast, sqrt_units]
    generalize f32Units x * 2 ^ 149 = p at *
    generalize Nat.sqrt p = r at *
    split
    case isTrue hsq =>
      have hroot : Real.sqrt p = ((2 * r : Nat) : ℝ) / (2 : Nat) := by
        rw [← hsq, Nat.cast_mul, Real.sqrt_mul_self r.cast_nonneg]; push_cast; ring
      rw [hroot]
      exact isNearest_sqrt_fraction (by omega)
    case isFalse hsq =>
      have hlow : (r : ℝ) < Real.sqrt p := Real.lt_sqrt_of_sq_lt (by exact_mod_cast (by rw [sq]; omega : r ^ 2 < p))
      have hup : Real.sqrt p < r + 1 :=
        (Real.sqrt_lt' (by positivity)).2 (by exact_mod_cast (by rw [sq]; exact hceil : p < (r + 1) ^ 2))
      exact isNearest_of_same_floor hlarge hlow hup (isNearest_sqrt_fraction (by omega))

/-- Settles O29: each operation rounds its exact result once. -/
theorem floatOpsRoundToNearestEven : Obligations.FloatOpsRoundToNearestEven := by
  intro x y hx hy
  exact ⟨f32Add_isNearest hx hy, f32Sub_isNearest hx hy, f32Mul_isNearest hx hy,
    fun hy0 => f32Div_isNearest hx hy hy0, f32Sqrt_isNearest hx⟩

end Sys2Proof.Proofs
end

section
/-! The special values of the binary32 operations: NaNs, infinities, overflow, division by zero, zero signs, and the
conversions, `fclamp` and `ftrunc_u` (spec/00_scope.md R13). -/

namespace Sys2Proof.Proofs

open Sys2Proof Sys2Proof.Machine

/-! ### The format -/

/-- The fields of a pattern as digits of its number. -/
theorem f32_digits (x : F32) : f32Exp x = x.toNat / 2 ^ 23 % 256 ∧ f32Frac x = x.toNat % 2 ^ 23
    ∧ (f32Neg x = true ↔ 2 ^ 31 ≤ x.toNat) := by
  obtain ⟨hx, hexp, hfrac⟩ := f32_fields x
  cases hn : f32Neg x <;> rw [hn] at hx <;> simp only [Bool.toNat_false, Bool.toNat_true] at hx <;>
    simp only [Bool.false_eq_true, false_iff, true_iff] <;> omega

theorem f32_format (x : F32) :
    let e : Nat := x.toNat / 2 ^ 23 % 256
    let f : Nat := x.toNat % 2 ^ 23
    (f32IsFinite x = true ↔ e ≠ 255) ∧ (f32IsInf x = true ↔ e = 255 ∧ f = 0)
      ∧ (f32IsNan x = true ↔ e = 255 ∧ f ≠ 0) ∧ (f32Neg x = true ↔ 2 ^ 31 ≤ x.toNat)
      ∧ f32Int x = (if 2 ^ 31 ≤ x.toNat then -1 else 1) * (if e = 0 then (f : Int) else (2 ^ 23 + f) * 2 ^ (e - 1)) := by
  intro e f
  obtain ⟨hexp, hfrac, hneg⟩ := f32_digits x
  refine ⟨by simp [f32IsFinite, hexp, e], by simp [f32IsInf, hexp, hfrac, e, f], by simp [f32IsNan, hexp, hfrac, e, f],
    hneg, ?_⟩
  have hunits : (f32Units x : Int) = if e = 0 then (f : Int) else (2 ^ 23 + f) * 2 ^ (e - 1) := by
    unfold f32Units
    rw [hexp, hfrac]
    split <;> push_cast <;> rfl
  rw [← hunits, f32Int, if_congr hneg rfl rfl]
  split <;> ring

/-! ### Signs and infinities -/

@[simp] theorem f32Neg_flip (x : F32) : f32Neg (f32Flip x) = !f32Neg x := (f32Flip_fields x).1

@[simp] theorem f32Int_flip (x : F32) : f32Int (f32Flip x) = -f32Int x := (f32Flip_value x).1

@[simp] theorem f32IsFinite_flip (x : F32) : f32IsFinite (f32Flip x) = f32IsFinite x := (f32Flip_value x).2.1

@[simp] theorem f32IsInf_flip (x : F32) : f32IsInf (f32Flip x) = f32IsInf x := (f32Flip_value x).2.2.1

@[simp] theorem f32IsNan_flip (x : F32) : f32IsNan (f32Flip x) = f32IsNan x := (f32Flip_value x).2.2.2

theorem f32Flip_of_inf {x : F32} (h : f32IsInf x = true) : f32Flip x = specInf (!f32Neg x) := by
  rw [← f32Neg_flip]; exact eq_specInf_of_inf (by rwa [f32IsInf_flip])

/-! ### NaN operands -/

theorem f32_nan_operand {x y : F32} (h : f32IsNan x = true ∨ f32IsNan y = true) :
    f32Add x y = f32Nan ∧ f32Sub x y = f32Nan ∧ f32Mul x y = f32Nan ∧ f32Div x y = f32Nan := by
  rcases h with h | h <;> simp [f32Add, f32Sub, f32Mul, f32Div, h]

theorem f32Sqrt_of_nan {x : F32} (h : f32IsNan x = true) : f32Sqrt x = f32Nan := by
  simp [f32Sqrt, h]

/-! ### Infinite operands -/

section
variable {x y : F32}

theorem f32Add_inf_finite (hx : f32IsInf x = true) (hy : f32IsFinite y = true) : f32Add x y = x := by
  simp [f32Add, hx, isNan_of_inf, isNan_of_finite, isInf_of_finite, hy]

theorem f32Add_finite_inf (hx : f32IsFinite x = true) (hy : f32IsInf y = true) : f32Add x y = y := by
  simp [f32Add, hx, isNan_of_inf, isNan_of_finite, isInf_of_finite, hy]

theorem f32Add_inf_inf (hx : f32IsInf x = true) (hy : f32IsInf y = true) :
    f32Add x y = if f32Neg x != f32Neg y then f32Nan else x := by
  simp [f32Add, hx, isNan_of_inf, hy]

theorem f32Sub_inf_finite (hx : f32IsInf x = true) (hy : f32IsFinite y = true) : f32Sub x y = x :=
  f32Add_inf_finite hx (by rwa [f32IsFinite_flip])

theorem f32Sub_finite_inf (hx : f32IsFinite x = true) (hy : f32IsInf y = true) :
    f32Sub x y = specInf (!f32Neg y) := by
  rw [← f32Flip_of_inf hy]; exact f32Add_finite_inf hx (by rwa [f32IsInf_flip])

/-- Infinities subtract as long as their signs differ. -/
theorem f32Sub_inf_inf (hx : f32IsInf x = true) (hy : f32IsInf y = true) :
    f32Sub x y = if f32Neg x != f32Neg y then x else f32Nan := by
  rw [f32Sub, f32Add_inf_inf hx (by rwa [f32IsInf_flip]), f32Neg_flip]
  cases f32Neg x <;> cases f32Neg y <;> rfl

theorem f32Mul_inf_finite (hx : f32IsInf x = true) (hy : f32IsFinite y = true) :
    f32Mul x y = if f32Int y = 0 then f32Nan else specInf (f32Neg x != f32Neg y) := by
  simp [f32Mul, hx, hy, isNan_of_inf, isNan_of_finite, f32Int_eq_zero_iff, f32Pack_inf]

theorem f32Mul_finite_inf (hx : f32IsFinite x = true) (hy : f32IsInf y = true) :
    f32Mul x y = if f32Int x = 0 then f32Nan else specInf (f32Neg x != f32Neg y) := by
  simp [f32Mul, hx, hy, isNan_of_inf, isNan_of_finite, isInf_of_finite, f32Int_eq_zero_iff, f32Pack_inf]

theorem f32Mul_inf_inf (hx : f32IsInf x = true) (hy : f32IsInf y = true) :
    f32Mul x y = specInf (f32Neg x != f32Neg y) := by
  simp [f32Mul, hx, hy, isNan_of_inf, isFinite_of_inf, f32Pack_inf]

theorem f32Div_inf_finite (hx : f32IsInf x = true) (hy : f32IsFinite y = true) :
    f32Div x y = specInf (f32Neg x != f32Neg y) := by
  simp [f32Div, hx, hy, isNan_of_inf, isNan_of_finite, isInf_of_finite, f32Pack_inf]

theorem f32Div_finite_inf (hx : f32IsFinite x = true) (hy : f32IsInf y = true) :
    f32Div x y = specZero (f32Neg x != f32Neg y) := by
  simp [f32Div, hx, hy, isNan_of_inf, isNan_of_finite, isInf_of_finite, f32Pack_zero]

theorem f32Div_inf_inf (hx : f32IsInf x = true) (hy : f32IsInf y = true) : f32Div x y = f32Nan := by
  simp [f32Div, hx, hy, isNan_of_inf]

theorem f32Sqrt_of_inf (hx : f32IsInf x = true) : f32Sqrt x = if f32Neg x then f32Nan else x := by
  simp [f32Sqrt, hx, isNan_of_inf, isFinite_of_inf]

end

/-! ### Finite operands: overflow, division by zero, signs -/

section
variable {x y : F32} (hx : f32IsFinite x = true) (hy : f32IsFinite y = true)
include hx hy

/-- Operands of different sign cannot overflow, so an overflowing sum has the sign of both operands. -/
theorem sum_neg_of_overflow
    (h : 2 ^ 128 - 2 ^ 103 ≤ |(f32Int x : ℝ) / 2 ^ 149 + (f32Int y : ℝ) / 2 ^ 149|) :
    f32Int x + f32Int y ≠ 0 ∧ decide (f32Int x + f32Int y < 0) = f32Neg x := by
  have hsum := Nat.le_of_not_lt ((abs_lt_overflow_iff one_pos (sum_eq_units x y)).not.1 h.not_gt)
  have hux := f32Units_le_of_finite hx
  have huy := f32Units_le_of_finite hy
  cases hnx : f32Neg x <;> cases hny : f32Neg y <;>
    simp only [f32Int, hnx, hny, Bool.false_eq_true, ↓reduceIte, decide_eq_true_iff,
      decide_eq_false_iff_not] at hsum ⊢ <;>
    omega

theorem f32Add_overflow (h : 2 ^ 128 - 2 ^ 103 ≤ |(f32Int x : ℝ) / 2 ^ 149 + (f32Int y : ℝ) / 2 ^ 149|) :
    f32Add x y = specInf (f32Neg x) := by
  obtain ⟨hne, hsign⟩ := sum_neg_of_overflow hx hy h
  rw [f32Add_of_ne_zero hx hy hne, pack_overflow one_pos (sum_eq_units x y) h, hsign]

theorem f32Sub_overflow (h : 2 ^ 128 - 2 ^ 103 ≤ |(f32Int x : ℝ) / 2 ^ 149 - (f32Int y : ℝ) / 2 ^ 149|) :
    f32Sub x y = specInf (f32Neg x) := by
  rw [f32Sub_value] at h
  exact f32Add_overflow hx (by rwa [f32IsFinite_flip]) h

theorem f32Mul_overflow (h : 2 ^ 128 - 2 ^ 103 ≤ |(f32Int x : ℝ) / 2 ^ 149 * ((f32Int y : ℝ) / 2 ^ 149)|) :
    f32Mul x y = specInf (f32Neg x != f32Neg y) := by
  rw [f32Mul_of_finite hx hy]
  exact pack_overflow (by positivity) (product_eq_units x y) h

theorem f32Div_overflow (hy0 : f32Int y ≠ 0)
    (h : 2 ^ 128 - 2 ^ 103 ≤ |(f32Int x : ℝ) / 2 ^ 149 / ((f32Int y : ℝ) / 2 ^ 149)|) :
    f32Div x y = specInf (f32Neg x != f32Neg y) := by
  have hu := (f32Int_eq_zero_iff y).not.1 hy0
  rw [f32Div_of_finite hx hy hu]
  exact pack_overflow (Nat.pos_of_ne_zero hu) (quotient_eq_units x y) h

theorem f32Div_by_zero (hy0 : f32Int y = 0) :
    f32Div x y = if f32Int x = 0 then f32Nan else specInf (f32Neg x != f32Neg y) := by
  simp [f32Div, isNan_of_finite, isInf_of_finite, hx, hy, (f32Int_eq_zero_iff y).1 hy0, f32Int_eq_zero_iff, f32Pack_inf]

theorem f32Add_exact_zero (h : (f32Int x : ℝ) / 2 ^ 149 + (f32Int y : ℝ) / 2 ^ 149 = 0) :
    f32Add x y = specZero (f32Neg x && f32Neg y) := by
  rw [← add_div, div_eq_zero_iff] at h
  exact f32Add_of_zero hx hy (by exact_mod_cast h.resolve_right (by positivity))

theorem f32Sub_exact_zero (h : (f32Int x : ℝ) / 2 ^ 149 - (f32Int y : ℝ) / 2 ^ 149 = 0) :
    f32Sub x y = specZero (f32Neg x && !f32Neg y) := by
  rw [f32Sub_value] at h
  rw [← f32Neg_flip]
  exact f32Add_exact_zero hx (by rwa [f32IsFinite_flip]) h

theorem f32Neg_mul : f32Neg (f32Mul x y) = (f32Neg x != f32Neg y) := by
  rw [f32Mul_of_finite hx hy, f32Neg_pack_round]

theorem f32Neg_div (hy0 : f32Int y ≠ 0) : f32Neg (f32Div x y) = (f32Neg x != f32Neg y) := by
  rw [f32Div_of_finite hx hy ((f32Int_eq_zero_iff y).not.1 hy0), f32Neg_pack_round]

end

theorem f32Sqrt_of_neg {x : F32} (hx : f32IsFinite x = true) (h : f32Int x < 0) : f32Sqrt x = f32Nan := by
  have hu : f32Units x ≠ 0 := (f32Int_eq_zero_iff x).not.1 h.ne
  have hn : f32Neg x = true := by
    by_contra hc
    rw [f32Int, if_neg hc] at h
    omega
  simp [f32Sqrt, isNan_of_finite, hx, hu, hn]

/-! ### Conversions -/

theorem f32OfRat_isNearest {num : Int} {den : Nat} (hd : 0 < den) (h : |(num : ℝ) / den| < 2 ^ 128 - 2 ^ 103) :
    IsNearestF32 (f32OfRat num den) ((num : ℝ) / den) :=
  isNearest_pack hd (rat_eq_units num den) h

theorem f32Neg_ofRat (num : Int) (den : Nat) : f32Neg (f32OfRat num den) = true ↔ num < 0 := by
  rw [f32OfRat, f32Neg_pack_round, decide_eq_true_iff]

theorem f32OfNat_isNearest {n : Nat} (h : n < 2 ^ 32) : IsNearestF32 (f32OfNat n) n := by
  have hn : (n : ℝ) < 2 ^ 32 := by exact_mod_cast h
  have hr := f32OfRat_isNearest (num := n) one_pos (by
    rw [Int.cast_natCast, Nat.cast_one, div_one, abs_of_nonneg n.cast_nonneg]
    exact hn.trans (by norm_num))
  rwa [Int.cast_natCast, Nat.cast_one, div_one] at hr

theorem f32Neg_ofNat (n : Nat) : f32Neg (f32OfNat n) = false := by
  rw [f32OfNat, f32OfRat, f32Neg_pack_round]
  simp

/-! ### Clamping and truncation -/

/-- The key of a finite pattern is its value, well within the keys of the infinities. -/
theorem f32Key_of_finite {x : F32} (h : f32IsFinite x = true) :
    f32Key x = f32Int x ∧ -(2 ^ 300 : Int) < f32Int x ∧ f32Int x < 2 ^ 300 := by
  have hu : f32Units x < 2 ^ 300 :=
    calc f32Units x ≤ (2 ^ 24 - 1) * 2 ^ 253 := f32Units_le_of_finite h
      _ < 2 ^ 150 * 2 ^ 150 := by norm_num
      _ = 2 ^ 300 := by rw [← pow_add]
  have habs : |f32Int x| < 2 ^ 300 := by
    rw [Int.abs_eq_natAbs, f32Int_natAbs]; exact_mod_cast hu
  exact ⟨by simp [f32Key, isInf_of_finite h], abs_lt.1 habs⟩

theorem f32Key_of_inf {x : F32} (h : f32IsInf x = true) : f32Key x = if f32Neg x then -(2 ^ 300 : Int) else 2 ^ 300 := by
  simp only [f32Key, h, ↓reduceIte]

theorem f32Lt_of_finite {x y : F32} (hx : f32IsFinite x = true) (hy : f32IsFinite y = true) :
    f32Lt x y = decide (f32Int x < f32Int y) := by
  simp [f32Lt, isNan_of_finite, hx, hy, (f32Key_of_finite hx).1, (f32Key_of_finite hy).1]

/-- Every finite value lies above −∞ and none above +∞. -/
theorem f32Lt_inf_finite {x y : F32} (hx : f32IsInf x = true) (hy : f32IsFinite y = true) :
    f32Lt x y = f32Neg x ∧ f32Lt y x = !f32Neg x := by
  obtain ⟨hkey, hlow, hup⟩ := f32Key_of_finite hy
  have hkeyInf := f32Key_of_inf hx
  generalize (2 : Int) ^ 300 = bound at hlow hup hkeyInf
  cases hn : f32Neg x <;> simp [f32Lt, isNan_of_finite hy, isNan_of_inf hx, hkey, hkeyInf, hn, hlow, hup, hlow.le, hup.le]

theorem f32Clamp_of_nan {x : F32} (lo hi : F32) (h : f32IsNan x = true) : f32Clamp x lo hi = lo := by
  simp [f32Clamp, h]

theorem f32Clamp_of_inf {x lo hi : F32} (hlo : f32IsFinite lo = true) (hhi : f32IsFinite hi = true)
    (h : f32IsInf x = true) : f32Clamp x lo hi = if f32Neg x then lo else hi := by
  obtain ⟨hbelow, _⟩ := f32Lt_inf_finite h hlo
  obtain ⟨_, habove⟩ := f32Lt_inf_finite h hhi
  cases hn : f32Neg x <;> simp [f32Clamp, isNan_of_inf h, hbelow, habove, hn]

theorem f32Clamp_of_finite {x lo hi : F32} (hlo : f32IsFinite lo = true) (hhi : f32IsFinite hi = true)
    (h : f32IsFinite x = true) :
    f32Clamp x lo hi = if f32Int x < f32Int lo then lo else if f32Int hi < f32Int x then hi else x := by
  simp [f32Clamp, isNan_of_finite h, f32Lt_of_finite h hlo, f32Lt_of_finite hhi h]

theorem f32Trunc_eq_floor {x : F32} (h : 0 ≤ f32Int x) : (f32Trunc x : Int) = ⌊(f32Int x : ℝ) / 2 ^ 149⌋ := by
  have hcast : (f32Int x : ℝ) / 2 ^ 149 = (f32Units x : ℝ) / (2 ^ 149 : Nat) := by
    rw [f32Int_of_nonneg h, Int.cast_natCast, Nat.cast_pow, Nat.cast_ofNat]
  rw [hcast, f32Trunc, ← Nat.floor_div_eq_div (K := ℝ), Int.natCast_floor_eq_floor (by positivity)]

/-- Settles O60: one lemma for each clause. -/
theorem floatSpecialValues : Obligations.FloatSpecialValues := by
  intro x y
  refine ⟨f32_format x, f32_nan_operand, f32Sqrt_of_nan,
    fun hx hy => ⟨f32Add_inf_finite hx hy, f32Sub_inf_finite hx hy, f32Div_inf_finite hx hy⟩,
    fun hx hy => ⟨f32Add_finite_inf hx hy, f32Sub_finite_inf hx hy, f32Div_finite_inf hx hy⟩,
    fun hx hy => ⟨f32Add_inf_inf hx hy, f32Sub_inf_inf hx hy, f32Mul_inf_inf hx hy, f32Div_inf_inf hx hy⟩,
    f32Mul_inf_finite, f32Mul_finite_inf, fun hx hy => ?finite,
    f32Sqrt_of_zero, f32Sqrt_of_neg, f32Sqrt_of_inf,
    fun num den hd h => ⟨f32OfRat_isNearest hd h, f32Neg_ofRat num den⟩,
    fun n h => ⟨f32OfNat_isNearest h, f32Neg_ofNat n⟩,
    fun lo hi hlo hhi => ⟨f32Clamp_of_nan lo hi, f32Clamp_of_inf hlo hhi, f32Clamp_of_finite hlo hhi⟩,
    fun _ => f32Trunc_eq_floor⟩
  case finite =>
    exact ⟨f32Add_overflow hx hy, f32Sub_overflow hx hy, f32Mul_overflow hx hy, f32Div_overflow hx hy,
      f32Div_by_zero hx hy, f32Add_exact_zero hx hy, f32Sub_exact_zero hx hy, f32Neg_mul hx hy, f32Neg_div hx hy⟩

end Sys2Proof.Proofs
end

section
/-! The scratch memory keeps its canonical form: every write of it lies inside SCR, so the laws of `Memory.write` apply,
and every other operation leaves it alone. -/

namespace Sys2Proof.Proofs

open Sys2Proof Sys2Proof.Machine

/-! ### The length of a transform's output -/

section
variable {α : Type} {bf : Cplx α → Cplx α → Cplx α → Cplx α × Cplx α}

/-- A block holds at most one pair of values for each twiddle of the stage. -/
theorem fftStage_length_le (ws : List (Cplx α)) (h blocks : Nat) (z : List (Cplx α)) :
    (fftStage bf ws h blocks z).length ≤ 2 * ws.length * blocks := by
  induction blocks generalizing z with
  | zero => simp [fftStage]
  | succ blocks ih =>
    have htail := ih (z.drop (2 * h))
    simp only [fftStage, List.length_append, List.length_map, List.length_zipWith, Nat.mul_succ]
    omega

/-- The last stage alone bounds the output. -/
theorem fftStages_length_le (tw : Nat → Cplx α) (n l2 : Nat) {z : List (Cplx α)} (hz : z.length ≤ n) :
    (fftStages bf tw n l2 z).length ≤ n := by
  cases l2 with
  | zero => simpa [fftStages] using hz
  | succ l =>
    simp only [fftStages, List.range_succ, List.foldl_append, List.foldl_cons, List.foldl_nil]
    refine (fftStage_length_le _ _ _ _).trans ?_
    rw [List.length_map, List.length_range]
    exact Nat.mul_div_le n _

end

theorem fftF32_length_le (x : Nat → F32) (n : Nat) : (fftF32 x n).length ≤ n :=
  fftStages_length_le _ _ _ (by simp [fftLoad])

theorem fftQ15_length_le (x : Nat → Int) (n : Nat) : (fftQ15 x n).length ≤ n :=
  fftStages_length_le _ _ _ (by simp [fftLoad])

theorem fftWords_length_le (s : State) (n : Nat) : (s.fftWords n).length ≤ 2 * n := by
  have hf := fftF32_length_le s.scr.word n
  have hq := fftQ15_length_le s.q15At n
  unfold State.fftWords
  split <;> simp <;> omega

theorem fftLength_le (count : Nat) : fftLength count ≤ 4096 := by
  unfold fftLength
  cases h : Config.fftLengths.find? fun l => decide (l ≤ count) with
  | none => simp
  | some l =>
    have hall : ∀ l ∈ Config.fftLengths, l ≤ 4096 := by decide
    exact hall l (List.mem_of_find?_eq_some h)

/-! ### Commands -/

theorem count_lt (s : State) : s.count < 8192 := s.tag.count.isLt

section
variable {s : State} (hs : s.scr.wf = true)
include hs

theorem checked_scr_wf {done : State} (checks : List (Bool × ErrCode)) (hd : done.scr.wf = true) :
    (s.checked checks done).scr.wf = true := by
  rcases s.checked_cases done checks with ⟨_, h⟩ | ⟨_, _, h⟩ <;> rw [h]
  · exact hd
  · exact hs

/-- A command that tabulates its result from word 0 on writes inside SCR. -/
theorem tabulate_scr_wf {count : Nat} (f : Nat → Word) (h : count ≤ 8192) :
    (s.scr.putWords 0 (tabulate count f)).wf = true :=
  Memory.putWords_wf hs (by rw [tabulate_length]; omega)

theorem synthDone_scr_wf (kind : Kind) (sample : Nat → Word) : (s.synthDone kind sample).scr.wf = true :=
  tabulate_scr_wf hs _ ((Nat.min_le_right _ _).trans (by decide))

theorem fir_scr_wf (bank : Vector Word 64) (taps : Nat) : (s.fir bank taps).scr.wf = true :=
  checked_scr_wf hs _ (tabulate_scr_wf hs _ (count_lt s).le)

theorem window_scr_wf (w : Win) : (s.window w).scr.wf = true :=
  checked_scr_wf hs _ (tabulate_scr_wf hs _ (count_lt s).le)

theorem magDone_scr_wf : s.magDone.scr.wf = true :=
  tabulate_scr_wf hs _ ((Nat.div_le_self _ _).trans (count_lt s).le)

theorem fftDone_scr_wf : s.fftDone.scr.wf = true := by
  have hlen := fftWords_length_le s (fftLength s.count)
  have hmax := fftLength_le s.count
  exact Memory.putWords_wf hs (by omega)

theorem stream_scr_wf (i : Instr) (checks : List (Bool × ErrCode)) (bytes : List Byte) {finish : State → State}
    (hf : (finish s).scr = s.scr) : (s.stream i checks bytes finish).scr.wf = true := by
  cases hp : s.progress with
  | start => rw [State.stream_start (.inl hp)]; exact checked_scr_wf hs _ hs
  | engine => rw [State.stream_start (.inr hp)]; exact checked_scr_wf hs _ hs
  | push rest =>
    cases rest with
    | nil => rw [State.stream_done hp, State.succeed_scr, hf]; exact hs
    | cons b rest => rw [State.stream_push hp]; split <;> exact hs

theorem btEngineStep_scr_wf : s.btEngineStep.scr.wf = true := by
  rcases s.btEngineStep_frame with h | ⟨_, _, _, h⟩ <;> rw [h] <;> exact hs

theorem exec_scr_wf {t : State} (i : Instr) (h : exec i s = .next t) : t.scr.wf = true := by
  cases i <;> cases h
  case nop | firNone => exact hs
  case synthF32 | synthU16 | synthFix => exact checked_scr_wf hs _ (synthDone_scr_wf hs _ _)
  case firLp | firBp => exact fir_scr_wf hs _ _
  case normF | normQ => exact checked_scr_wf hs _ (tabulate_scr_wf hs _ (count_lt s).le)
  case winBlackman | winHamming | winHann => exact window_scr_wf hs _
  case fft => exact checked_scr_wf hs _ (fftDone_scr_wf hs)
  case mag => exact checked_scr_wf hs _ (magDone_scr_wf hs)
  case crc32 | crc16 | pktChk => exact checked_scr_wf hs _ hs
  case sendB | sendH | pktBld => exact stream_scr_wf hs _ _ _ rfl
  case btx =>
    split
    · exact checked_scr_wf hs _ hs
    · exact checked_scr_wf hs _ hs
    · exact btEngineStep_scr_wf hs

theorem seqStep_scr_wf {t : State} (h : s.seqStep = .next t) : t.scr.wf = true := by
  cases hq : s.seq with
  | idle => rw [State.seqStep_idle hq] at h; cases h; exact hs
  | run w p =>
    cases hd : decodeBytes (wordBytes w) with
    | ok i => exact exec_scr_wf hs i (State.seqStep_run hq hd ▸ h)
    | error e => rw [State.seqStep_illegal hq hd] at h; cases h; exact hs

end

/-! ### Agents -/

/-- No register write, a reset through CTRL included, touches SCR. -/
theorem regStore_scr (s : State) (v : Word) (r : Reg) : (s.regStore v r).scr = s.scr := by
  cases r with
  | ctrl => unfold State.regStore State.writeCtrl; split_ifs <;> rfl
  | cmd => unfold State.regStore State.writeCmd; split_ifs <;> rfl
  | txData => unfold State.regStore State.writeTxData; split_ifs <;> rfl
  | _ => rfl

theorem regWrite_scr (s : State) (v : Word) (r : Reg) : (s.regWrite v r).scr = s.scr := by
  unfold State.regWrite
  split
  · rfl
  · exact regStore_scr s v r

theorem memRead_scr (s : State) (a : BitVec 16) (n : AccSize) : (s.memRead a n).scr = s.scr := by
  rw [(s.memRead_frame a n).1]

theorem lowBytes_length (n : AccSize) (v : Word) : (lowBytes n v).length = n.bytes := by cases n <;> rfl

/-- An aligned access in the SCR half ends inside SCR. -/
theorem scr_access_end_le {a : BitVec 16} {n : AccSize} (hl : 0x8000 ≤ a.toNat) (ha : legalAccess a n = true) :
    a.toNat - 0x8000 + n.bytes ≤ 32768 := by
  rw [legalAccess_scr hl, decide_eq_true_iff] at ha
  have := a.isLt
  cases n <;> simp only [AccSize.bytes] at * <;> omega

section
variable {s : State} (hs : s.scr.wf = true)
include hs

theorem memWrite_scr_wf (a : BitVec 16) (n : AccSize) (v : Word) : (s.memWrite a n v).scr.wf = true := by
  unfold State.memWrite
  split_ifs with hbad hlow hbusy
  · exact hs
  · split
    · exact hs
    · rw [State.respond_scr, regWrite_scr]; exact hs
  · exact hs
  · refine Memory.write_wf hs ?_
    rw [lowBytes_length]
    exact scr_access_end_le (Nat.not_lt.1 hlow) (by simpa using hbad)

theorem hostStep_scr_wf (a : HostAccess) : (s.hostStep a).scr.wf = true := by
  cases a with
  | read a n => show (s.memRead a n).scr.wf = true; rw [memRead_scr]; exact hs
  | write a n v => exact memWrite_scr_wf hs a n v

theorem agentStep_scr_wf {t : State} (a : AgentStep) (h : s.agentStep a = .next t) : t.scr.wf = true := by
  cases a with
  | host a => cases h; exact hostStep_scr_wf hs a
  | seq => exact seqStep_scr_wf hs h
  | srx b => cases h; unfold State.srxStep; split <;> exact hs
  | stx => cases h; unfold State.stxStep; split <;> exact hs
  | sync k => cases h; cases k <;> exact hs
  | tick => cases h; exact hs
  | resetInput => cases h; exact hs

end

/-- Settles O56, from the agent step that the schedule names. -/
theorem memoryStaysCanonical : Obligations.MemoryStaysCanonical := by
  intro s t hs h
  unfold step State.machineStep at h
  split at h
  · exact seqStep_scr_wf hs h
  · rename_i rest _
    exact agentStep_scr_wf (s := { s with inputs := rest }) hs _ h

end Sys2Proof.Proofs
end

section
/-! The register map by register: the address of each register, so that an access to a register's address is a read or
a write of that register, and what its read answers. -/

namespace Sys2Proof.Proofs

open Sys2Proof Sys2Proof.Machine

/-! ### Addresses (spec/10_state.md R42) -/

/-- The address of a register, the inverse of the model's `regAt`. -/
def regAddr : Reg → BitVec 16
  | .id => 0x0000 | .ctrl => 0x0004 | .status => 0x0008 | .events => 0x000C | .irqEn => 0x0010 | .cmd => 0x0014
  | .errCode => 0x0018 | .warn => 0x001C | .scrTag => 0x0020 | .fftLen => 0x0024 | .numTones => 0x0040
  | .len => 0x0044 | .fs => 0x0048 | .dcOffset => 0x004C | .vref => 0x0050 | .noiseAmp => 0x0054
  | .noiseSeed => 0x0058 | .sigSrc => 0x005C | .firTapsLp => 0x0060 | .firTapsBp => 0x0064 | .srcAddr => 0x0068
  | .srcLen => 0x006C | .crc32Res => 0x0070 | .crc16Res => 0x0074 | .pktSeq => 0x0078 | .pktStatus => 0x007C
  | .btMaxRetry => 0x0080 | .btToStart => 0x0084 | .btToAck => 0x0088 | .btResult => 0x008C | .tick => 0x0090
  | .rxData => 0x0094 | .txData => 0x0098 | .preamble => 0x009C | .padByte => 0x00A0
  | .freq t => BitVec.ofNat 16 (0x100 + 4 * t.val)
  | .amp t => BitVec.ofNat 16 (0x120 + 4 * t.val)
  | .coefLp k => BitVec.ofNat 16 (0x400 + 4 * k.val)
  | .coefBp k => BitVec.ofNat 16 (0x500 + 4 * k.val)

/-- The registers in the order of the map. -/
def allRegs : List Reg :=
  (regMap.map fun e => e.2) ++ (List.finRange 8).map .freq ++ (List.finRange 8).map .amp
    ++ (List.finRange 64).map .coefLp ++ (List.finRange 64).map .coefBp

theorem regAt_regAddr (r : Reg) : regAt (regAddr r).toNat = some r := by
  cases r with
  | freq t => revert t; decide
  | amp t => revert t; decide
  | coefLp k => revert k; decide
  | coefBp k => revert k; decide
  | _ => rfl

/-- Every register stands at a word address of the register half. -/
theorem regAddr_legal (r : Reg) : (regAddr r).toNat < 0x8000 ∧ (regAddr r).toNat % 4 = 0 := by
  cases r with
  | freq t => revert t; decide
  | amp t => revert t; decide
  | coefLp k => revert k; decide
  | coefBp k => revert k; decide
  | _ => decide

theorem read_regAddr (s : State) {r : Reg} (hx : r ≠ .rxData) :
    s.hostStep (.read (regAddr r) .word) = { s with hostResp := .data (s.regValue r) } :=
  State.hostStep_read_plain (regAddr_legal r).1 (regAddr_legal r).2 (regAt_regAddr r) hx

theorem reads_regAddr (s : State) {r : Reg} (hx : r ≠ .rxData) : s.reads (regAddr r) = .data (s.regValue r) := by
  rw [State.reads, read_regAddr s hx]

/-- A write that the busy guard does not drop. -/
theorem write_regAddr {s : State} {r : Reg} (v : Word) (h : s.seq = .idle ∨ r.busyGuarded = false) :
    s.hostStep (.write (regAddr r) .word v) = (s.regStore v r).respond .written := by
  rw [State.hostStep_write_reg v (regAddr_legal r).1 (regAddr_legal r).2 (regAt_regAddr r), State.regWrite_open v h]

/-- No register shows what the last access answered. -/
@[simp] theorem regValue_respond (s : State) (x : HostResponse) (r : Reg) :
    (s.respond x).regValue r = s.regValue r := by
  cases r <;> rfl

end Sys2Proof.Proofs
end

section
/-! Register reads: the answered word is the number made of the register's fields. -/

namespace Sys2Proof.Proofs

open Sys2Proof Sys2Proof.Machine

/-- A field zero-extended to a register. -/
theorem toNat_field {w : Nat} (x : BitVec w) (h : w ≤ 32) : (x.setWidth 32).toNat = x.toNat := by
  rw [BitVec.toNat_setWidth, Nat.mod_eq_of_lt]
  exact x.isLt.trans_le (Nat.pow_le_pow_right (by decide) h)

/-- Two fields side by side. -/
theorem toNat_append_fields {m n : Nat} (x : BitVec m) (y : BitVec n) : (x ++ y).toNat = x.toNat * 2 ^ n + y.toNat := by
  rw [BitVec.toNat_append, ← Nat.shiftLeft_add_eq_or_of_lt y.isLt, Nat.shiftLeft_eq]

theorem toNat_scrTag (t : ScrTag) :
    t.toWord.toNat = specKindNumber t.kind + 2 ^ 4 * specWinNumber t.win + 2 ^ 16 * t.count.toNat := by
  simp only [specKindNumber_eq, specWinNumber_eq, ScrTag.toWord, toNat_append_fields, BitVec.toNat_ofNat]
  omega

theorem toNat_btResult (s : State) : s.btResultWord.toNat = s.blocksAcked.toNat + 2 ^ 16 * s.bt.retries.toNat := by
  simp only [State.btResultWord, toNat_append_fields, BitVec.toNat_ofNat]
  omega

/-- The registers whose reads are the fields alone: all but STATUS and RXDATA. -/
def fieldRegs : List Reg := allRegs.filter fun r => r ≠ .status ∧ r ≠ .rxData

/-- The spec's table of readings goes through these registers in the order of the map. -/
theorem specReadings_eq (s : State) :
    specReadings s = fieldRegs.map fun r => (regAddr r, (s.regValue r).toNat) := by
  simp [specReadings, fieldRegs, allRegs, regMap, List.filter_map, Function.comp_def, regAddr, State.regValue,
    toNat_field, -BitVec.toNat_setWidth, toNat_scrTag, toNat_btResult, specErrNumber_eq]

theorem fieldRegs_ne_rxData {r : Reg} (h : r ∈ fieldRegs) : r ≠ .rxData := by
  rintro rfl
  simp [fieldRegs] at h

/-- Settles O59: each entry of the table is the reading of its register. -/
theorem registerReadsAnswerTheState : Obligations.RegisterReadsAnswerTheState := by
  intro s a v h
  rw [specReadings_eq, List.mem_map] at h
  obtain ⟨r, hr, h⟩ := h
  obtain ⟨rfl, rfl⟩ := Prod.mk.inj h
  refine ⟨(s.regValue r).isLt, ?_⟩
  rw [read_regAddr s (fieldRegs_ne_rxData hr), BitVec.ofNat_toNat, BitVec.setWidth_eq]

end Sys2Proof.Proofs
end

section
/-! Register writes that store: the registers of spec/10_state.md R76, which keep the written bits of their implemented
fields, and the write-one-to-clear and WARL registers beside them. -/

namespace Sys2Proof.Proofs

open Sys2Proof Sys2Proof.Machine

/-! ### Registers that store what is written -/

/-- How many low bits a write of this register stores; none for a register with another rule. -/
def storedBits : Reg → Option Nat
  | .sigSrc => some 1
  | .firTapsLp | .firTapsBp => some 7
  | .pktSeq | .btMaxRetry | .preamble | .padByte => some 8
  | .irqEn => some 10
  | .srcAddr => some 15
  | .numTones | .dcOffset | .vref | .srcLen | .amp _ => some 16
  | .len | .fs | .noiseAmp | .noiseSeed | .btToStart | .btToAck | .freq _ | .coefLp _ | .coefBp _ => some 32
  | .id | .ctrl | .status | .events | .cmd | .errCode | .warn | .scrTag | .fftLen | .crc32Res | .crc16Res | .pktStatus
  | .btResult | .tick | .rxData | .txData => none

/-- The spec's table of RW registers and masks goes through these registers in the order of the map. -/
theorem storeRegs_eq :
    storeRegs = allRegs.filterMap fun r => (storedBits r).map fun w => (regAddr r, BitVec.ofNat 32 (2 ^ w - 1)) := by
  decide +kernel

theorem exists_of_mem_storeRegs {a : BitVec 16} {mask : Word} (h : (a, mask) ∈ storeRegs) :
    ∃ r w, storedBits r = some w ∧ a = regAddr r ∧ mask = BitVec.ofNat 32 (2 ^ w - 1) := by
  rw [storeRegs_eq, List.mem_filterMap] at h
  obtain ⟨r, _, h⟩ := h
  obtain ⟨w, hw, h⟩ := Option.map_eq_some_iff.1 h
  obtain ⟨rfl, rfl⟩ := Prod.mk.inj h
  exact ⟨r, w, hw, rfl, rfl⟩

/-- Storing the low bits of a word and reading them back masks it. -/
theorem setWidth_eq_and_mask {w : Nat} (v : Word) (h : w ≤ 32) :
    (v.setWidth w).setWidth 32 = v &&& BitVec.ofNat 32 (2 ^ w - 1) := by
  have hpow : 2 ^ w ≤ 2 ^ 32 := Nat.pow_le_pow_right (by decide) h
  apply BitVec.eq_of_toNat_eq
  rw [BitVec.toNat_and, BitVec.toNat_ofNat, Nat.mod_eq_of_lt (show 2 ^ w - 1 < 2 ^ 32 by omega),
    Nat.and_two_pow_sub_one_eq_mod, BitVec.toNat_setWidth, BitVec.toNat_setWidth,
    Nat.mod_eq_of_lt ((Nat.mod_lt _ (Nat.two_pow_pos w)).trans_le hpow)]

section
variable {r : Reg} {w : Nat} (hr : storedBits r = some w) (s : State) (v : Word)
include hr

theorem stored_ne_rxData : r ≠ .rxData := by
  rintro rfl
  cases hr

theorem regStore_stored_frame :
    s.regStore v r = { s with cfg := (s.regStore v r).cfg, irqEn := (s.regStore v r).irqEn } := by
  cases r <;> cases hr <;> rfl

theorem regValue_regStore_same : (s.regStore v r).regValue r = v &&& BitVec.ofNat 32 (2 ^ w - 1) := by
  have hfull := setWidth_eq_and_mask v (le_refl 32)
  rw [BitVec.setWidth_eq, BitVec.setWidth_eq] at hfull
  cases r with
  | freq t | coefLp k | coefBp k => cases hr; simpa [State.regStore, State.regValue, Cfg.written] using hfull
  | amp t =>
    cases hr
    have hamp := setWidth_eq_and_mask v (w := 16) (by decide)
    simpa [State.regStore, State.regValue, Cfg.written] using hamp
  | len | fs | noiseAmp | noiseSeed | btToStart | btToAck => cases hr; exact hfull
  | _ => cases hr <;> exact setWidth_eq_and_mask v (by decide)

/-- A write to a register that stores changes no other register's reading. -/
theorem regValue_regStore_other {r' : Reg} (hne : r' ≠ r) : (s.regStore v r).regValue r' = s.regValue r' := by
  cases r with
  | freq t =>
    cases r' with
    | freq u => exact Vector.getElem_set_ne t.isLt u.isLt fun e => hne (congrArg _ (Fin.ext e.symm))
    | _ => rfl
  | amp t =>
    cases r' with
    | amp u =>
      have hu := Vector.getElem_set_ne t.isLt u.isLt (xs := s.cfg.amp) (x := v.setWidth 16)
        fun e => hne (congrArg _ (Fin.ext e.symm))
      exact congrArg (BitVec.setWidth 32) hu
    | _ => rfl
  | coefLp k =>
    cases r' with
    | coefLp u => exact Vector.getElem_set_ne k.isLt u.isLt fun e => hne (congrArg _ (Fin.ext e.symm))
    | _ => rfl
  | coefBp k =>
    cases r' with
    | coefBp u => exact Vector.getElem_set_ne k.isLt u.isLt fun e => hne (congrArg _ (Fin.ext e.symm))
    | _ => rfl
  | _ => cases hr <;> cases r' <;> first | rfl | exact absurd rfl hne

end

/-- Settles O52: the written register, every other one and the frame, each by its lemma about `regStore`. -/
theorem registerWritesAreReadBack : Obligations.RegisterWritesAreReadBack := by
  intro s a mask v hidle ha t
  obtain ⟨r, w, hr, rfl, rfl⟩ := exists_of_mem_storeRegs ha
  have ht : t = (s.regStore v r).respond .written := write_regAddr v (.inl hidle)
  refine ⟨?same, ?other, ?frame⟩
  case same =>
    rw [reads_regAddr t (stored_ne_rxData hr), ht, regValue_respond, regValue_regStore_same hr]
  case other =>
    intro b m hb hne
    obtain ⟨r', w', hr', rfl, rfl⟩ := exists_of_mem_storeRegs hb
    have hx := stored_ne_rxData hr'
    have hne' : r' ≠ r := fun e => hne (congrArg regAddr e)
    rw [reads_regAddr t hx, reads_regAddr s hx, ht, regValue_respond, regValue_regStore_other hr s v hne']
  case frame =>
    rw [ht, regStore_stored_frame hr]
    rfl

/-! ### Bits written 1 to clear, and SCR_TAG -/

/-- A bit is kept where the written word has a 0. -/
theorem getLsbD_cleared {n : Nat} (x : BitVec n) (v : Word) {b : Nat} (hb : b < n) :
    (x &&& ~~~(v.setWidth n)).getLsbD b = true ↔ x.getLsbD b = true ∧ v.getLsbD b = false := by
  simp [hb]

theorem specWinNumber_ofCode : ∀ c : BitVec 2, specWinNumber (Win.ofCode c) = c.toNat := by decide

theorem kind_ofCode_legal : ∀ c : BitVec 4, c.toNat ≤ 8 →
    (Kind.ofCode c).map specKindNumber = some c.toNat := by decide

theorem kind_ofCode_illegal : ∀ c : BitVec 4, 8 < c.toNat → Kind.ofCode c = none := by decide

/-- Settles O53: none of the first three registers is busy-guarded; SCR_TAG is, and is written in IDLE. -/
theorem controlRegisterWrites : Obligations.ControlRegisterWrites := by
  intro s v
  have hkind : (v.extractLsb' 0 4).toNat = v.toNat % 16 := by simp
  have hwin : (v.extractLsb' 4 2).toNat = v.toNat / 16 % 4 := by simp [Nat.shiftRight_eq_div_pow]
  have hcount : (v.extractLsb' 16 13).toNat = v.toNat / 65536 % 8192 := by simp [Nat.shiftRight_eq_div_pow]
  refine ⟨?events, ?warn, ?irqEn, ?scrTag⟩
  case events =>
    exact ⟨_, write_regAddr (r := .events) v (.inr rfl), fun b hb => getLsbD_cleared s.events v hb⟩
  case warn =>
    exact ⟨_, write_regAddr (r := .warn) v (.inr rfl), fun b hb => getLsbD_cleared s.warn v hb⟩
  case irqEn => exact write_regAddr (r := .irqEn) v (.inr rfl)
  case scrTag =>
    intro hidle
    refine ⟨s.tag.written v, write_regAddr (r := .scrTag) v (.inl hidle), ?_, fun h => ?_, fun h => ?_, ?_⟩
    · rw [← hwin]; exact specWinNumber_ofCode _
    · rw [← hkind] at h ⊢
      obtain ⟨k, hk, hn⟩ := Option.map_eq_some_iff.1 (kind_ofCode_legal _ h)
      rw [← hn]
      simp only [ScrTag.written, hk, Option.getD_some]
    · rw [← hkind] at h; simp [ScrTag.written, kind_ofCode_illegal _ h]
    · rw [← hcount]; simp [ScrTag.written, Config.nmax]

end Sys2Proof.Proofs
end

section
/-! SCR accesses: the bytes that a write stores are the base-256 digits of its value, and a read answers the number with
the stored bytes as digits (spec/20_memory.md R120, R127). -/

namespace Sys2Proof.Proofs

open Sys2Proof Sys2Proof.Machine

/-- Byte i of a stored value is its base-256 digit i. -/
theorem lowBytes_getElem_toNat (n : AccSize) (v : Word) {i : Nat} (h : i < (lowBytes n v).length) :
    (lowBytes n v)[i].toNat = v.toNat / 256 ^ i % 256 := by
  have hi : i < 4 := h.trans_le (by rw [lowBytes_length]; cases n <;> decide)
  have hdigit : (wordBytes v)[i].toNat = v.toNat / 256 ^ i % 256 := by
    interval_cases i <;> simp [wordBytes, Nat.shiftRight_eq_div_pow]
  have htake : (lowBytes n v)[i] = (wordBytes v)[i] := List.getElem_take
  rw [htake, hdigit]

theorem load_toNat (m : Memory) (a : Nat) (n : AccSize) :
    (m.load a n).toNat = ∑ i ∈ Finset.range n.bytes, (m.read (a + i)).toNat * 256 ^ i := by
  cases n <;> simp only [Memory.load, bytesWord_toNat, AccSize.bytes, Finset.sum_range_succ, Finset.sum_range_zero]
  case byte => simp
  case half => simp; omega
  case word => simp; omega

theorem load_eq_ofNat (m : Memory) (a : Nat) (n : AccSize) :
    m.load a n = BitVec.ofNat 32 (∑ i ∈ Finset.range n.bytes, (m.read (a + i)).toNat * 256 ^ i) := by
  rw [← load_toNat, BitVec.ofNat_toNat, BitVec.setWidth_eq]

/-- The free value of a read while a command runs has the size of the access (R129). -/
theorem drawn_toNat_lt (n : AccSize) (v : Word) : (drawn n v).toNat < 256 ^ n.bytes := by
  cases n with
  | byte => rw [drawn, toNat_field _ (by decide)]; exact BitVec.isLt _
  | half => rw [drawn, toNat_field _ (by decide)]; exact BitVec.isLt _
  | word => exact v.isLt

theorem scrAddr_toNat {a : Nat} (h : a < 32768) : (BitVec.ofNat 16 (0x8000 + a)).toNat = 0x8000 + a := by
  rw [BitVec.toNat_ofNat]; omega

/-- The SCR half begins at a multiple of every access size. -/
theorem scrAddr_aligned {a : Nat} {n : AccSize} (h : a % n.bytes = 0) : (0x8000 + a) % n.bytes = 0 := by
  cases n <;> simp only [AccSize.bytes] at * <;> omega

/-- Settles O50: each access by its law, the stored bytes by the laws of the scratch memory. -/
theorem scratchAccesses : Obligations.ScratchAccesses := by
  intro s a n v ha hal addr
  have haddr : addr.toNat = 0x8000 + a := scrAddr_toNat ha
  have hscr : 0x8000 ≤ addr.toNat := by omega
  have halign : addr.toNat % n.bytes = 0 := haddr ▸ scrAddr_aligned hal
  have hoff : addr.toNat - 0x8000 = a := by omega
  refine ⟨fun hidle => ⟨s.scr.write a (lowBytes n v), ?write, ?bytes, ?others⟩, fun hidle => ?read, fun hbusy => ?busy⟩
  case write => rw [State.hostStep_write_scr v hscr halign hidle, hoff]
  case bytes =>
    intro i hi
    rw [Memory.read_write_same _ _ _ _ ((lowBytes_length n v).symm ▸ hi), lowBytes_getElem_toNat]
  case others =>
    intro b hb
    exact Memory.read_write_other _ _ _ _ ((lowBytes_length n v).symm ▸ hb)
  case read =>
    rw [State.hostStep_read_scr hscr halign hidle, hoff, load_eq_ofNat]
    rfl
  case busy => exact ⟨_, drawn_toNat_lt n _, State.hostStep_read_scr_busy hscr halign hbusy⟩

end Sys2Proof.Proofs
end

section
/-! Accesses without effect: those the port forbids, and those of reserved words and of read-only registers
(spec/20_memory.md R124 to R126). -/

namespace Sys2Proof.Proofs

open Sys2Proof Sys2Proof.Machine

theorem legalAccess_of_forbidden {a : BitVec 16} {n : AccSize} (h : forbiddenAccess a n) :
    legalAccess a n = false := by
  unfold forbiddenAccess at h
  split at h
  case isTrue hlow => rcases h with h | h <;> simp [legalAccess, hlow, h]
  case isFalse hscr => rw [legalAccess_scr (Nat.not_lt.1 hscr), decide_eq_false h]

/-! ### Reserved words -/

theorem writeIgnored_word {a : Nat} (h : writeIgnored a = true) : a < 0x8000 ∧ a % 4 = 0 := by
  simp only [writeIgnored, Bool.and_eq_true, decide_eq_true_eq, beq_iff_eq] at h
  exact h.1

theorem regAt_reserved_low : ∀ k < 0x180, reservedAddr (4 * k) = true → regAt (4 * k) = none := by decide +kernel

/-- No register stands at a reserved word. -/
theorem regAt_reserved {a : Nat} (h : reservedAddr a = true) : regAt a = none := by
  by_cases hlow : a < 0x600
  · have h4 := (writeIgnored_word (Bool.and_eq_true_iff.1 h).1).2
    obtain ⟨k, rfl⟩ := Nat.dvd_of_mod_eq_zero h4
    exact regAt_reserved_low k (by omega) h
  · exact regAt_none (Nat.not_lt.1 hlow)

/-! ### Read-only registers -/

/-- The registers that a write leaves without effect (spec/10_state.md R77). -/
def readOnlyRegs : List Reg :=
  [.id, .status, .errCode, .fftLen, .crc32Res, .crc16Res, .pktStatus, .btResult, .tick, .rxData]

theorem readOnly_not_busyGuarded : ∀ r ∈ readOnlyRegs, r.busyGuarded = false := by decide

theorem regStore_readOnly (s : State) (v : Word) {r : Reg} (h : r ∈ readOnlyRegs) : s.regStore v r = s := by
  simp only [readOnlyRegs, List.mem_cons, List.not_mem_nil, or_false] at h
  rcases h with rfl | rfl | rfl | rfl | rfl | rfl | rfl | rfl | rfl | rfl <;> rfl

/-- An address whose writes are ignored is a reserved word or holds a read-only register. -/
theorem reserved_or_readOnly {a : BitVec 16} (h : writeIgnored a.toNat = true) :
    reservedAddr a.toNat = true ∨ ∃ r ∈ readOnlyRegs, a = regAddr r := by
  by_cases hlist : a.toNat ∈ readOnlyRegs.map fun r => (regAddr r).toNat
  · obtain ⟨r, hr, ha⟩ := List.mem_map.1 hlist
    exact .inr ⟨r, hr, BitVec.eq_of_toNat_eq ha.symm⟩
  · refine .inl (Bool.and_eq_true_iff.2 ⟨h, ?_⟩)
    rw [Bool.not_eq_true', ← Bool.not_eq_true, List.contains_iff_mem]
    exact hlist

/-- Settles O51, by the three kinds of address. -/
theorem forbiddenAndReservedAccesses : Obligations.ForbiddenAndReservedAccesses := by
  intro s a n v
  refine ⟨fun h => ?forbidden, fun h => ?reserved, fun h => ?ignored⟩
  case forbidden =>
    obtain ⟨hread, hwrite⟩ := State.hostStep_forbidden (s := s) (legalAccess_of_forbidden h) v
    exact ⟨hread, by rw [hread]; rfl, hwrite⟩
  case reserved =>
    obtain ⟨hlow, h4⟩ := writeIgnored_word (Bool.and_eq_true_iff.1 h).1
    exact State.hostStep_read_reserved hlow h4 (regAt_reserved h)
  case ignored =>
    rcases reserved_or_readOnly h with hres | ⟨r, hr, rfl⟩
    · obtain ⟨hlow, h4⟩ := writeIgnored_word h
      exact State.hostStep_write_reserved v hlow h4 (regAt_reserved hres)
    · rw [write_regAddr v (.inr (readOnly_not_busyGuarded r hr)), regStore_readOnly s v hr]
      rfl

end Sys2Proof.Proofs
end

section
/-! Command words: the fields as digits of the word's number, the pairs of OP and SEL that are listed, and what each word
decodes to (spec/30_encoding.md R160 to R164). -/

namespace Sys2Proof.Proofs

open Sys2Proof Sys2Proof.Machine

/-! ### Fields -/

theorem opField_toNat (w : Word) : (opField w).toNat = w.toNat % 256 := by
  simp [opField]

theorem selField_toNat (w : Word) : (selField w).toNat = w.toNat / 256 % 4 := by
  simp [selField, Nat.shiftRight_eq_div_pow]

theorem rsvField_eq_zero_iff (w : Word) : rsvField w = 0 ↔ w.toNat < 1024 := by
  have hrsv : (rsvField w).toNat = w.toNat / 1024 := by
    simp only [rsvField, BitVec.extractLsb'_toNat, Nat.shiftRight_eq_div_pow]
    omega
  rw [← BitVec.toNat_inj, hrsv]
  exact Nat.div_eq_zero_iff_lt (by decide)

/-- The fields of an encoded word are the command's OP and SEL, with RSV 0. -/
theorem encode_toNat (i : Instr) : (encode i).toNat = i.opCode.toNat + 256 * i.selCode.toNat := by
  cases i <;> rfl

/-! ### The pairs of OP and SEL -/

/-- How many SEL values R162 lists for this OP; they are the first ones. -/
def listedSels : Nat → Nat
  | 0x00 | 0x05 | 0x06 | 0x09 | 0x0A | 0x0B => 1
  | 0x03 | 0x07 | 0x08 => 2
  | 0x01 | 0x02 | 0x04 => 3
  | _ => 0

theorem listedSels_unassigned {op : Nat} (h : 0x0C ≤ op) : listedSels op = 0 := by
  unfold listedSels
  split <;> omega

/-- The rows of R164 for a SEL that its OP does not list. -/
theorem unlistedSel_rows_iff {op sel : Nat} (hsel : sel < 4) :
    (op ∈ [0x00, 0x05, 0x06, 0x09, 0x0A, 0x0B] ∧ 1 ≤ sel)
        ∨ (op ∈ [0x03, 0x07, 0x08] ∧ 2 ≤ sel) ∨ (op ∈ [0x01, 0x02, 0x04] ∧ sel = 3) ↔
      op < 0x0C ∧ listedSels op ≤ sel := by
  rcases Nat.lt_or_ge op 0x0C with hop | hop
  case inl => interval_cases op <;> simp [listedSels] <;> omega
  case inr =>
    simp only [List.mem_cons, List.not_mem_nil, or_false]
    omega

theorem decodeFields_eq_ok_iff {op sel : Nat} {i : Instr} :
    decodeFields op sel = .ok i ↔ op = i.opCode.toNat ∧ sel = i.selCode.toNat := by
  constructor
  · intro h
    unfold decodeFields at h
    split at h
    case h_22 => split at h <;> cases h
    all_goals cases h; exact ⟨rfl, rfl⟩
  · rintro ⟨rfl, rfl⟩
    cases i <;> rfl

theorem decodeFields_listed {op sel : Nat} (h : sel < listedSels op) : ∃ i, decodeFields op sel = .ok i := by
  unfold listedSels at h
  split at h <;> interval_cases sel <;> exact ⟨_, rfl⟩

theorem decodeFields_not_listed {op sel : Nat} (h : listedSels op ≤ sel) :
    decodeFields op sel = if op < 0x0C then .error .unlistedSel else .error .unassignedOp := by
  unfold decodeFields
  split
  case h_22 => simp only [Nat.lt_succ_iff]
  all_goals exact absurd h (by decide)

/-! ### Words -/

theorem decodeWord_of_reserved {w : Word} (h : 1024 ≤ w.toNat) : decodeWord w = .error .reservedBits :=
  if_pos ((rsvField_eq_zero_iff w).not.2 h.not_gt)

theorem decodeWord_of_lt {w : Word} (h : w.toNat < 1024) :
    decodeWord w = decodeFields (w.toNat % 256) (w.toNat / 256) := by
  have hsel : w.toNat / 256 % 4 = w.toNat / 256 := Nat.mod_eq_of_lt (by omega)
  rw [decodeWord, if_neg (not_not.2 ((rsvField_eq_zero_iff w).2 h)), opField_toNat, selField_toNat, hsel]

/-- The decoder's answer in its four cases, in the order of R163. -/
theorem decodeWord_cases (w : Word) :
    (1024 ≤ w.toNat ∧ decodeWord w = .error .reservedBits)
      ∨ (w.toNat < 1024 ∧ 0x0C ≤ w.toNat % 256 ∧ decodeWord w = .error .unassignedOp)
      ∨ (w.toNat < 1024 ∧ w.toNat % 256 < 0x0C ∧ listedSels (w.toNat % 256) ≤ w.toNat / 256
          ∧ decodeWord w = .error .unlistedSel)
      ∨ (w.toNat < 1024 ∧ w.toNat % 256 < 0x0C ∧ w.toNat / 256 < listedSels (w.toNat % 256)
          ∧ ∃ i, decodeWord w = .ok i) := by
  rcases Nat.lt_or_ge w.toNat 1024 with hlow | hrsv
  case inr => exact .inl ⟨hrsv, decodeWord_of_reserved hrsv⟩
  rw [decodeWord_of_lt hlow]
  rcases Nat.lt_or_ge (w.toNat % 256) 0x0C with hop | hop
  case inr =>
    have hsel : listedSels (w.toNat % 256) ≤ w.toNat / 256 :=
      (listedSels_unassigned hop).trans_le (Nat.zero_le _)
    exact .inr (.inl ⟨hlow, hop, by rw [decodeFields_not_listed hsel, if_neg hop.not_gt]⟩)
  rcases Nat.lt_or_ge (w.toNat / 256) (listedSels (w.toNat % 256)) with hsel | hsel
  · exact .inr (.inr (.inr ⟨hlow, hop, hsel, decodeFields_listed hsel⟩))
  · exact .inr (.inr (.inl ⟨hlow, hop, hsel, by rw [decodeFields_not_listed hsel, if_pos hop]⟩))

/-- A word decodes to a command exactly when it is the command's word. -/
theorem decodeWord_eq_ok_iff {w : Word} {i : Instr} : decodeWord w = .ok i ↔ w = encode i := by
  have hop : i.opCode.toNat < 256 := i.opCode.isLt
  have hsel : i.selCode.toNat < 4 := i.selCode.isLt
  rw [← BitVec.toNat_inj, encode_toNat]
  rcases Nat.lt_or_ge w.toNat 1024 with hlow | hrsv
  · rw [decodeWord_of_lt hlow, decodeFields_eq_ok_iff]
    omega
  · rw [decodeWord_of_reserved hrsv]
    exact iff_of_false nofun (by omega)

theorem mem_legalWords_iff {w : Word} {i : Instr} : (w, i) ∈ legalWords ↔ w = encode i := by
  have hword : ∀ p ∈ legalWords, p.1 = encode p.2 := by decide
  constructor
  · exact hword (w, i)
  · rintro rfl
    cases i <;> decide

/-! ### Bytes -/

/-- Only four bytes decode, and they decode as the word they are the bytes of. -/
theorem decodeBytes_eq_ok_iff {bs : List Byte} {i : Instr} : decodeBytes bs = .ok i ↔ bs = wordBytes (encode i) := by
  constructor
  · intro h
    unfold decodeBytes at h
    split at h
    case h_1 b0 b1 b2 b3 => rw [← decodeWord_eq_ok_iff.1 h, wordBytes_bytesWord]
    case h_2 => cases h
  · rintro rfl
    rw [decodeBytes_wordBytes, decodeWord_eq_ok_iff]

/-- Settles O1: both right-hand sides say that the bytes are those of the encoder's word. -/
theorem legalCommandsAreExactlyTheTable : Obligations.LegalCommandsAreExactlyTheTable := by
  intro bs i
  refine ⟨?_, decodeBytes_eq_ok_iff⟩
  simp only [mem_legalWords_iff, exists_eq_left, decodeBytes_eq_ok_iff]

/-- Settles O2, by the four cases of the decoder: each makes one of the reasons true and the others false. -/
theorem illegalWordsByReason : Obligations.IllegalWordsByReason := by
  intro w
  have hrows (hlow : w.toNat < 1024) := unlistedSel_rows_iff (op := w.toNat % 256) (sel := w.toNat / 256) (by omega)
  rcases decodeWord_cases w with ⟨hrsv, hd⟩ | ⟨hlow, hop, hd⟩ | ⟨hlow, hop, hsel, hd⟩ | ⟨hlow, hop, hsel, i, hd⟩
  · simp [hd, hrsv, hrsv.not_gt]
  · rw [hrows hlow]
    simp [hd, hlow, hop, hop.not_gt]
  · rw [hrows hlow]
    simp [hd, hlow, hop, hsel]
  · rw [hrows hlow]
    simp [hd, hlow, hop, hsel]

/-- Settles O3: the legal words by the encoder's words, the rejected ones by their reasons. -/
theorem sampleWordsDecode : Obligations.SampleWordsDecode := by
  obtain ⟨-, -, hsel, -⟩ := illegalWordsByReason 0x302
  exact ⟨decodeBytes_eq_ok_iff.2 rfl, decodeBytes_eq_ok_iff.2 rfl, decodeBytes_eq_ok_iff.2 rfl,
    hsel.2 (by decide), decodeWord_of_reserved (by decide)⟩

end Sys2Proof.Proofs
end

section
/-! Commands that SEQ runs to their end: a command whose checks pass writes results and completes, a command of which a
check fails only completes, and a word outside the table completes as one (spec/40_control.md R207 to R212). -/

namespace Sys2Proof.Proofs

open Sys2Proof Sys2Proof.Machine

/-! ### The event bits of a completion (spec/40_control.md R208) -/

theorem complete_sets_done (s : State) (c : ErrCode) (w : BitVec 3) :
    (s.complete c w).events.getLsbD 0 = true := by
  simp [evDone]

theorem complete_err_iff (s : State) (c : ErrCode) (w : BitVec 3) :
    (s.complete c w).events.getLsbD 1 = true ↔ c ≠ .ok ∨ s.events.getLsbD 1 = true := by
  have herr : (if c = .ok then 0 else evErr).getLsbD 1 = true ↔ c ≠ .ok := by split <;> simp [evErr, *]
  have hwarn : (if w = 0 then 0 else evWarn).getLsbD 1 = false := by split <;> rfl
  rw [State.complete_events, BitVec.getLsbD_or, BitVec.getLsbD_or, BitVec.getLsbD_or, hwarn, ← herr]
  simp [evDone, or_comm]

/-- DONE, ERR and WARN are the bits 0 to 2. -/
theorem complete_keeps_high_bits (s : State) (c : ErrCode) (w : BitVec 3) {b : Nat} (hb : 3 ≤ b) :
    (s.complete c w).events.getLsbD b = s.events.getLsbD b := by
  have hhigh (e : BitVec 8) (he : e.toNat < 2 ^ 3) : e.getLsbD b = false :=
    Nat.testBit_lt_two_pow (he.trans_le (Nat.pow_le_pow_right (by decide) hb))
  have hdone := hhigh evDone (by decide)
  have herr := hhigh (if c = .ok then 0 else evErr) (by split <;> decide)
  have hwarn := hhigh (if w = 0 then 0 else evWarn) (by split <;> decide)
  rw [State.complete_events, BitVec.getLsbD_or, BitVec.getLsbD_or, BitVec.getLsbD_or, hdone, herr, hwarn]
  simp

/-! ### One-step commands -/

/-- `u` is `s` with other results: SCR, SCR_TAG and the result registers. -/
def ResultFrame (s u : State) : Prop :=
  u = { s with
    scr := u.scr, tag := u.tag, fftLen := u.fftLen, crc32Res := u.crc32Res, crc16Res := u.crc16Res
    pktStatus := u.pktStatus }

theorem ResultFrame.refl (s : State) : ResultFrame s s := rfl

/-- How a one-step command runs: its checks, then results and a completion without error. -/
def RunsInOneStep (i : Instr) (s : State) : Prop :=
  ∃ u warns, ResultFrame s u ∧ exec i s = .next (s.checked (specChecks i s) (u.complete .ok warns))

theorem RunsInOneStep.of_exec {i : Instr} {s u : State} {checks : List (Bool × ErrCode)} {warns : BitVec 3}
    (h : exec i s = .next (s.checked checks (u.complete .ok warns))) (hc : checks = specChecks i s)
    (hu : ResultFrame s u) : RunsInOneStep i s := ⟨u, warns, hu, hc ▸ h⟩

theorem exec_oneStep {i : Instr} (s : State) (h : multiStep i = false) : RunsInOneStep i s := by
  cases i with
  | nop | firNone => exact .of_exec (checks := []) rfl rfl (.refl s)
  | synthF32 | synthU16 | synthFix => exact .of_exec rfl rfl rfl
  | firLp => exact .of_exec rfl s.firChecks_lp rfl
  | firBp => exact .of_exec rfl s.firChecks_bp rfl
  | normF => exact .of_exec rfl s.normFChecks_eq rfl
  | normQ => exact .of_exec rfl s.normQChecks_eq rfl
  | winBlackman | winHamming | winHann => exact .of_exec rfl (s.winChecks_eq (by decide)) rfl
  | fft => exact .of_exec rfl s.fftChecks_eq rfl
  | mag => exact .of_exec rfl s.magChecks_eq rfl
  | crc32 | crc16 => exact .of_exec rfl (s.regionChecks_eq (by decide)) rfl
  | pktChk => exact .of_exec rfl s.pktChkChecks_eq rfl
  | sendB | sendH | pktBld | btx => exact absurd h (by decide)

/-- Where a check fails the completion raises its code, on the state as it was. -/
theorem exec_oneStep_complete {i : Instr} (s : State) (h : multiStep i = false) :
    ∃ u warns, ResultFrame s u ∧ exec i s = .next (u.complete ((specError i s).getD .ok) warns) := by
  obtain ⟨u, warns, hu, hexec⟩ := exec_oneStep s h
  have hcheck : firstError (specChecks i s) = specError i s := firstError_eq_specError rfl
  cases he : specError i s with
  | none => exact ⟨u, warns, hu, by rw [hexec, State.checked_of_none (hcheck.trans he)]; rfl⟩
  | some code => exact ⟨s, 0, .refl s, by rw [hexec, State.checked_of_some (hcheck.trans he)]; rfl⟩

/-- Settles O9, from the completion on a state that differs in its results alone. -/
theorem oneStepCommandsCompleteAtOnce : Obligations.OneStepCommandsCompleteAtOnce := by
  intro i s h
  obtain ⟨u, warns, hu, hexec⟩ := exec_oneStep_complete s h
  have hev : u.events = s.events := by rw [hu]
  refine ⟨_, hexec, rfl, complete_sets_done _ _ _, rfl, ?err, fun b hb => ?high, ?frame⟩
  case err => rw [← hev]; exact complete_err_iff _ _ _
  case high => rw [← hev]; exact complete_keeps_high_bits _ _ _ hb
  case frame => rw [hu]; rfl

/-! ### Failing checks -/

/-- A streaming command or a BTX runs its checks at its start step, the others at their one step. -/
theorem exec_runs_checks {i : Instr} {s : State} (h : multiStep i = true → ∃ w, s.seq = .run w .start) :
    ∃ done, exec i s = .next (s.checked (specChecks i s) done) := by
  cases hm : multiStep i with
  | false =>
    obtain ⟨u, warns, -, hexec⟩ := exec_oneStep s hm
    exact ⟨_, hexec⟩
  | true =>
    obtain ⟨w, hw⟩ := h hm
    have hp : s.progress = .start := State.progress_of_run hw
    cases i with
    | sendB =>
      rw [← s.regionChecks_eq (.inr (.inr rfl))]
      exact ⟨_, congrArg _ (State.stream_start (.inl hp))⟩
    | sendH => rw [← s.sendHChecks_eq]; exact ⟨_, congrArg _ (State.stream_start (.inl hp))⟩
    | pktBld => rw [← s.pktBldChecks_eq]; exact ⟨_, congrArg _ (State.stream_start (.inl hp))⟩
    | btx => rw [← s.btxChecks_eq]; exact ⟨s.btxStart, by rw [exec, execBtx, hp]⟩
    | _ => exact absurd hm (by decide)

/-- Settles O10, from the check list that the step runs. -/
theorem failingCommandChangesNothingElse : Obligations.FailingCommandChangesNothingElse := by
  intro i s code h hcode
  obtain ⟨done, hexec⟩ := exec_runs_checks h
  have hcheck : firstError (specChecks i s) = some code := (firstError_eq_specError rfl).trans hcode
  rw [hexec, State.checked_of_some hcheck, State.raise_eq (specError_ne_ok hcode)]
  rfl

/-- Settles O11: both commands only succeed. -/
theorem nopAndFirNoneOnlyComplete : Obligations.NopAndFirNoneOnlyComplete := by
  intro s i h
  have hexec : exec i s = .next s.succeed := by rcases h with rfl | rfl <;> rfl
  rw [hexec, State.succeed_eq]
  simp [State.finished]

/-! ### Which command a step runs -/

/-- Settles O4: on either schedule the step is SEQ's. -/
theorem stepRunsDecodedCommand : Obligations.StepRunsDecodedCommand := by
  intro s w p i rest hseq hd
  refine ⟨fun hin => ?empty, fun hin => ?named⟩
  case empty =>
    have hstep : step s = s.seqStep := by rw [step, State.machineStep, hin]
    rw [hstep, State.seqStep_run hseq hd]
  case named =>
    have hstep : step s = { s with inputs := rest }.seqStep := by rw [step, State.machineStep, hin]; rfl
    rw [hstep, State.seqStep_run (s := { s with inputs := rest }) hseq hd]

theorem decodeBytes_of_not_legal {w : Word} (h : ∀ i, (w, i) ∉ legalWords) :
    ∃ e, decodeBytes (wordBytes w) = .error e := by
  cases hd : decodeBytes (wordBytes w) with
  | error e => exact ⟨e, rfl⟩
  | ok i =>
    rw [decodeBytes_wordBytes, decodeWord_eq_ok_iff, ← mem_legalWords_iff] at hd
    exact absurd hd (h i)

/-- Settles O5: the word decodes to an error, and the step raises ILLEGAL_CMD. -/
theorem illegalWordCompletesWithIllegalCmd : Obligations.IllegalWordCompletesWithIllegalCmd := by
  intro s w p hseq hw
  obtain ⟨e, hd⟩ := decodeBytes_of_not_legal hw
  rw [State.seqStep_illegal hseq hd, State.raise_eq (by decide)]
  rfl

end Sys2Proof.Proofs
end

section
/-! HOST writes that the sequencer's state decides: the command register, the control register and the busy guard
(spec/40_control.md R204 to R206, R211). -/

namespace Sys2Proof.Proofs

open Sys2Proof Sys2Proof.Machine

/-! ### CMD and CTRL -/

theorem writeCmd_idle {s : State} (w : Word) (h : s.seq = .idle) : s.writeCmd w = s.accept w := by
  simp [State.writeCmd, (State.busy_eq_false_iff s).2 h]

theorem writeCmd_busy {s : State} (w : Word) (h : s.seq ≠ .idle) : s.writeCmd w = s.setEvents evCmdDrop := by
  simp [State.writeCmd, (State.busy_iff s).2 h]

/-- Settles O6: CMD is not busy-guarded, its write is `writeCmd`. -/
theorem cmdWriteIssuesOrIsDropped : Obligations.CmdWriteIssuesOrIsDropped := by
  intro s w
  have hwrite : s.hostStep (.write 0x0014 .word w) = (s.writeCmd w).respond .written :=
    write_regAddr (r := .cmd) w (.inr rfl)
  refine ⟨fun hidle => ?_, fun hbusy => ?_⟩
  · rw [hwrite, writeCmd_idle w hidle]; rfl
  · rw [hwrite, writeCmd_busy w hbusy]; rfl

/-- The engine states 1 to 5 are those in which a BTX can be cancelled (spec/45_transport.md R446). -/
theorem cancellable_iff (s : State) :
    s.cancellable = true ↔
      (∃ p, s.seq = .run 0x0000000B#32 p) ∧ 1 ≤ specBtNumber s.bt.state ∧ specBtNumber s.bt.state ≤ 5 := by
  rw [State.cancellable, Bool.and_eq_true, State.runsBtx_iff]
  refine and_congr_right fun _ => ?_
  cases s.bt.state <;> simp [specBtNumber]

theorem not_cancellable {s : State}
    (h : (∀ p, s.seq ≠ .run 0x0000000B#32 p) ∨ s.bt.state ∈ [BtState.idle, .complete, .aborted]) :
    s.cancellable = false := by
  rcases h with hrun | hrest
  · refine Bool.eq_false_iff.2 fun hc => ?_
    obtain ⟨⟨p, hp⟩, -⟩ := (cancellable_iff s).1 hc
    exact hrun p hp
  · simp only [List.mem_cons, List.not_mem_nil, or_false] at hrest
    rcases hrest with h | h | h <;> simp [State.cancellable, h]

theorem writeCtrl_reset {s : State} {v : Word} (h : v.getLsbD 0 = true) : s.writeCtrl v = s.resetBlock :=
  if_pos h

theorem writeCtrl_cancel {s : State} {v : Word} (h0 : v.getLsbD 0 = false) (h1 : v.getLsbD 1 = true)
    (hc : s.cancellable = true) : s.writeCtrl v = { s with bt := { s.bt with cancelReq := true } } := by
  simp only [State.writeCtrl, h0, h1, hc, Bool.and_self, Bool.false_eq_true, if_false, if_true]

theorem writeCtrl_none {s : State} {v : Word} (h0 : v.getLsbD 0 = false)
    (h : v.getLsbD 1 = false ∨ s.cancellable = false) : s.writeCtrl v = s := by
  have hcancel : (v.getLsbD 1 && s.cancellable) = false := by
    rcases h with h | h <;> simp only [h, Bool.false_and, Bool.and_false]
  simp only [State.writeCtrl, h0, hcancel, Bool.false_eq_true, if_false]

/-- Settles O45: CTRL is not busy-guarded, its write is `writeCtrl`. -/
theorem ctrlWriteActions : Obligations.CtrlWriteActions := by
  intro s v
  have hwrite : s.hostStep (.write 0x0004 .word v) = (s.writeCtrl v).respond .written :=
    write_regAddr (r := .ctrl) v (.inr rfl)
  rw [hwrite]
  refine ⟨fun h0 => ?reset, fun h0 h1 hrun hlow hhigh => ?cancel, fun h0 h => ?none⟩
  case reset => rw [writeCtrl_reset h0]; rfl
  case cancel => rw [writeCtrl_cancel h0 h1 ((cancellable_iff s).2 ⟨hrun, hlow, hhigh⟩)]; rfl
  case none => rw [writeCtrl_none h0 (h.imp_right not_cancellable)]; rfl

/-! ### The busy guard -/

theorem guardedAddr_word {a : Nat} (h : guardedAddr a = true) : a < 0x600 ∧ a % 4 = 0 := by
  simp only [guardedAddr, Bool.and_eq_true, Bool.or_eq_true, beq_iff_eq, decide_eq_true_eq] at h
  omega

theorem regAt_guarded_low : ∀ k < 0x180, guardedAddr (4 * k) = true →
    (regAt (4 * k)).any Reg.busyGuarded = true := by decide +kernel

/-- A busy-guarded register stands at each address that the map marks. -/
theorem regAt_guarded {a : Nat} (h : guardedAddr a = true) : ∃ r, regAt a = some r ∧ r.busyGuarded = true := by
  obtain ⟨hlow, h4⟩ := guardedAddr_word h
  obtain ⟨k, rfl⟩ := Nat.dvd_of_mod_eq_zero h4
  simpa [Option.any_eq_true] using regAt_guarded_low k (by omega) h

/-- Settles O7: the guard of the register half and that of SCR drop the write alike. -/
theorem busyGuardedWritesAreDropped : Obligations.BusyGuardedWritesAreDropped := by
  intro s a n v hbusy h
  rcases h with ⟨hguard, rfl⟩ | ⟨hscr, halign⟩
  · obtain ⟨hlow, h4⟩ := guardedAddr_word hguard
    obtain ⟨r, hr, hg⟩ := regAt_guarded hguard
    rw [State.hostStep_write_reg v (by omega) h4 hr, State.regWrite_guarded v hbusy hg]
    rfl
  · rw [State.hostStep_write_scr_busy v hscr halign hbusy]
    rfl

end Sys2Proof.Proofs
end

section
/-! The operands of a running command: every step of every agent keeps them or ends the command, and a register write
that could change them is dropped (spec/40_control.md R206). -/

namespace Sys2Proof.Proofs

open Sys2Proof Sys2Proof.Machine

/-- What a running command reads, LAST_CMD with it, is in `t` as in `s`, and `t` runs the same word. -/
structure OperandsKept (w : Word) (s t : State) : Prop where
  word : ∃ p, t.seq = .run w p
  cfg : t.cfg = s.cfg
  scr : t.scr = s.scr
  tag : t.tag = s.tag
  lastCmd : t.lastCmd = s.lastCmd

/-- What every step does to the running command `w`. -/
def EndsOrKeeps (w : Word) (s t : State) : Prop := t.seq = .idle ∨ OperandsKept w s t

theorem EndsOrKeeps.respond {w : Word} {s t : State} (h : EndsOrKeeps w s t) (r : HostResponse) :
    EndsOrKeeps w s (t.respond r) :=
  h.imp_right fun ⟨hword, hcfg, hscr, htag, hlast⟩ => ⟨hword, hcfg, hscr, htag, hlast⟩

/-- A start step raises an error or goes on. -/
theorem checked_endsOrKeeps {w : Word} {s done : State} (checks : List (Bool × ErrCode)) (hd : OperandsKept w s done) :
    EndsOrKeeps w s (s.checked checks done) := by
  rcases s.checked_cases done checks with ⟨_, h⟩ | ⟨_, _, h⟩ <;> rw [h]
  · exact .inr hd
  · exact .inl rfl

section
variable {s : State} {w : Word} {p : Progress} (hs : s.seq = .run w p)
include hs

/-- The fields beside SEQSTATE and the operands. -/
theorem OperandsKept.of_frame {t : State}
    (h : t = { s with
      events := t.events, irqEn := t.irqEn, errCode := t.errCode, warn := t.warn, fftLen := t.fftLen
      crc32Res := t.crc32Res, crc16Res := t.crc16Res, pktStatus := t.pktStatus, blocksAcked := t.blocksAcked
      tick := t.tick, rx := t.rx, tx := t.tx, bt := t.bt, inputs := t.inputs, hostResp := t.hostResp
      txLine := t.txLine, draws := t.draws }) : OperandsKept w s t := by
  rw [h]
  exact ⟨⟨p, hs⟩, rfl, rfl, rfl, rfl⟩

theorem EndsOrKeeps.refl : EndsOrKeeps w s s := .inr (.of_frame hs rfl)

theorem withProgress_kept (i : Instr) (q : Progress) : OperandsKept w s (s.withProgress i q) := by
  rw [State.withProgress_of_run i q hs]
  exact ⟨⟨q, rfl⟩, rfl, rfl, rfl, rfl⟩

/-! ### SEQ -/

theorem stream_endsOrKeeps (i : Instr) (checks : List (Bool × ErrCode)) (bytes : List Byte)
    (finish : State → State) : EndsOrKeeps w s (s.stream i checks bytes finish) := by
  cases hp : s.progress with
  | start => rw [State.stream_start (.inl hp)]; exact checked_endsOrKeeps _ (withProgress_kept hs _ _)
  | engine => rw [State.stream_start (.inr hp)]; exact checked_endsOrKeeps _ (withProgress_kept hs _ _)
  | push rest =>
    cases rest with
    | nil => rw [State.stream_done hp]; exact .inl rfl
    | cons b rest =>
      rw [State.stream_push hp]
      split
      · exact .refl hs
      · obtain ⟨hword, hcfg, hscr, htag, hlast⟩ := withProgress_kept (s := s.pushTx b) hs i (.push rest)
        exact .inr ⟨hword, hcfg, hscr, htag, hlast⟩

theorem btxStart_kept : OperandsKept w s s.btxStart := by
  obtain ⟨hword, hcfg, hscr, htag, hlast⟩ := withProgress_kept hs .btx .engine
  exact ⟨hword, hcfg, hscr, htag, hlast⟩

theorem btEngineStep_endsOrKeeps : EndsOrKeeps w s s.btEngineStep := by
  rcases s.btEngineStep_frame with h | ⟨_, hidle, _, _⟩
  · rw [h]; exact .inr (.of_frame hs rfl)
  · exact .inl hidle

theorem exec_endsOrKeeps {t : State} (i : Instr) (h : exec i s = .next t) : EndsOrKeeps w s t := by
  cases hm : multiStep i with
  | false =>
    obtain ⟨u, warns, -, hexec⟩ := exec_oneStep_complete s hm
    rw [hexec] at h
    cases h
    exact .inl rfl
  | true =>
    cases i with
    | sendB | sendH | pktBld => cases h; exact stream_endsOrKeeps hs _ _ _ _
    | btx =>
      cases h
      split
      · exact checked_endsOrKeeps _ (btxStart_kept hs)
      · exact checked_endsOrKeeps _ (btxStart_kept hs)
      · exact btEngineStep_endsOrKeeps hs
    | _ => exact absurd hm (by decide)

theorem seqStep_endsOrKeeps {t : State} (h : s.seqStep = .next t) : EndsOrKeeps w s t := by
  cases hd : decodeBytes (wordBytes w) with
  | ok i => exact exec_endsOrKeeps hs i (State.seqStep_run hs hd ▸ h)
  | error e => rw [State.seqStep_illegal hs hd] at h; cases h; exact .inl rfl

/-! ### HOST -/

theorem seq_ne_idle : s.seq ≠ .idle := by rw [hs]; nofun

/-- The writes that the guard lets through: a reset by CTRL ends the command, the others touch no operand. -/
theorem regStore_endsOrKeeps (v : Word) {r : Reg} (hr : r.busyGuarded = false) :
    EndsOrKeeps w s (s.regStore v r) := by
  cases r with
  | ctrl =>
    show EndsOrKeeps w s (s.writeCtrl v)
    unfold State.writeCtrl
    split_ifs
    · exact .inl rfl
    · exact .inr (.of_frame hs rfl)
    · exact .refl hs
  | cmd =>
    show EndsOrKeeps w s (s.writeCmd v)
    rw [writeCmd_busy v (seq_ne_idle hs)]
    exact .inr (.of_frame hs rfl)
  | events | irqEn | warn => exact .inr (.of_frame hs rfl)
  | id | status | errCode | fftLen | crc32Res | crc16Res | pktStatus | btResult | tick | rxData =>
    rw [regStore_readOnly s v (by decide)]
    exact .refl hs
  | _ => cases hr

theorem regWrite_endsOrKeeps (v : Word) (r : Reg) : EndsOrKeeps w s (s.regWrite v r) := by
  cases hr : r.busyGuarded with
  | true => rw [State.regWrite_guarded v (seq_ne_idle hs) hr]; exact .inr (.of_frame hs rfl)
  | false => rw [State.regWrite_open v (.inr hr)]; exact regStore_endsOrKeeps hs v hr

theorem memWrite_endsOrKeeps (a : BitVec 16) (n : AccSize) (v : Word) : EndsOrKeeps w s (s.memWrite a n v) := by
  unfold State.memWrite
  split_ifs with hbad hlow hbusy
  · exact .respond (.refl hs) _
  · split
    · exact .respond (.refl hs) _
    · exact .respond (regWrite_endsOrKeeps hs v _) _
  · exact .inr (.of_frame hs rfl)
  · exact absurd ((State.busy_iff s).2 (seq_ne_idle hs)) hbusy

theorem hostStep_endsOrKeeps (a : HostAccess) : EndsOrKeeps w s (s.hostStep a) := by
  cases a with
  | read a n =>
    show EndsOrKeeps w s (s.memRead a n)
    rw [(s.memRead_frame a n).1]
    exact .inr (.of_frame hs rfl)
  | write a n v => exact memWrite_endsOrKeeps hs a n v

/-! ### Every agent -/

theorem agentStep_endsOrKeeps {t : State} (a : AgentStep) (h : s.agentStep a = .next t) : EndsOrKeeps w s t := by
  cases a with
  | host a => cases h; exact hostStep_endsOrKeeps hs a
  | seq => exact seqStep_endsOrKeeps hs h
  | srx b => cases h; unfold State.srxStep; split <;> exact .inr (.of_frame hs rfl)
  | stx => cases h; unfold State.stxStep; split <;> exact .inr (.of_frame hs rfl)
  | sync k => cases h; cases k <;> exact .inr (.of_frame hs rfl)
  | tick => cases h; exact .inr (.of_frame hs rfl)
  | resetInput => cases h; exact .inl rfl

end

/-- Settles O8: a step after which a command runs has not ended this one, by a reset or otherwise. -/
theorem operandsFixedWhileBusy : Obligations.OperandsFixedWhileBusy := by
  intro s t a w w' p p' _ hstep hs ht
  rcases agentStep_endsOrKeeps hs a hstep with hidle | ⟨⟨q, hq⟩, hcfg, hscr, htag, hlast⟩
  · rw [hidle] at ht; cases ht
  · rw [hq] at ht
    cases ht
    exact ⟨rfl, hcfg, hscr, htag, hlast⟩

end Sys2Proof.Proofs
end

section
/-! The sine table: the distance of each entry's fixed-point sine to a rounding boundary, against the error of that sine
(spec/41_synthesis.md R240). -/

namespace Sys2Proof.Proofs

open Sys2Proof Sys2Proof.Machine

theorem clamp_eq_max_min {lo hi : Int} (a : Int) (h : lo ≤ hi) : clamp a lo hi = max lo (min a hi) := by
  unfold clamp
  split_ifs <;> omega

/-- The fixed-point number c lies so far from every Q15 rounding boundary that an error of 2^-67 cannot carry it across
one: in units of 2^-128 of a code, `trigOne` is a code and the error is 2^76, so c stays that far inside the half code
on either side of its rounded value. -/
def clearOfTies (c : Int) : Bool :=
  decide (2 * (c * 32768 - roundHalfAway (c * 32768) trigOne * trigOne).natAbs + 2 ^ 77 < trigOne)

/-- A real number near a fixed-point number that is clear of ties has that number's Q15 code. -/
theorem isQ15Of_of_clearOfTies {c : Int} {r : ℝ} (hc : clearOfTies c = true)
    (hr : |(c : ℝ) / trigOne - r| ≤ 1 / 2 ^ 67) : IsQ15Of (q15Rat c trigOne) r := by
  refine ⟨roundHalfAway (c * 32768) trigOne, .inl ?_, clamp_eq_max_min _ (by decide)⟩
  have hclear := of_decide_eq_true hc
  generalize roundHalfAway (c * 32768) trigOne = m at hclear
  have hdist : 2 * |(c : ℝ) * 32768 - m * trigOne| + 2 ^ 77 < trigOne := by
    rw [← Nat.cast_lt (α := ℝ)] at hclear
    push_cast [Nat.cast_natAbs] at hclear
    norm_num1 at hclear ⊢
    exact hclear
  have hone : (trigOne : ℝ) = 2 ^ 128 := by norm_num [trigOne, trigBits]
  rw [hone] at hr hdist
  rw [abs_le] at hr
  have hlow := neg_abs_le ((c : ℝ) * 32768 - m * 2 ^ 128)
  have hup := le_abs_self ((c : ℝ) * 32768 - m * 2 ^ 128)
  rw [abs_lt]
  constructor <;> linarith

/-- Every angle of the table, by computation of its fixed-point sine. -/
theorem sinTurn_clearOfTies : ∀ j < 1024, clearOfTies (sinTurn j 1024) = true := by decide +kernel

/-- Settles O17: the table's error is within the distance of every entry to a tie. -/
theorem sinLutIsTheRoundedSine : Obligations.SinLutIsTheRoundedSine := by
  intro j hj
  have hclose := sinTurn_close j 1024 (by norm_num)
  rw [Nat.cast_ofNat] at hclose
  exact isQ15Of_of_clearOfTies (sinTurn_clearOfTies j hj) hclose

end Sys2Proof.Proofs
end

section
/-! SYNTH: the sample words of each command as functions of the configuration, and what a SYNTH whose checks pass leaves
(spec/41_synthesis.md). -/

namespace Sys2Proof.Proofs

open Sys2Proof Sys2Proof.Machine

/-! ### The fixed-point tone sum (spec/41_synthesis.md R239, R241) -/

theorem foldl_add_eq_sum (f : Nat → Int) (v : Int) (m : Nat) :
    (List.range m).foldl (fun v i => v + f i) v = v + ∑ i ∈ Finset.range m, f i := by
  induction m with
  | zero => simp
  | succ m ih => rw [List.range_succ, List.foldl_append, ih, Finset.sum_range_succ, ← add_assoc]; rfl

theorem toneSumX_eq (s : State) (n : Nat) :
    s.toneSumX n = s.cfg.dcOffset.toNat + ∑ i ∈ Finset.range s.synthTones, specToneFix s.cfg n i :=
  foldl_add_eq_sum (specToneFix s.cfg n) _ _

theorem specCodeFix_range (c : Cfg) (m n : Nat) : 0 ≤ specCodeFix c m n ∧ specCodeFix c m n ≤ 4095 := by
  have hv : (0 : Int) ≤ c.vref.toNat := Int.natCast_nonneg _
  unfold specCodeFix
  set x : Int := max 0 (min _ _) with hx
  have hx0 : 0 ≤ x := le_max_left _ _
  have hxv : x ≤ c.vref.toNat := max_le hv (min_le_right _ _)
  refine ⟨Int.ediv_nonneg (by omega) hv, ?_⟩
  rcases hv.eq_or_lt with hzero | hpos
  · rw [← hzero, Int.ediv_zero]; decide
  · exact Int.ediv_le_of_le_mul hpos (by omega)

theorem codeX_eq (s : State) (n : Nat) : (s.codeX n : Int) = specCodeFix s.cfg s.synthTones n := by
  have hcode : s.codeX n = (specCodeFix s.cfg s.synthTones n).toNat := by
    rw [State.codeX, toneSumX_eq, clamp_eq_max_min _ (Int.natCast_nonneg _)]; rfl
  rw [hcode, Int.toNat_of_nonneg (specCodeFix_range _ _ _).1]

/-! ### The binary32 tone sum and its noise (spec/41_synthesis.md R234, R236, R238) -/

theorem toneSumF_eq (s : State) (n : Nat) : s.toneSumF n = specTonesF32 s.cfg n s.synthTones := by
  unfold State.toneSumF
  generalize s.synthTones = m
  induction m with
  | zero => rfl
  | succ m ih => rw [List.range_succ, List.foldl_append, ih]; rfl

theorem xorshift_toNat (x : Word) : (xorshift x).toNat = specXorshift x.toNat := by
  simp [xorshift, specXorshift, Nat.shiftLeft_eq, Nat.shiftRight_eq_div_pow]

theorem noiseState_toNat (seed : Word) (n : Nat) : (noiseState seed n).toNat = specXorshift^[n] seed.toNat := by
  induction n with
  | zero => rfl
  | succ n ih => rw [noiseState, xorshift_toNat, ih, Function.iterate_succ_apply']

/-- The top 24 bits of a generator state as the spec's quotient. -/
theorem toNat_extract_high (x : Word) : (x.extractLsb' 8 24).toNat = x.toNat / 2 ^ 8 := by
  rw [BitVec.extractLsb'_toNat, Nat.shiftRight_eq_div_pow]
  omega

theorem noisyF_eq (s : State) (n : Nat) : s.noisyF n = specNoisyF32 s.cfg s.synthTones n := by
  unfold State.noisyF specNoisyF32 specNoise noiseUnit
  rw [toneSumF_eq, toNat_extract_high, noiseState_toNat]
  rfl

theorem quantize_eq (s : State) (n : Nat) :
    s.quantize (s.clampF (s.toneSumF n)) = specCodeU16 s.cfg s.synthTones n := by
  rw [toneSumF_eq]; rfl

/-! ### What a SYNTH leaves (spec/41_synthesis.md R231 to R233) -/

/-- Sample word n of a SYNTH command; the other commands have none. -/
def synthWord (i : Instr) (c : Cfg) (n : Nat) : Word :=
  let tones := min c.numTones.toNat 8
  match i with
  | .synthF32 => f32Clamp (specNoisyF32 c tones n) 0 (f32OfNat c.vref.toNat)
  | .synthU16 => BitVec.ofNat 32 (specCodeU16 c tones n)
  | .synthFix => BitVec.ofInt 32 (specCodeFix c tones n)
  | _ => 0

/-- The kind of a SYNTH command's samples. -/
def synthKind (i : Instr) : Kind := if i = .synthF32 then .f32Phys else .u16

theorem synthChecks_pass {s : State} (h : specSynthReady s.cfg) : firstError s.synthChecks = none := by
  obtain ⟨hsrc, hfs, hvref, hlen⟩ := h
  have hsrc' : (s.cfg.sigSrc == 1) = false := by rw [hsrc]; rfl
  simp only [State.synthChecks, firstError, hsrc', beq_false_of_ne hfs, beq_false_of_ne hvref, beq_false_of_ne hlen,
    Bool.false_eq_true, if_false]

/-- The words a SYNTH stores, and the state otherwise. -/
theorem synthDone_result (s : State) (kind : Kind) {sample word : Nat → Word} (h : ∀ n, sample n = word n) :
    let count := min s.cfg.len.toNat 4096
    let t := s.synthDone kind sample
    WordsWritten s t count word
      ∧ t = { s.finished (specSynthWarns s.cfg) with
          scr := t.scr, tag := { kind, win := .none, count := BitVec.ofNat 13 count } } := by
  intro count t
  refine ⟨.of_tabulate (f := sample) rfl fun n _ => h n, ?_⟩
  simp only [t, State.synthDone, State.complete_ok]
  rfl

/-- A SYNTH whose checks pass: its words, its tag, the warnings of its clips, and nothing else. -/
theorem exec_synth {i : Instr} (hi : i = .synthF32 ∨ i = .synthU16 ∨ i = .synthFix) {s : State}
    (hs : specSynthReady s.cfg) :
    let count := min s.cfg.len.toNat 4096
    ∃ t, exec i s = .next t ∧ WordsWritten s t count (synthWord i s.cfg)
      ∧ t = { s.finished (specSynthWarns s.cfg) with
          scr := t.scr, tag := { kind := synthKind i, win := .none, count := BitVec.ofNat 13 count } } := by
  have run {kind : Kind} {sample : Nat → Word} :
      s.checked s.synthChecks (s.synthDone kind sample) = s.synthDone kind sample :=
    State.checked_of_none (synthChecks_pass hs)
  rcases hi with rfl | rfl | rfl
  · exact ⟨_, congrArg Host.Outcome.next run, synthDone_result s .f32Phys fun n => by rw [noisyF_eq]; rfl⟩
  · exact ⟨_, congrArg Host.Outcome.next run, synthDone_result s .u16 fun n => by rw [quantize_eq]; rfl⟩
  · exact ⟨_, congrArg Host.Outcome.next run, synthDone_result s .u16 fun n => by
      rw [wordU16, ← BitVec.ofInt_natCast, codeX_eq]; rfl⟩

/-- A SYNTH that runs from a state whose checks pass. -/
theorem synth_outcome {i : Instr} (hi : i = .synthF32 ∨ i = .synthU16 ∨ i = .synthFix) {s t : State}
    (hs : specSynthReady s.cfg) (ht : exec i s = .next t) :
    t.tag = { kind := synthKind i, win := .none, count := BitVec.ofNat 13 (min s.cfg.len.toNat 4096) }
      ∧ ∀ n, n < min s.cfg.len.toNat 4096 → t.scr.word n = synthWord i s.cfg n := by
  obtain ⟨u, hu, ⟨hwords, -⟩, hframe⟩ := exec_synth hi hs
  obtain rfl : u = t := Host.Outcome.next.inj (hu.symm.trans ht)
  exact ⟨by rw [hframe], hwords⟩

/-- Settles O12, from what every SYNTH leaves. -/
theorem synthFixResult : Obligations.SynthFixResult := fun _ hs => exec_synth (i := .synthFix) (by decide) hs

/-- Settles O13, from what every SYNTH leaves. -/
theorem floatSynthResult : Obligations.FloatSynthResult := fun _ hs =>
  ⟨exec_synth (i := .synthF32) (by decide) hs, exec_synth (i := .synthU16) (by decide) hs⟩

/-! ### The operands of a SYNTH (spec/41_synthesis.md R243) -/

/-- The tone sums and the clamp read the same registers in both configurations. -/
structure SameToneOperands (c₁ c₂ : Cfg) : Prop where
  fs : c₁.fs = c₂.fs
  vref : c₁.vref = c₂.vref
  dcOffset : c₁.dcOffset = c₂.dcOffset
  numTones : c₁.numTones = c₂.numTones
  freq : c₁.freq = c₂.freq
  amp : c₁.amp = c₂.amp

section
variable {c₁ c₂ : Cfg} (h : SameToneOperands c₁ c₂)
include h

theorem SameToneOperands.freqAt (i : Nat) : c₁.freqAt i = c₂.freqAt i := by rw [Cfg.freqAt, h.freq]; rfl

theorem SameToneOperands.ampAt (i : Nat) : c₁.ampAt i = c₂.ampAt i := by rw [Cfg.ampAt, h.amp]; rfl

theorem specCodeFix_congr (m n : Nat) : specCodeFix c₁ m n = specCodeFix c₂ m n := by
  simp only [specCodeFix, specToneFix, h.freqAt, h.ampAt, h.fs, h.dcOffset, h.vref]

theorem specTonesF32_congr (n m : Nat) : specTonesF32 c₁ n m = specTonesF32 c₂ n m := by
  induction m with
  | zero => rw [specTonesF32, h.dcOffset, specTonesF32]
  | succ m ih => simp only [specTonesF32, ih, h.freqAt, h.ampAt, h.fs]

theorem specCodeU16_congr (m n : Nat) : specCodeU16 c₁ m n = specCodeU16 c₂ m n := by
  simp only [specCodeU16, specTonesF32_congr h, h.vref]

theorem specNoisyF32_congr (hamp : c₁.noiseAmp = c₂.noiseAmp) (hseed : c₁.noiseSeed = c₂.noiseSeed) (m n : Nat) :
    specNoisyF32 c₁ m n = specNoisyF32 c₂ m n := by
  simp only [specNoisyF32, specNoise, specTonesF32_congr h, hamp, hseed]

theorem synthWord_congr {i : Instr} (hi : i = .synthF32 ∨ i = .synthU16 ∨ i = .synthFix)
    (hnoise : i = .synthF32 → c₁.noiseAmp = c₂.noiseAmp ∧ c₁.noiseSeed = c₂.noiseSeed) (n : Nat) :
    synthWord i c₁ n = synthWord i c₂ n := by
  rcases hi with rfl | rfl | rfl
  · obtain ⟨hamp, hseed⟩ := hnoise rfl
    simp only [synthWord, specNoisyF32_congr h hamp hseed, h.vref, h.numTones]
  · simp only [synthWord, specCodeU16_congr h, h.numTones]
  · simp only [synthWord, specCodeFix_congr h, h.numTones]

end

/-- Settles O14: tag and words are functions of the operands. -/
theorem synthDependsOnOperandsOnly : Obligations.SynthDependsOnOperandsOnly := by
  intro i s₁ s₂ t₁ t₂ hi hsrc hfs hvref hdc hlen hnum hfreq hamp hnoise hs₁ ht₁ ht₂
  have hs₂ : specSynthReady s₂.cfg := by
    rwa [specSynthReady, hsrc, hfs, hvref, hlen] at hs₁
  obtain ⟨htag₁, hwords₁⟩ := synth_outcome hi hs₁ ht₁
  obtain ⟨htag₂, hwords₂⟩ := synth_outcome hi hs₂ ht₂
  rw [← hlen] at htag₂ hwords₂
  refine ⟨htag₁.trans htag₂.symm, fun n hn => ?_⟩
  have hcount : n < min s₁.cfg.len.toNat 4096 := by
    rw [htag₁, BitVec.toNat_ofNat] at hn
    exact hn.trans_le (Nat.mod_le _ _)
  rw [hwords₁ n hcount, hwords₂ n hcount]
  exact synthWord_congr ⟨hfs, hvref, hdc, hnum, hfreq, hamp⟩ hi hnoise n

/-! ### Ranges (spec/41_synthesis.md R244) -/

/-- A clamp answers one of its bounds or a finite value between them, whatever it is given. -/
theorem f32Clamp_range {lo hi : F32} (hlo : f32IsFinite lo = true) (hhi : f32IsFinite hi = true)
    (hle : f32Int lo ≤ f32Int hi) (x : F32) :
    f32IsFinite (f32Clamp x lo hi) = true ∧ f32Int lo ≤ f32Int (f32Clamp x lo hi)
      ∧ f32Int (f32Clamp x lo hi) ≤ f32Int hi := by
  have atLo : f32IsFinite lo = true ∧ f32Int lo ≤ f32Int lo ∧ f32Int lo ≤ f32Int hi := ⟨hlo, le_rfl, hle⟩
  have atHi : f32IsFinite hi = true ∧ f32Int lo ≤ f32Int hi ∧ f32Int hi ≤ f32Int hi := ⟨hhi, hle, le_rfl⟩
  cases hfin : f32IsFinite x with
  | true =>
    rw [f32Clamp_of_finite hlo hhi hfin]
    split_ifs with hbelow habove
    · exact atLo
    · exact atHi
    · exact ⟨hfin, le_of_not_gt hbelow, le_of_not_gt habove⟩
  | false =>
    have hexp : f32Exp x = 255 := by simpa [f32IsFinite] using hfin
    by_cases hfrac : f32Frac x = 0
    · rw [f32Clamp_of_inf hlo hhi (by simp [f32IsInf, hexp, hfrac])]
      split_ifs
      · exact atLo
      · exact atHi
    · rw [f32Clamp_of_nan lo hi (by simp [f32IsNan, hexp, hfrac])]
      exact atLo

/-- Integers of 24 bits are binary32 values. -/
theorem f32Int_ofNat {n : Nat} (h : n < 2 ^ 24) :
    f32IsFinite (f32OfNat n) = true ∧ f32Int (f32OfNat n) = n * 2 ^ 149 := by
  obtain ⟨hfin, hneg, hunits⟩ := f32OfNat_exact n h
  refine ⟨hfin, ?_⟩
  rw [f32Int, hneg, hunits]
  push_cast
  rfl

theorem f32_zero_value : f32IsFinite 0 = true ∧ f32Int 0 = 0 := by decide

theorem synthWord_f32_range (c : Cfg) (n : Nat) :
    f32IsFinite (synthWord .synthF32 c n) = true ∧ 0 ≤ f32Int (synthWord .synthF32 c n)
      ∧ f32Int (synthWord .synthF32 c n) ≤ c.vref.toNat * 2 ^ 149 := by
  obtain ⟨hvfin, hv⟩ := f32Int_ofNat (c.vref.isLt.trans (by norm_num))
  obtain ⟨hzfin, hz⟩ := f32_zero_value
  have hrange := f32Clamp_range hzfin hvfin (by rw [hz, hv]; positivity)
    (specNoisyF32 c (min c.numTones.toNat 8) n)
  rwa [hz, hv] at hrange

theorem synthWord_u16_le (c : Cfg) (n : Nat) : (synthWord .synthU16 c n).toNat ≤ 4095 := by
  have hcode : specCodeU16 c (min c.numTones.toNat 8) n ≤ 4095 := min_le_right _ _
  simp only [synthWord]
  rw [BitVec.toNat_ofNat]
  exact (Nat.mod_le _ _).trans hcode

theorem synthWord_fix_le (c : Cfg) (n : Nat) : (synthWord .synthFix c n).toNat ≤ 4095 := by
  obtain ⟨h0, h1⟩ := specCodeFix_range c (min c.numTones.toNat 8) n
  simp only [synthWord]
  rw [BitVec.toNat_ofInt]
  omega

/-- Settles O15: the words of each command lie in its range. -/
theorem synthOutputInRange : Obligations.SynthOutputInRange := by
  intro s t n hs hn
  have word {i : Instr} (hi : i = .synthF32 ∨ i = .synthU16 ∨ i = .synthFix) (ht : exec i s = .next t) :
      t.scr.word n = synthWord i s.cfg n := (synth_outcome hi hs ht).2 n hn
  refine ⟨fun ht => ?f32, fun ht => ?u16, fun ht => ?fix⟩
  case f32 => rw [word (by decide) ht]; exact synthWord_f32_range s.cfg n
  case u16 => rw [word (by decide) ht]; exact synthWord_u16_le s.cfg n
  case fix => rw [word (by decide) ht]; exact synthWord_fix_le s.cfg n

end Sys2Proof.Proofs
end

section
/-! The commands that rewrite the samples in SCR word by word: the FIR filters, the normalizer and the windows
(spec/42_filter_norm_window.md). Each stores a table of words computed from the words as they were, so what each leaves
is one law of that store; what differs is the checks and the word. -/

namespace Sys2Proof.Proofs

open Sys2Proof Sys2Proof.Machine

/-! ### What every one of these commands leaves -/

/-- A command whose checks pass and whose effect is a table of words and a tag. -/
theorem checked_store_result (s : State) {checks : List (Bool × ErrCode)} (hpass : firstError checks = none)
    {f g : Nat → Word} (h : ∀ n, f n = g n) (tag : ScrTag) :
    let t := s.checked checks (s.store (tabulate s.count f) tag).succeed
    WordsWritten s t s.tag.count.toNat g ∧ t = { s.finished 0 with scr := t.scr, tag := tag } := by
  rw [State.checked_of_none hpass, State.succeed_eq]
  exact ⟨.of_tabulate (f := f) rfl fun n _ => h n, rfl⟩

theorem count_ne_zero {s : State} (h : s.tag.count ≠ 0) : s.count ≠ 0 :=
  fun h0 => h (BitVec.eq_of_toNat_eq h0)

/-- A code as the number spec/00_scope.md R15 reads from a word. -/
theorem asU16_eq (x : Word) : asU16 x = x.toNat % 65536 := by
  rw [asU16, BitVec.extractLsb'_toNat, Nat.shiftRight_zero]

/-! ### FIR.LP and FIR.BP (spec/42_filter_norm_window.md R271 to R275) -/

theorem firChecks_pass {s : State} {taps : Nat} (hkind : s.tag.kind = .u16 ∨ s.tag.kind = .f32Phys)
    (hcount : s.tag.count ≠ 0) (hlow : 1 ≤ taps) (hup : taps ≤ 64) : firstError (s.firChecks taps) = none := by
  have htaps : ¬(taps < 1) ∧ ¬(64 < taps) := by omega
  rcases hkind with hkind | hkind <;>
    simp [State.firChecks, firstError, hkind, count_ne_zero hcount, Config.firMaxTaps, htaps]

theorem firInt_eq (s : State) (bank : Vector Word 64) (taps n : Nat) :
    s.firInt bank taps n = specFirInt s bank taps n := by
  rw [State.firInt, foldl_add_eq_sum, clamp_eq_max_min _ (by decide), zero_add]
  rfl

theorem specFirInt_nonneg (s : State) (bank : Vector Word 64) (taps n : Nat) : 0 ≤ specFirInt s bank taps n :=
  le_max_left _ _

/-- The binary32 accumulation, tap by tap in the order of R274. -/
theorem foldl_taps_eq (s : State) (bank : Vector Word 64) (n m : Nat) :
    (List.range m).foldl (fun acc k => f32Add acc (f32Mul (coefAt bank k) (s.scr.word (n - k)))) 0
      = specFirF32 s bank n m := by
  induction m with
  | zero => rfl
  | succ m ih => rw [List.range_succ, List.foldl_append, ih]; rfl

theorem firFloat_eq (s : State) (bank : Vector Word 64) (taps n : Nat) :
    s.firFloat bank taps n = specFirF32 s bank n (min taps (n + 1)) := foldl_taps_eq s bank n _

theorem firWord_eq (s : State) (bank : Vector Word 64) (taps n : Nat) :
    s.firWord bank taps n = if s.tag.kind = .u16 then BitVec.ofInt 32 (specFirInt s bank taps n)
      else specFirF32 s bank n (min taps (n + 1)) := by
  rw [State.firWord, firInt_eq, firFloat_eq, wordU16, ← BitVec.ofInt_natCast,
    Int.toNat_of_nonneg (specFirInt_nonneg s bank taps n)]

/-- Settles O18: the words and the checks of a filter, for either bank. -/
theorem firResult : Obligations.FirResult := by
  intro s i bank taps hi hkind hcount hlow hup
  have result := checked_store_result s (firChecks_pass hkind hcount hlow hup) (firWord_eq s bank taps) s.tag
  rcases hi with ⟨rfl, rfl, rfl⟩ | ⟨rfl, rfl, rfl⟩
  · exact ⟨_, rfl, result⟩
  · exact ⟨_, rfl, result⟩

/-! ### NORM.F and NORM.Q (spec/42_filter_norm_window.md R280 to R284) -/

theorem normFChecks_pass {s : State} (hcount : s.tag.count ≠ 0)
    (hkind : s.tag.kind = .u16 ∨ (s.tag.kind = .f32Phys ∧ s.cfg.vref ≠ 0)) : firstError s.normFChecks = none := by
  rcases hkind with hkind | ⟨hkind, hvref⟩
  · simp [State.normFChecks, firstError, hkind, count_ne_zero hcount]
  · simpa [State.normFChecks, firstError, hkind, count_ne_zero hcount] using hvref

/-- Settles O19: on codes a word is its code's normalized value, on millivolts the model's formula is the spec's. -/
theorem normFResult : Obligations.NormFResult := by
  intro s hcount hkind
  refine ⟨_, rfl, checked_store_result s (normFChecks_pass hcount hkind) (fun n => ?_) { s.tag with kind := .f32N }⟩
  rw [State.normFWord, State.codeAt, asU16_eq]
  rfl

theorem normQChecks_pass {s : State} (hcount : s.tag.count ≠ 0) (hkind : s.tag.kind = .u16) :
    firstError s.normQChecks = none := by
  simp [State.normQChecks, firstError, hkind, count_ne_zero hcount]

/-- The lower bound of the clamp never acts: code 0 gives it exactly. -/
theorem sat16_centred (x : Nat) : sat16 (((x : Int) - Config.mid) * 16) = min ((x : Int) * 16 - 32768) 32767 := by
  rw [sat16, clamp_eq_max_min _ (by decide)]
  simp only [Config.mid]
  omega

/-- Settles O20, from the saturation of a centred code. -/
theorem normQResult : Obligations.NormQResult := by
  intro s hcount hkind
  refine ⟨_, rfl, checked_store_result s (normQChecks_pass hcount hkind) (fun n => ?_) { s.tag with kind := .q15 }⟩
  rw [State.normQWord, State.codeAt, asU16_eq, sat16_centred, wordQ15]

/-! ### The window commands (spec/42_filter_norm_window.md R290 to R296) -/

theorem winChecks_pass {s : State} (hkind : s.tag.kind = .f32N ∨ s.tag.kind = .q15) (hwin : s.tag.win = .none)
    (hcount : 2 ≤ s.tag.count.toNat) : firstError s.winChecks = none := by
  have hlen : ¬(s.count < 2) := not_lt.2 hcount
  rcases hkind with hkind | hkind <;> simp [State.winChecks, firstError, hkind, hwin, hlen]

/-- Settles O21: each command is `State.window` with its own table. -/
theorem windowResult : Obligations.WindowResult := by
  intro s i w hi hkind hwin hcount
  have hexec : exec i s = .next (s.window w) := by
    simp only [List.mem_cons, Prod.mk.injEq, List.not_mem_nil, or_false] at hi
    rcases hi with ⟨rfl, rfl⟩ | ⟨rfl, rfl⟩ | ⟨rfl, rfl⟩ <;> rfl
  exact ⟨_, hexec, checked_store_result s (winChecks_pass hkind hwin hcount) (fun _ => rfl) { s.tag with win := w }⟩

end Sys2Proof.Proofs
end

section
/-! Exact binary32 results: a correctly rounded operation whose real result is a binary32 value answers that value. Of
the noise unit (spec/41_synthesis.md R236) and of the normalized code (spec/42_filter_norm_window.md R281) every
intermediate result is one: an integer of at most 24 bits times a power of two. -/

namespace Sys2Proof.Proofs

open Sys2Proof Sys2Proof.Machine

/-! ### Values of 24 bits -/

/-- An integer of 24 bits times a power of two in range is a binary32 value. -/
theorem exists_f32Int_eq {m : Int} (hm : m.natAbs < 2 ^ 24) {e : Nat} (he : e ≤ 253) :
    ∃ y, f32IsFinite y = true ∧ f32Int y = m * 2 ^ e := by
  obtain ⟨hfin, hneg, hunits⟩ := f32RoundMag_exact (decide (m < 0)) _ 1 m.natAbs e one_pos hm he rfl
  refine ⟨_, hfin, ?_⟩
  have hvalue := f32Int_eq_signFactor (f32Pack (decide (m < 0)) (f32RoundMag (m.natAbs * 2 ^ e * 1) 1))
  rw [hneg, hunits, Nat.cast_mul, ← mul_assoc, ← intCast_eq_signFactor] at hvalue
  exact_mod_cast hvalue

/-- No value is nearer to a binary32 value than itself. -/
theorem f32Int_eq_of_isNearest {x y : F32} {r : ℝ} (h : IsNearestF32 x r) (hy : f32IsFinite y = true)
    (hr : r = (f32Int y : ℝ) / 2 ^ 149) : f32Int x = f32Int y := by
  have hle := (h.2 y hy).1
  rw [hr, sub_self, abs_zero] at hle
  have heq := sub_eq_zero.1 (abs_eq_zero.1 (le_antisymm hle (abs_nonneg _)))
  exact_mod_cast (div_left_inj' (by positivity : (2 : ℝ) ^ 149 ≠ 0)).1 heq

/-- x is a correct rounding of r and r has 24 bits, m times 2^(e-149), so x is r. The range of e keeps r clear of the
overflow boundary, under which the operations round correctly. -/
theorem isExact_of_isNearest {x : F32} {r : ℝ} (h : |r| < 2 ^ 128 - 2 ^ 103 → IsNearestF32 x r) {m : Int} {e : Nat}
    (hr : r = (m : ℝ) * 2 ^ e / 2 ^ 149) (hm : m.natAbs < 2 ^ 24) (he : e ≤ 149) :
    f32IsFinite x = true ∧ f32Int x = m * 2 ^ e := by
  have hbound : |r| < 2 ^ 128 - 2 ^ 103 := by
    have hm' : |(m : ℝ)| < 2 ^ 24 := by
      rw [← Nat.cast_lt (α := ℝ), Nat.cast_natAbs] at hm
      exact_mod_cast hm
    have he' : (2 : ℝ) ^ e ≤ 2 ^ 149 := pow_le_pow_right₀ one_le_two he
    calc |r| = |(m : ℝ)| * (2 ^ e / 2 ^ 149) := by
            rw [hr, mul_div_assoc, abs_mul, abs_of_nonneg (by positivity : (0 : ℝ) ≤ 2 ^ e / 2 ^ 149)]
      _ ≤ |(m : ℝ)| * 1 := by gcongr; exact (div_le_one (by positivity)).2 he'
      _ < 2 ^ 128 - 2 ^ 103 := by rw [mul_one]; exact hm'.trans (by norm_num)
  obtain ⟨y, hy, hvalue⟩ := exists_f32Int_eq hm (he.trans (by norm_num : 149 ≤ 253))
  have hnear := h hbound
  refine ⟨hnear.1, ?_⟩
  rw [← hvalue]
  exact f32Int_eq_of_isNearest hnear hy (by rw [hr, hvalue]; push_cast; rfl)

/-! ### The noise unit (spec/41_synthesis.md R236) -/

/-- The 24 high bits of the state, scaled by 2^-23 and shifted down by 1, both exactly. -/
theorem noiseUnit_exact (x : Word) :
    f32IsFinite (noiseUnit x) = true
      ∧ f32Int (noiseUnit x) = (((x.toNat / 256 : Nat) : Int) - 2 ^ 23) * 2 ^ 126 := by
  have hk : x.toNat / 256 < 2 ^ 24 := by omega
  rw [noiseUnit, toNat_extract_high]
  obtain ⟨hkfin, hkval⟩ := f32Int_ofNat hk
  obtain ⟨hsfin, hsval⟩ : f32IsFinite (f32OfRat 1 (2 ^ 23)) = true ∧ f32Int (f32OfRat 1 (2 ^ 23)) = 2 ^ 126 := by
    decide
  obtain ⟨hofin, hoval⟩ : f32IsFinite f32One = true ∧ f32Int f32One = 2 ^ 149 := by decide
  obtain ⟨hpfin, hpval⟩ := isExact_of_isNearest (m := (x.toNat / 256 : Nat)) (e := 126) (f32Mul_isNearest hkfin hsfin)
    (by rw [hkval, hsval]; push_cast; ring) hk (by norm_num)
  exact isExact_of_isNearest (f32Sub_isNearest hpfin hofin) (by rw [hpval, hoval]; push_cast; ring) (by omega)
    (by norm_num)

/-! ### The normalized code (spec/42_filter_norm_window.md R281) -/

/-- A 16-bit code centred on 2048 and divided by it, both exactly. -/
theorem normCode_exact {x : Nat} (hx : x < 65536) :
    f32IsFinite (normCode x) = true ∧ f32Int (normCode x) = ((x : Int) - 2048) * 2 ^ 138 := by
  obtain ⟨hxfin, hxval⟩ := f32Int_ofNat (hx.trans (by norm_num : 65536 < 2 ^ 24))
  obtain ⟨hmfin, hmval⟩ := f32Int_ofNat (by norm_num : 2048 < 2 ^ 24)
  obtain ⟨hdfin, hdval⟩ := isExact_of_isNearest (m := (x : Int) - 2048) (e := 149) (f32Sub_isNearest hxfin hmfin)
    (by rw [hxval, hmval]; push_cast; ring) (by omega) le_rfl
  exact isExact_of_isNearest (f32Div_isNearest hdfin hmfin (by rw [hmval]; norm_num))
    (by rw [hdval, hmval]; push_cast; ring) (by omega) (by norm_num)

/-- Settles O16: every intermediate result of the two formulas is exact. -/
theorem noiseAndCodeConversionsAreExact : Obligations.NoiseAndCodeConversionsAreExact := by
  refine ⟨fun x => ?noise, fun x hx => ?code⟩
  case noise =>
    obtain ⟨hfin, hval⟩ := noiseUnit_exact x
    refine ⟨hfin, ?_, ?_, ?_⟩ <;> rw [hval] <;> omega
  case code =>
    obtain ⟨hfin, hval⟩ := normCode_exact hx
    exact ⟨hfin, by rw [hval]; ring⟩

end Sys2Proof.Proofs
end

section
/-! The window tables: the distance of the fixed-point window to the real one, and what the one rounding to a Q15 code or
to a binary32 value adds to it (spec/42_filter_norm_window.md R288, R289). -/

namespace Sys2Proof.Proofs

open Sys2Proof Sys2Proof.Machine

/-! ### The distance of a rounding (spec/00_scope.md R12, R13) -/

theorem roundHalfAway_close (num : Int) {den : Nat} (hd : 0 < den) :
    |(roundHalfAway num den : ℝ) - num / den| ≤ 1 / 2 := by
  have hcore : 2 * |roundHalfAway num den * den - num| ≤ den := by
    unfold roundHalfAway
    have hdiv := Nat.div_add_mod (2 * num.natAbs + den) (2 * den)
    have hmod := Nat.mod_lt (2 * num.natAbs + den) (by omega : 0 < 2 * den)
    generalize (2 * num.natAbs + den) / (2 * den) = k at hdiv ⊢
    have hk : 2 * den * k = 2 * (k * den) := by ring
    have hk' : ((k * den : Nat) : Int) = (k : Int) * den := by push_cast; rfl
    split_ifs with hneg
    · rw [neg_mul, ← hk']
      rcases abs_cases (-((k * den : Nat) : Int) - num) with ⟨habs, -⟩ | ⟨habs, -⟩ <;> rw [habs] <;> omega
    · rw [← hk']
      rcases abs_cases (((k * den : Nat) : Int) - num) with ⟨habs, -⟩ | ⟨habs, -⟩ <;> rw [habs] <;> omega
  have hd' : (0 : ℝ) < den := by exact_mod_cast hd
  have hcore' : 2 * |(roundHalfAway num den : ℝ) * den - num| ≤ den := by exact_mod_cast hcore
  rw [← mul_div_cancel_right₀ (roundHalfAway num den : ℝ) hd'.ne', ← sub_div, abs_div, abs_of_pos hd',
    div_le_iff₀ hd']
  linarith

/-- The rounded magnitude in units, times den: half of the last of its 24 bits, or half a unit where it is subnormal. -/
theorem f32RoundMag_close (neg : Bool) {num den : Nat} (hd : 0 < den) (h : num < (2 ^ 277 - 2 ^ 252) * den) :
    2 ^ 24 * |(f32Units (f32Pack neg (f32RoundMag num den)) * den : Int) - num| ≤ num + 2 ^ 23 * den := by
  obtain ⟨e, q, hround, hq, hq24, hnormal, hinf⟩ := f32RoundMag_form num den hd h
  have hlt : e * 2 ^ 23 + q < 2 ^ 31 := hinf.trans (by decide)
  have hunits : f32Units (f32Pack neg (e * 2 ^ 23 + q)) = q * 2 ^ e :=
    f32Units_pack neg e q hq24 (hnormal.imp_right And.left) hlt
  obtain ⟨hup, hlow, -⟩ := rne_spec num (den * 2 ^ e) (by positivity)
  rw [← hq] at hup hlow
  rw [hround, hunits]
  have hscale : ((q * 2 ^ e : Nat) * den : Int) = ((q * (den * 2 ^ e) : Nat) : Int) := by push_cast; ring
  have hhalf : 2 * |((q * (den * 2 ^ e) : Nat) : Int) - num| ≤ (den * 2 ^ e : Nat) := by
    generalize q * (den * 2 ^ e) = v at hup hlow ⊢
    generalize den * 2 ^ e = d at hup hlow ⊢
    rcases abs_cases ((v : Int) - num) with ⟨habs, -⟩ | ⟨habs, -⟩ <;> rw [habs] <;> omega
  rw [hscale]
  rcases hnormal with rfl | ⟨-, hnormal⟩
  · rw [pow_zero, Nat.mul_one] at hhalf ⊢
    omega
  · have hnormal' : 2 ^ 23 * (den * 2 ^ e) ≤ num := by
      rwa [mul_assoc, mul_comm (2 ^ e)] at hnormal
    omega

/-- A rounded real number is within 2^-24 of it in relative terms, or within half of the smallest value. -/
theorem pack_close {neg : Bool} {num den : Nat} {r : ℝ} (hd : 0 < den)
    (hr : r = signFactor neg * ((num : ℝ) / den) / 2 ^ 149) (h : |r| < 2 ^ 128 - 2 ^ 103) :
    |(f32Int (f32Pack neg (f32RoundMag num den)) : ℝ) / 2 ^ 149 - r| ≤ |r| / 2 ^ 24 + 1 / 2 ^ 150 := by
  have hd' : (0 : ℝ) < den := by exact_mod_cast hd
  have hlt := (abs_lt_overflow_iff hd hr).1 h
  rw [← overflow_units_eq] at hlt
  have hclose := f32RoundMag_close neg hd hlt
  have hneg : f32Neg (f32Pack neg (f32RoundMag num den)) = neg := f32Neg_pack_round neg num den
  generalize f32Pack neg (f32RoundMag num den) = x at hclose hneg ⊢
  have hclose' : 2 ^ 24 * |(f32Units x : ℝ) * den - num| ≤ num + 2 ^ 23 * den := by exact_mod_cast hclose
  have hunits : |(f32Units x : ℝ) - num / den| ≤ (num : ℝ) / den / 2 ^ 24 + 1 / 2 := by
    have hquot : (f32Units x : ℝ) - num / den = (f32Units x * den - num) / den := by field_simp
    have hsum : (num : ℝ) / den / 2 ^ 24 + 1 / 2 = (num + 2 ^ 23 * den) / 2 ^ 24 / den := by field_simp
    rw [hquot, hsum, abs_div, abs_of_pos hd']
    gcongr
    linarith
  have hfactor : (f32Int x : ℝ) / 2 ^ 149 - r = signFactor neg * ((f32Units x : ℝ) - num / den) / 2 ^ 149 := by
    rw [f32Int_eq_signFactor, hneg, hr]; ring
  have habs : |r| = (num : ℝ) / den / 2 ^ 149 := by
    rw [hr, abs_div, abs_mul, abs_signFactor, one_mul, abs_of_nonneg (by positivity), abs_of_pos (by positivity)]
  rw [hfactor, habs, abs_div, abs_mul, abs_signFactor, one_mul, abs_of_pos (by positivity : (0 : ℝ) < 2 ^ 149)]
  calc |(f32Units x : ℝ) - num / den| / 2 ^ 149 ≤ ((num : ℝ) / den / 2 ^ 24 + 1 / 2) / 2 ^ 149 := by gcongr
    _ = (num : ℝ) / den / 2 ^ 149 / 2 ^ 24 + 1 / 2 ^ 150 := by ring

theorem f32OfRat_close {num : Int} {den : Nat} (hd : 0 < den) (h : |(num : ℝ) / den| < 2 ^ 128 - 2 ^ 103) :
    |(f32Int (f32OfRat num den) : ℝ) / 2 ^ 149 - num / den| ≤ |(num : ℝ) / den| / 2 ^ 24 + 1 / 2 ^ 150 :=
  pack_close hd (rat_eq_units num den) h

/-! ### The window in fixed point -/

/-- The window as its two cosines, for all three commands at once. -/
theorem windowValue_eq_cosines {w : Win} {count n : Nat} {r : ℝ} (hw : w ≠ .none) (h : IsWindowValue w count n r) :
    let x : ℝ := 2 * Real.pi * n / ((count : ℝ) - 1)
    let (a0, a1, a2) := winCoefs w
    r = (a0 - a1 * Real.cos x + a2 * Real.cos (2 * x)) / 100 := by
  intro x
  cases w with
  | none => exact absurd rfl hw
  | blackman | hamming | hann =>
    simp only [IsWindowValue] at h
    simp only [winCoefs, h, x]
    push_cast
    ring

theorem windowValue_range {w : Win} {count n : Nat} {r : ℝ} (h : IsWindowValue w count n r) : 0 ≤ r ∧ r ≤ 1 := by
  have hlow := Real.neg_one_le_cos (2 * Real.pi * n / ((count : ℝ) - 1))
  have hup := Real.cos_le_one (2 * Real.pi * n / ((count : ℝ) - 1))
  cases w with
  | none => obtain rfl : r = 1 := h; norm_num
  | blackman =>
    simp only [IsWindowValue, Real.cos_two_mul] at h
    constructor <;> nlinarith
  | hamming | hann =>
    simp only [IsWindowValue] at h
    constructor <;> linarith

/-- Both cosines err by 2^-67 at most, and their weights make less than 1. -/
theorem winFixed_close {w : Win} {count n : Nat} {r : ℝ} (hw : w ≠ .none) (hcount : 2 ≤ count)
    (h : IsWindowValue w count n r) :
    |(winFixed w count n : ℝ) / (100 * trigOne : Nat) - r| ≤ 1 / 2 ^ 67 := by
  have hq : 0 < count - 1 := by omega
  have hcast : ((count - 1 : Nat) : ℝ) = (count : ℝ) - 1 := by rw [Nat.cast_sub (by omega), Nat.cast_one]
  have hx := cosTurn_close n (count - 1) hq
  have h2x := cosTurn_close (2 * n) (count - 1) hq
  have hone : (0 : ℝ) < trigOne := by exact_mod_cast trigOne_pos
  rw [hcast] at hx h2x
  have hangle : 2 * Real.pi * (2 * n : Nat) / ((count : ℝ) - 1) = 2 * (2 * Real.pi * n / ((count : ℝ) - 1)) := by
    push_cast; ring
  rw [hangle] at h2x
  have hr := windowValue_eq_cosines hw h
  have hF : (winFixed w count n : ℝ) / (100 * trigOne : Nat)
      = ((winCoefs w).1 - (winCoefs w).2.1 * (cosTurn n (count - 1) / trigOne)
          + (winCoefs w).2.2 * (cosTurn (2 * n) (count - 1) / trigOne)) / 100 := by
    simp only [winFixed]
    push_cast
    field_simp
  rw [hF, hr]
  rw [abs_le] at hx h2x ⊢
  cases w with
  | none => exact absurd rfl hw
  | blackman | hamming | hann =>
    simp only [winCoefs]
    push_cast
    constructor <;> linarith

/-! ### The tables (spec/42_filter_norm_window.md R289, R292) -/

/-- The denominator of both tables. -/
theorem hundredths_pos : 0 < 100 * trigOne := Nat.mul_pos (by norm_num) trigOne_pos

/-- The rounded code before its clamp: half a code from the fixed-point window, which is near the real one. -/
theorem winCode_close {w : Win} {count n : Nat} {r : ℝ} (hw : w ≠ .none) (hcount : 2 ≤ count)
    (h : IsWindowValue w count n r) :
    |(roundHalfAway (winFixed w count n * 32768) (100 * trigOne) : ℝ) - r * 32768| ≤ 1 / 2 + 1 / 2 ^ 52 := by
  have hround := roundHalfAway_close (winFixed w count n * 32768) hundredths_pos
  have hfixed := winFixed_close hw hcount h
  rw [Int.cast_mul, mul_div_right_comm, Int.cast_ofNat] at hround
  rw [abs_le] at hround hfixed ⊢
  constructor <;> linarith

/-- No window value rounds to a negative code, so of the clamp only the upper bound can act. -/
theorem winQ15_eq_min {w : Win} {count n : Nat} {r : ℝ} (hw : w ≠ .none) (hcount : 2 ≤ count)
    (h : IsWindowValue w count n r) :
    0 ≤ roundHalfAway (winFixed w count n * 32768) (100 * trigOne)
      ∧ winQ15 w count n = min (roundHalfAway (winFixed w count n * 32768) (100 * trigOne)) 32767 := by
  have hclose := winCode_close hw hcount h
  obtain ⟨hr, -⟩ := windowValue_range h
  rw [winQ15, q15Rat, clamp_eq_max_min _ (by decide)]
  generalize roundHalfAway (winFixed w count n * 32768) (100 * trigOne) = m at hclose ⊢
  have hm : (-1 : ℝ) < m := by rw [abs_le] at hclose; linarith
  have hm' : -1 < m := by exact_mod_cast hm
  omega

/-- A Q15 sample times a factor below 1 stays a Q15 sample. -/
theorem q15_product_range {q c : Int} (hq : -32768 ≤ q ∧ q ≤ 32767) (hc : 0 ≤ c ∧ c ≤ 32767) :
    -32768 ≤ (q * c + 16384) / 32768 ∧ (q * c + 16384) / 32768 ≤ 32767 := by
  obtain ⟨hqlow, hqup⟩ := hq
  obtain ⟨hc0, hcup⟩ := hc
  have hlow : -32768 * c ≤ q * c := Int.mul_le_mul_of_nonneg_right hqlow hc0
  have hup : q * c ≤ 32767 * c := Int.mul_le_mul_of_nonneg_right hqup hc0
  omega

/-- Saturation brings two numbers no further apart. -/
theorem winQ15_close {w : Win} {count n : Nat} {r : ℝ} (hw : w ≠ .none) (hcount : 2 ≤ count)
    (h : IsWindowValue w count n r) : |(winQ15 w count n : ℝ) - min (r * 32768) 32767| ≤ 1 / 2 + 1 / 2 ^ 40 := by
  obtain ⟨-, hcode⟩ := winQ15_eq_min hw hcount h
  rw [hcode, Int.cast_min, Int.cast_ofNat]
  calc _ ≤ max _ |(32767 : ℝ) - 32767| := abs_min_sub_min_le_max ..
    _ = _ := by rw [sub_self, abs_zero, max_eq_left (abs_nonneg _)]
    _ ≤ 1 / 2 + 1 / 2 ^ 52 := winCode_close hw hcount h
    _ ≤ 1 / 2 + 1 / 2 ^ 40 := by norm_num

theorem winF32_close {w : Win} {count n : Nat} {r : ℝ} (hw : w ≠ .none) (hcount : 2 ≤ count)
    (h : IsWindowValue w count n r) :
    f32IsFinite (winF32 w count n) = true
      ∧ |(f32Int (winF32 w count n) : ℝ) / 2 ^ 149 - r| ≤ r / 2 ^ 24 + 1 / 2 ^ 60 := by
  have hfixed := winFixed_close hw hcount h
  obtain ⟨hr0, hr1⟩ := windowValue_range h
  have hf : |(winFixed w count n : ℝ) / (100 * trigOne : Nat)| ≤ r + 1 / 2 ^ 67 := by
    have hdiff := abs_sub_abs_le_abs_sub ((winFixed w count n : ℝ) / (100 * trigOne : Nat)) r
    rw [abs_of_nonneg hr0] at hdiff
    linarith
  have hbound : |(winFixed w count n : ℝ) / (100 * trigOne : Nat)| < 2 ^ 128 - 2 ^ 103 :=
    hf.trans_lt (by linarith)
  have hround := f32OfRat_close hundredths_pos hbound
  have hsum := abs_sub_le ((f32Int (winF32 w count n) : ℝ) / 2 ^ 149)
    ((winFixed w count n : ℝ) / (100 * trigOne : Nat)) r
  refine ⟨(f32OfRat_isNearest hundredths_pos hbound).1, ?_⟩
  rw [← winF32] at hround
  linarith

/-- Settles O22, from the distance of the fixed-point window and of its two roundings. -/
theorem windowTablesFitTheWindow : Obligations.WindowTablesFitTheWindow := by
  intro w count n r hw hcount _ _ h
  obtain ⟨hnonneg, hcode⟩ := winQ15_eq_min hw hcount h
  have hrange : 0 ≤ winQ15 w count n ∧ winQ15 w count n ≤ 32767 := by rw [hcode]; omega
  obtain ⟨hlow, hup⟩ := hrange
  exact ⟨hlow, hup, fun q hqlow hqup => q15_product_range ⟨hqlow, hqup⟩ ⟨hlow, hup⟩, winQ15_close hw hcount h,
    winF32_close hw hcount h⟩

end Sys2Proof.Proofs
end

section
/-! The twiddle tables: every entry is a cosine of a multiple of a 4096th of a turn, up to its sign one of those in the
first quarter turn, and the error of each of these in fixed point carries it across no rounding boundary
(spec/43_fft_magnitude.md R321). -/

namespace Sys2Proof.Proofs

open Sys2Proof Sys2Proof.Machine

/-! ### A binary32 value nearest to both ends of an interval -/

section
variable {X Y t : ℝ}

theorem abs_sub_le_iff_le_midpoint (h : X < Y) : |X - t| ≤ |Y - t| ↔ 2 * t ≤ X + Y := by
  rw [← sq_le_sq]
  constructor <;> intro <;> nlinarith

theorem abs_sub_le_iff_midpoint_le (h : X < Y) : |Y - t| ≤ |X - t| ↔ X + Y ≤ 2 * t := by
  rw [← sq_le_sq]
  constructor <;> intro <;> nlinarith

end

/-- Another value can be as near as x to a real between the two ends only where it is so at the end on its own side. -/
theorem isNearestF32_between {x : F32} {lo hi r : ℝ} (hlo : IsNearestF32 x lo) (hhi : IsNearestF32 x hi) (hl : lo ≤ r)
    (hh : r ≤ hi) : IsNearestF32 x r := by
  refine ⟨hlo.1, fun y hy => ?_⟩
  obtain ⟨hlo, hloTie⟩ := hlo.2 y hy
  obtain ⟨hhi, hhiTie⟩ := hhi.2 y hy
  rcases lt_trichotomy ((f32Int x : ℝ) / 2 ^ 149) ((f32Int y : ℝ) / 2 ^ 149) with h | h | h
  · rw [abs_sub_le_iff_le_midpoint h] at hhi
    refine ⟨(abs_sub_le_iff_le_midpoint h).2 (by linarith), fun htie => hhiTie (le_antisymm ?_ ?_)⟩
    · exact (abs_sub_le_iff_le_midpoint h).2 hhi
    · exact (abs_sub_le_iff_midpoint_le h).2 (by linarith [(abs_sub_le_iff_midpoint_le h).1 htie.ge])
  · rw [h]
    exact ⟨le_rfl, fun _ => .inl (by exact_mod_cast (div_left_inj' (by positivity : (2 : ℝ) ^ 149 ≠ 0)).1 h)⟩
  · rw [abs_sub_le_iff_midpoint_le h] at hlo
    refine ⟨(abs_sub_le_iff_midpoint_le h).2 (by linarith), fun htie => hloTie (le_antisymm ?_ ?_)⟩
    · exact (abs_sub_le_iff_midpoint_le h).2 hlo
    · exact (abs_sub_le_iff_le_midpoint h).2 (by linarith [(abs_sub_le_iff_le_midpoint h).1 htie.ge])

/-! ### Fixed-point numbers clear of the rounding boundaries -/

/-- `c` and the numbers 2^-67 below and above it, in units of 2^-128, have one binary32 rounding; and both `c` and `-c`
are as far from the ties of the Q15 codes. -/
def clearMagnitude (c : Nat) : Bool :=
  clearOfTies c && clearOfTies (-c) && decide (2 ^ 61 < c)
    && f32RoundMag ((c - 2 ^ 61) * 2 ^ 149) trigOne == f32RoundMag (c * 2 ^ 149) trigOne
    && f32RoundMag ((c + 2 ^ 61) * 2 ^ 149) trigOne == f32RoundMag (c * 2 ^ 149) trigOne

/-- The error does not change the sign, so only the magnitude is rounded anew. -/
theorem f32OfRat_near {c d : Int} (hc : clearMagnitude c.natAbs = true) (hd : d = 2 ^ 61 ∨ d = -2 ^ 61) :
    f32OfRat (c + d) trigOne = f32OfRat c trigOne := by
  simp only [clearMagnitude, Bool.and_eq_true, decide_eq_true_eq, beq_iff_eq] at hc
  obtain ⟨⟨⟨-, hsize⟩, hlow⟩, hup⟩ := hc
  have hsign : decide (c + d < 0) = decide (c < 0) := decide_eq_decide.2 (by omega)
  have hmag : (c + d).natAbs = c.natAbs - 2 ^ 61 ∨ (c + d).natAbs = c.natAbs + 2 ^ 61 := by omega
  rw [f32OfRat, f32OfRat, hsign]
  rcases hmag with hmag | hmag
  · rw [hmag, hlow]
  · rw [hmag, hup]

/-- Both roundings of the fixed-point number c are those of the real r. -/
def RoundsLike (c : Int) (r : ℝ) : Prop :=
  IsNearestF32 (f32OfRat c trigOne) r ∧ IsQ15Of (q15Rat c trigOne) r

theorem roundsLike_zero : RoundsLike 0 0 := by
  constructor
  · simpa using f32OfRat_isNearest (num := 0) trigOne_pos (by norm_num)
  · exact isQ15Of_of_clearOfTies (by decide +kernel) (by norm_num)

theorem clearOfTies_of_clearMagnitude {c : Int} (hc : clearMagnitude c.natAbs = true) : clearOfTies c = true := by
  simp only [clearMagnitude, Bool.and_eq_true] at hc
  obtain ⟨⟨⟨⟨hpos, hneg⟩, -⟩, -⟩, -⟩ := hc
  obtain ⟨m, rfl | rfl⟩ := c.eq_nat_or_neg
  · exact hpos
  · rw [Int.natAbs_neg] at hneg
    exact hneg

theorem roundsLike_of_clear {c : Int} {r : ℝ} (hc : clearMagnitude c.natAbs = true) (hr1 : |r| ≤ 1)
    (hr : |(c : ℝ) / trigOne - r| ≤ 1 / 2 ^ 67) : RoundsLike c r := by
  refine ⟨?_, isQ15Of_of_clearOfTies (clearOfTies_of_clearMagnitude hc) hr⟩
  rw [abs_le] at hr hr1
  have hnear {d : Int} {b : ℝ} (hd : d = 2 ^ 61 ∨ d = -2 ^ 61) (hb : (c : ℝ) / trigOne + d / trigOne = b)
      (hlow : -2 ≤ b) (hup : b ≤ 2) : IsNearestF32 (f32OfRat c trigOne) b := by
    have hsum : ((c + d : Int) : ℝ) / trigOne = b := by rw [Int.cast_add, add_div, hb]
    rw [← f32OfRat_near hc hd, ← hsum]
    refine f32OfRat_isNearest trigOne_pos ?_
    rw [hsum, abs_lt]
    constructor <;> linarith
  have hstep : (2 ^ 61 : ℝ) / trigOne = 1 / 2 ^ 67 := by norm_num [trigOne, trigBits]
  refine isNearestF32_between (lo := c / trigOne - 1 / 2 ^ 67) (hi := c / trigOne + 1 / 2 ^ 67)
    (hnear (.inr rfl) ?_ (by linarith) (by linarith)) (hnear (.inl rfl) ?_ (by linarith) (by linarith))
    (by linarith) (by linarith)
  · rw [Int.cast_neg, Int.cast_pow, Int.cast_ofNat, neg_div, hstep, sub_eq_add_neg]
  · rw [Int.cast_pow, Int.cast_ofNat, hstep]

/-! ### Every angle of a 4096th of a turn -/

section
variable {d : Nat} (hd : 0 < d) (p q : Nat)
include hd

/-- Only the ratio of an angle's two numbers counts. -/
theorem cosQuarter_scale : cosQuarter (d * p) (d * q) = cosQuarter p q := by
  simp only [cosQuarter, cosEighth, sinEighth, Nat.mul_left_comm _ d, ← Nat.mul_sub, Nat.mul_le_mul_left_iff hd,
    Nat.mul_div_mul_left _ _ hd]

theorem cosTurn_scale : cosTurn (d * p) (d * q) = cosTurn p q := by
  simp only [cosTurn, Nat.mul_mod_mul_left, Nat.mul_left_comm _ d, ← Nat.mul_sub, ← mul_ite,
    Nat.mul_lt_mul_left hd, cosQuarter_scale hd]

end

/-- The first quarter turn, by computation of its fixed-point cosines. -/
theorem cosQuarter_clear : ∀ j < 1024, clearMagnitude (cosQuarter j 4096) = true := by decide +kernel

/-- An angle is a quarter or three quarters of a turn, or its cosine is up to the sign one of the first quarter turn. -/
theorem cosTurn_clear (p : Nat) :
    (p % 2048 = 1024 ∧ cosTurn p 4096 = 0) ∨ clearMagnitude (cosTurn p 4096).natAbs = true := by
  have hfold : ∃ j, (j = 1024 ∧ p % 2048 = 1024 ∨ j < 1024) ∧ (cosTurn p 4096).natAbs = cosQuarter j 4096 := by
    simp only [cosTurn]
    have hr := Nat.mod_lt p (by norm_num : 4096 > 0)
    have hp := Nat.mod_mod_of_dvd p (by norm_num : 2048 ∣ 4096)
    generalize p % 4096 = r at *
    set m := if 4096 < 2 * r then 4096 - r else r with hm
    split_ifs with hhalf
    · refine ⟨2048 - m, ?_, ?_⟩
      · split at hm <;> omega
      · rw [Int.natAbs_neg, Int.natAbs_natCast, show 4096 - 2 * m = 2 * (2048 - m) by omega]
        exact cosQuarter_scale two_pos _ 4096
    · exact ⟨m, by split at hm <;> omega, Int.natAbs_natCast _⟩
  obtain ⟨j, ⟨rfl, hp⟩ | hj, hcos⟩ := hfold
  · exact .inl ⟨hp, Int.natAbs_eq_zero.1 (hcos.trans (by decide +kernel))⟩
  · exact .inr (hcos ▸ cosQuarter_clear j hj)

theorem cos_quarter_turn {p : Nat} (hp : p % 2048 = 1024) : Real.cos (2 * Real.pi * p / 4096) = 0 := by
  obtain ⟨m, rfl⟩ : ∃ m, p = 2048 * m + 1024 := ⟨p / 2048, by omega⟩
  refine Real.cos_eq_zero_iff.2 ⟨m, ?_⟩
  push_cast
  ring

/-- Both signs at once: a twiddle holds the cosine and the negated sine, itself a cosine. -/
theorem cosTurn_roundsLike (p : Nat) :
    RoundsLike (cosTurn p 4096) (Real.cos (2 * Real.pi * p / 4096))
      ∧ RoundsLike (-cosTurn p 4096) (-Real.cos (2 * Real.pi * p / 4096)) := by
  rcases cosTurn_clear p with ⟨hp, hzero⟩ | hclear
  · rw [cos_quarter_turn hp, hzero, neg_zero, neg_zero]
    exact ⟨roundsLike_zero, roundsLike_zero⟩
  · have hclose := cosTurn_close p 4096 (by norm_num)
    rw [Nat.cast_ofNat] at hclose
    have hone := Real.abs_cos_le_one (2 * Real.pi * p / 4096)
    refine ⟨roundsLike_of_clear hclear hone hclose, roundsLike_of_clear ?_ ?_ ?_⟩
    · rwa [Int.natAbs_neg]
    · rwa [abs_neg]
    · rwa [Int.cast_neg, neg_div, neg_sub_neg, abs_sub_comm]

/-! ### The tables -/

/-- An angle of a shorter transform is one of the longest. -/
theorem turn_of_divisor {n d : Nat} (hn : 4096 = n * d) (k : Nat) :
    cosTurn k n = cosTurn (d * k) 4096 ∧ sinTurn k n = sinTurn (d * k) 4096
      ∧ 2 * Real.pi * k / n = 2 * Real.pi * (d * k : Nat) / 4096 := by
  have hd : 0 < d := Nat.pos_of_ne_zero fun h => by simp [h] at hn
  have hd' : (d : ℝ) ≠ 0 := by exact_mod_cast hd.ne'
  have hn' : (4096 : ℝ) = d * n := by rw [mul_comm]; exact_mod_cast hn
  refine ⟨?_, ?_, ?_⟩
  · rw [hn, mul_comm n, cosTurn_scale hd]
  · rw [sinTurn, sinTurn, hn, ← cosTurn_scale hd]
    congr 1 <;> ring
  · rw [hn', Nat.cast_mul, mul_left_comm, mul_div_mul_left _ _ hd']

/-- A sine is the cosine a quarter turn before, in fixed point and in the reals. -/
theorem sinTurn_eq (p : Nat) : sinTurn p 4096 = cosTurn (p + 3072) 4096
    ∧ Real.sin (2 * Real.pi * p / 4096) = Real.cos (2 * Real.pi * (p + 3072 : Nat) / 4096) := by
  constructor
  · rw [sinTurn, show 4 * p + 3 * 4096 = 4 * (p + 3072) by ring, cosTurn_scale four_pos]
  · rw [← Real.cos_sub_pi_div_two, ← Real.cos_add_two_pi]
    push_cast
    ring_nf

/-- Settles O26: every entry is a cosine, up to its sign, of an angle of the longest transform. -/
theorem twiddlesAreTheRoundedRoots : Obligations.TwiddlesAreTheRoundedRoots := by
  intro n k hn _ x
  have hdvd : ∀ n ∈ [16, 32, 64, 128, 256, 512, 1024, 2048, 4096], n ∣ 4096 := by decide
  obtain ⟨d, hd⟩ := hdvd n hn
  obtain ⟨hcos, hsin, hx⟩ := turn_of_divisor hd k
  obtain ⟨hsin', hx'⟩ := sinTurn_eq (d * k)
  obtain ⟨⟨hcosF, hcosQ⟩, -⟩ := cosTurn_roundsLike (d * k)
  obtain ⟨-, ⟨hsinF, hsinQ⟩⟩ := cosTurn_roundsLike (d * k + 3072)
  simp only [x, hx, twF32, twQ15, hcos, hsin, hx', hsin']
  exact ⟨hcosF, hsinF, hcosQ, hsinQ⟩

end Sys2Proof.Proofs
end

section
/-! FFT: the stages over a list of values are the stages of the statements place by place, so the stored words are the
bins, real part before imaginary part (spec/43_fft_magnitude.md R320 to R327). -/

namespace Sys2Proof.Proofs

open Sys2Proof Sys2Proof.Machine

/-! ### The stages, place by place (spec/43_fft_magnitude.md R324) -/

section
variable {α : Type} (bf : Cplx α → Cplx α → Cplx α → Cplx α × Cplx α) (tw : Nat → Cplx α)

/-- A stage does the same in every block of 2h places. -/
theorem specStage_add_block (n h : Nat) (z : Nat → Cplx α) :
    specStage bf tw n h (fun i => z (i + 2 * h)) = fun i => specStage bf tw n h z (i + 2 * h) := by
  funext i
  simp only [specStage, Nat.add_mod_right]
  split_ifs with hk
  · rw [Nat.add_right_comm]
  · have hle : h ≤ i := (Nat.le_of_not_lt hk).trans (Nat.mod_le _ _)
    rw [Nat.sub_add_comm hle]

/-- The first block: its first h places hold the first results of its butterflies, its last h places the second. -/
theorem specStage_first_block (n h : Nat) (z : Nat → Cplx α) {k : Nat} (hk : k < h) :
    specStage bf tw n h z k = (bf (z k) (z (k + h)) (tw (k * (n / (2 * h))))).1
      ∧ specStage bf tw n h z (k + h) = (bf (z k) (z (k + h)) (tw (k * (n / (2 * h))))).2 := by
  have hmod : k % (2 * h) = k := Nat.mod_eq_of_lt (by omega)
  have hmod' : (k + h) % (2 * h) = k + h := Nat.mod_eq_of_lt (by omega)
  have hlast : ¬(k + h < h) := Nat.not_lt.2 (Nat.le_add_left h k)
  constructor
  · simp only [specStage, hmod, if_pos hk]
  · simp only [specStage, hmod', if_neg hlast, Nat.add_sub_cancel]

/-- A table of a block and what follows it. -/
theorem map_range_block {β : Type} (f : Nat → β) (h m : Nat) :
    (List.range (m + 2 * h)).map f = (List.range h).map f
      ++ ((List.range h).map (fun k => f (k + h)) ++ (List.range m).map fun i => f (i + 2 * h)) := by
  rw [Nat.add_comm m]
  simp only [two_mul, Nat.add_assoc h h m, List.range_add, List.map_append, List.map_map, Function.comp_def,
    Nat.add_comm, Nat.add_left_comm]

theorem fftStage_succ_append {ws as bs rest : List (Cplx α)} {h : Nat} (ha : as.length = h) (hb : bs.length = h)
    (blocks : Nat) :
    let out := List.zipWith (fun ab w => bf ab.1 ab.2 w) (as.zip bs) ws
    fftStage bf ws h (blocks + 1) (as ++ (bs ++ rest))
      = out.map (fun p => p.1) ++ out.map (fun p => p.2) ++ fftStage bf ws h blocks rest := by
  have hdrop : (as ++ (bs ++ rest)).drop (2 * h) = rest := by
    rw [← List.append_assoc, List.drop_left' (by rw [List.length_append]; omega)]
  simp only [fftStage, List.take_left' ha, List.drop_left' ha, List.take_left' hb, hdrop]

theorem fftStage_eq (n h blocks : Nat) (z : Nat → Cplx α) :
    fftStage bf ((List.range h).map fun k => tw (k * (n / (2 * h)))) h blocks ((List.range (2 * h * blocks)).map z)
      = (List.range (2 * h * blocks)).map (specStage bf tw n h z) := by
  induction blocks generalizing z with
  | zero => rfl
  | succ blocks ih =>
    have hblock {k : Nat} (hk : k ∈ List.range h) := specStage_first_block bf tw n h z (List.mem_range.1 hk)
    rw [Nat.mul_succ, map_range_block, map_range_block (specStage bf tw n h z),
      fftStage_succ_append bf (by simp) (by simp), ih, List.zip_map', List.zipWith_map, List.zipWith_self,
      List.map_map, List.map_map, List.append_assoc, List.map_congr_left fun k hk => (hblock hk).1,
      List.map_congr_left fun k hk => (hblock hk).2, specStage_add_block]
    rfl

/-- The first l of the stages. -/
theorem fftStages_eq {l l2 : Nat} (hl : l ≤ l2) (load : Nat → Cplx α) :
    fftStages bf tw (2 ^ l2) l ((List.range (2 ^ l2)).map load)
      = (List.range (2 ^ l2)).map (specStages bf tw (2 ^ l2) load l) := by
  induction l with
  | zero => rfl
  | succ l ih =>
    have ih := ih (by omega)
    have hblocks : 2 * 2 ^ l * (2 ^ l2 / (2 * 2 ^ l)) = 2 ^ l2 :=
      Nat.mul_div_cancel' (by rw [← pow_succ']; exact pow_dvd_pow 2 hl)
    have hstage := fftStage_eq bf tw (2 ^ l2) (2 ^ l) (2 ^ l2 / (2 * 2 ^ l)) (specStages bf tw (2 ^ l2) load l)
    rw [hblocks] at hstage
    rw [fftStages] at ih ⊢
    rw [List.range_succ, List.foldl_append, ih]
    exact hstage

end

/-! ### The load (spec/43_fft_magnitude.md R322) -/

theorem bitRev_eq (b n : Nat) : bitRev b n = specRev b n := by
  induction b generalizing n with
  | zero => rfl
  | succ b ih =>
    rw [bitRev, ih, specRev, specRev, Finset.sum_range_succ', Nat.add_comm]
    congr 1
    · refine Finset.sum_congr rfl fun j _ => ?_
      rw [Nat.testBit_succ, Nat.add_sub_cancel, Nat.sub_sub, Nat.add_comm 1 j]
    · rw [Nat.testBit_zero, Nat.add_sub_cancel, Nat.sub_zero]
      rcases Nat.mod_two_eq_zero_or_one n with h | h <;> simp [h]

theorem fftF32_eq (x : Nat → F32) (l2 : Nat) :
    fftF32 x (2 ^ l2)
      = (List.range (2 ^ l2)).map (specStages butterflyF (twF32 (2 ^ l2)) (2 ^ l2)
          (fun i => (x (specRev l2 i), 0)) l2) := by
  simp only [fftF32, fftLoad, Nat.log2_two_pow, bitRev_eq, fftStages_eq _ _ le_rfl]

theorem fftQ15_eq (x : Nat → Int) (l2 : Nat) :
    fftQ15 x (2 ^ l2)
      = (List.range (2 ^ l2)).map (specStages butterflyQ (twQ15 (2 ^ l2)) (2 ^ l2)
          (fun i => (x (specRev l2 i), 0)) l2) := by
  simp only [fftQ15, fftLoad, Nat.log2_two_pow, bitRev_eq, fftStages_eq _ _ le_rfl]

/-! ### The stored bins (spec/43_fft_magnitude.md R320, R325) -/

/-- Bins as a table of words, two for each bin. -/
theorem flatMap_bins {α : Type} (re im : α → Word) (z : Nat → α) (n : Nat) :
    ((List.range n).map z).flatMap (fun p => [re p, im p])
      = tabulate (2 * n) fun i => if i % 2 = 0 then re (z (i / 2)) else im (z (i / 2)) := by
  induction n with
  | zero => rfl
  | succ n ih =>
    have hodd : (2 * n + 1) / 2 = n := by omega
    rw [List.range_succ, List.map_append, List.flatMap_append, ih, tabulate, tabulate, Nat.mul_succ, List.range_succ,
      List.range_succ, List.map_append, List.map_append, List.append_assoc]
    simp [hodd]

/-- The supported lengths, split at one of them. -/
theorem fftLengths_split : ∀ l2 ∈ Finset.Icc 4 12, Config.fftLengths
    = Config.fftLengths.filter (2 ^ l2 < ·) ++ 2 ^ l2 :: Config.fftLengths.filter (· < 2 ^ l2) := by decide

theorem fftLengths_next : ∀ l2 ∈ Finset.Icc 4 12, ∀ l ∈ Config.fftLengths, 2 ^ l2 < l → l2 < 12 ∧ 2 ^ (l2 + 1) ≤ l := by
  decide

theorem fftLength_eq {count l2 : Nat} (hlow : 4 ≤ l2) (hup : l2 ≤ 12) (hle : 2 ^ l2 ≤ count)
    (hlt : count < 2 ^ (l2 + 1) ∨ l2 = 12) : fftLength count = 2 ^ l2 := by
  have hmem : l2 ∈ Finset.Icc 4 12 := Finset.mem_Icc.2 ⟨hlow, hup⟩
  have hfind : Config.fftLengths.find? (fun l => decide (l ≤ count)) = some (2 ^ l2) := by
    refine List.find?_eq_some_iff_append.2 ⟨decide_eq_true hle, _, _, fftLengths_split l2 hmem, fun l hl => ?_⟩
    obtain ⟨hl, hlong⟩ := List.mem_filter.1 hl
    obtain ⟨hl2, hnext⟩ := fftLengths_next l2 hmem l hl (of_decide_eq_true hlong)
    rw [Bool.not_eq_true', decide_eq_false_iff_not]
    omega
  rw [fftLength, hfind, Option.getD_some]

theorem fftChecks_pass {s : State} (hkind : s.tag.kind = .f32N ∨ s.tag.kind = .q15) (hcount : 16 ≤ s.tag.count.toNat) :
    firstError s.fftChecks = none := by
  have hlen : ¬(s.count < 16) := not_lt.2 hcount
  rcases hkind with hkind | hkind <;> simp [State.fftChecks, firstError, hkind, hlen]

/-- An FFT whose checks pass. -/
theorem exec_fft_result {s : State} {l2 : Nat} (hkind : s.tag.kind = .f32N ∨ s.tag.kind = .q15) (hlow : 4 ≤ l2)
    (hup : l2 ≤ 12) (hle : 2 ^ l2 ≤ s.tag.count.toNat) (hlt : s.tag.count.toNat < 2 ^ (l2 + 1) ∨ l2 = 12)
    {word : Nat → Word} (hwords : s.fftWords (2 ^ l2) = tabulate (2 * 2 ^ l2) word) :
    ∃ t, exec .fft s = .next t
      ∧ WordsWritten s t (2 * 2 ^ l2) word
      ∧ t = { s.finished (if s.tag.count.toNat = 2 ^ l2 then 0 else 4) with
          scr := t.scr, fftLen := BitVec.ofNat 13 (2 ^ l2)
          tag := { s.tag with
            kind := if s.tag.kind = .f32N then .f32Spec else .q15Spec, count := BitVec.ofNat 13 (2 ^ l2) } } := by
  have hcount : 16 ≤ s.tag.count.toNat := le_trans (Nat.pow_le_pow_right two_pos hlow) hle
  have hexec : exec .fft s = .next s.fftDone :=
    congrArg Host.Outcome.next (State.checked_of_none (fftChecks_pass hkind hcount))
  have hn : fftLength s.count = 2 ^ l2 := fftLength_eq hlow hup hle hlt
  refine ⟨_, hexec, ?_, ?_⟩
  · refine .of_tabulate (f := word) ?_ fun _ _ => rfl
    rw [← hwords, ← hn]
    rfl
  · have hrounded : 2 ^ l2 = s.count ↔ s.tag.count.toNat = 2 ^ l2 := eq_comm
    simp only [State.fftDone, hn, State.complete_ok, hrounded]
    rfl

/-- Settles O23: the stored words are the bins of the stages. -/
theorem fftOnFloatResult : Obligations.FftOnFloatResult := by
  intro s l2 hkind hlow hup hle hlt z
  have hwords : s.fftWords (2 ^ l2)
      = tabulate (2 * 2 ^ l2) fun n => if n % 2 = 0 then (z (n / 2)).1 else (z (n / 2)).2 := by
    rw [State.fftWords, if_pos hkind, fftF32_eq, flatMap_bins]
  have result := exec_fft_result (.inl hkind) hlow hup hle hlt hwords
  rwa [if_pos hkind] at result

/-- Settles O24: the stored words are the bins of the stages, as Q15 words. -/
theorem fftOnQ15Result : Obligations.FftOnQ15Result := by
  intro s l2 hkind hlow hup hle hlt z
  have hother : s.tag.kind ≠ .f32N := by rw [hkind]; decide
  have hwords : s.fftWords (2 ^ l2)
      = tabulate (2 * 2 ^ l2) fun n => BitVec.ofInt 32 (if n % 2 = 0 then (z (n / 2)).1 else (z (n / 2)).2) := by
    simp only [State.fftWords, if_neg hother, fftQ15_eq, flatMap_bins, apply_ite (BitVec.ofInt 32)]
    rfl
  have result := exec_fft_result (.inr hkind) hlow hup hle hlt hwords
  rwa [if_neg hother] at result

/-! ### The impulse (spec/43_fft_magnitude.md R327) -/

/-- A butterfly whose second value is 0 halves the first, whatever the twiddle. -/
theorem butterflyQ_zero {a : Int} (ha : -32768 ≤ a ∧ a ≤ 32767) (w : Cplx Int) :
    butterflyQ (a, 0) (0, 0) w = ((a / 2, 0), (a / 2, 0)) := by
  have hturn : sra 0 15 = 0 := by decide
  have him : sat16 (sra 0 1) = 0 := by decide
  have hre : sat16 (sra a 1) = a / 2 := by
    rw [sat16, sra, clamp_eq_max_min _ (by decide)]
    omega
  simp only [butterflyQ, zero_mul, add_zero, sub_zero, hturn, him, hre]

/-- The values after s stages: the impulse fills the first 2^s places, halved at each stage. -/
def impulseAfter (v : Int) (s i : Nat) : Int := if i < 2 ^ s then v / 2 ^ s else 0

section
variable {v : Int}

theorem impulseAfter_range (hv : -32768 ≤ v ∧ v ≤ 32767) (s i : Nat) :
    -32768 ≤ impulseAfter v s i ∧ impulseAfter v s i ≤ 32767 := by
  unfold impulseAfter
  split
  · have hpos : (1 : Int) ≤ 2 ^ s := one_le_pow₀ one_le_two
    refine ⟨(Int.le_ediv_iff_mul_le (by omega)).2 (by nlinarith), Int.lt_add_one_iff.1 ?_⟩
    exact (Int.ediv_lt_iff_lt_mul (by omega)).2 (by nlinarith)
  · omega

theorem impulseAfter_beyond {s i : Nat} (hi : 2 ^ s ≤ i) : impulseAfter v s i = 0 := if_neg (Nat.not_lt.2 hi)

/-- The halves of the places that meet in a butterfly. -/
theorem impulseAfter_succ {s i j : Nat} (h : i < 2 ^ (s + 1) ↔ j < 2 ^ s) :
    impulseAfter v (s + 1) i = impulseAfter v s j / 2 := by
  simp only [impulseAfter, h]
  split
  · rw [pow_succ, ← Int.ediv_ediv_of_nonneg (by positivity)]
  · rfl

theorem specStages_impulse (hv : -32768 ≤ v ∧ v ≤ 32767) (tw : Nat → Cplx Int) (n s : Nat) {load : Nat → Cplx Int}
    (hload : ∀ i, load i = (impulseAfter v 0 i, 0)) (i : Nat) :
    specStages butterflyQ tw n load s i = (impulseAfter v s i, 0) := by
  induction s generalizing i with
  | zero => exact hload i
  | succ s ih =>
    have hmod := Nat.mod_le i (2 * 2 ^ s)
    have hsplit := Nat.mod_add_div i (2 * 2 ^ s)
    simp only [specStages, specStage]
    split_ifs with hk
    · have hfirst : i < 2 ^ (s + 1) ↔ i < 2 ^ s := by
        rw [pow_succ']
        exact ⟨fun h => Nat.mod_eq_of_lt h ▸ hk, fun h => by omega⟩
      rw [ih, ih, impulseAfter_beyond (Nat.le_add_left _ i), butterflyQ_zero (impulseAfter_range hv s i),
        impulseAfter_succ hfirst]
    · have hle : 2 ^ s ≤ i := by omega
      have hlast : i < 2 ^ (s + 1) ↔ i - 2 ^ s < 2 ^ s := by omega
      rw [ih, ih, impulseAfter_beyond hle, butterflyQ_zero (impulseAfter_range hv s _), impulseAfter_succ hlast]

end

theorem specRev_eq_zero_iff {l2 i : Nat} (hi : i < 2 ^ l2) : specRev l2 i = 0 ↔ i = 0 := by
  constructor
  · intro h
    refine Nat.zero_of_testBit_eq_false fun j => ?_
    rcases Nat.lt_or_ge j l2 with hj | hj
    · have hterm := Finset.sum_eq_zero_iff.1 h j (Finset.mem_range.2 hj)
      simpa using hterm
    · exact Nat.testBit_lt_two_pow (hi.trans_le (Nat.pow_le_pow_right two_pos hj))
  · rintro rfl
    simp [specRev]

/-- Settles O25: the load is the impulse after no stage, and all places hold its last value after the last one. -/
theorem fftOfQ15Impulse : Obligations.FftOfQ15Impulse := by
  intro l2 v _ _ hlow hup
  have hload : fftLoad (fun n => if n = 0 then v else 0) 0 (2 ^ l2) l2
      = (List.range (2 ^ l2)).map fun i => (impulseAfter v 0 i, 0) := by
    refine List.map_congr_left fun i hi => ?_
    simp [impulseAfter, bitRev_eq, specRev_eq_zero_iff (List.mem_range.1 hi)]
  rw [fftQ15, Nat.log2_two_pow, hload, fftStages_eq _ _ le_rfl, List.eq_replicate_iff]
  refine ⟨by simp, fun z hz => ?_⟩
  obtain ⟨i, hi, rfl⟩ := List.mem_map.1 hz
  rw [specStages_impulse ⟨hlow, hup⟩ _ _ _ fun _ => rfl, impulseAfter, if_pos (List.mem_range.1 hi)]

end Sys2Proof.Proofs
end

section
/-! MAG: the magnitude words and the checks (spec/43_fft_magnitude.md R340 to R342). -/

namespace Sys2Proof.Proofs

open Sys2Proof Sys2Proof.Machine

theorem magChecks_pass {s : State} (hkind : s.tag.kind = .f32Spec ∨ s.tag.kind = .q15Spec)
    (hcount : s.tag.count.toNat ∈ [16, 32, 64, 128, 256, 512, 1024, 2048, 4096]) : firstError s.magChecks = none := by
  rw [s.magChecks_eq]
  have hlen : [16, 32, 64, 128, 256, 512, 1024, 2048, 4096].contains s.tag.count.toNat = true :=
    List.contains_iff_mem.2 hcount
  rcases hkind with hkind | hkind <;> simp only [specChecks, firstError, hkind, hlen] <;> rfl

/-- The gains of the model's tables are those of R341. -/
theorem winGain_magGain {w : Win} {a0 gain : Nat}
    (h : (w, a0, gain) ∈ [(Win.none, 100, 16384), (.blackman, 42, 39010), (.hamming, 54, 30341), (.hann, 50, 32768)]) :
    winGain w = a0 ∧ magGain w = gain := by
  simp only [List.mem_cons, Prod.mk.injEq, List.not_mem_nil, or_false] at h
  rcases h with ⟨rfl, rfl, rfl⟩ | ⟨rfl, rfl, rfl⟩ | ⟨rfl, rfl, rfl⟩ | ⟨rfl, rfl, rfl⟩ <;> decide

/-- Settles O27: word k is the model's formula with the gains of R341 and Mathlib's square root. -/
theorem magResult : Obligations.MagResult := by
  intro s a0 gain hkind hcount hwin n
  obtain ⟨ha0, hgain⟩ := winGain_magGain hwin
  have hexec : exec .mag s = .next s.magDone :=
    congrArg Host.Outcome.next (State.checked_of_none (magChecks_pass hkind hcount))
  refine ⟨_, hexec, ?_, ?_⟩
  · refine .of_tabulate (f := s.magWord) rfl fun k _ => ?_
    rw [State.magWord, State.magF, State.magQ, magScale, isqrt_eq_sqrt, ha0, hgain]
    rfl
  · simp only [State.magDone, State.succeed_eq]
    rfl

end Sys2Proof.Proofs
end

section
/-! The FIFO: the pointer Gray code, the order of the stored bytes, and the safe side on which the views err
(spec/44_fifo_cdc.md R362 to R369). -/

namespace Sys2Proof.Proofs

open Sys2Proof Sys2Proof.Machine

/-! ### The Gray code -/

theorem gray_toNat (b : BitVec 8) : (gray b).toNat = b.toNat ^^^ (b.toNat / 2) := by
  rw [gray, BitVec.toNat_xor, BitVec.toNat_ushiftRight, Nat.shiftRight_eq_div_pow, Nat.pow_one]

theorem gray_ungray : ∀ g : BitVec 8, gray (ungray g) = g := by decide

/-- The codes of successive pointers differ in one bit, at the wrap too. -/
theorem gray_succ_one_bit : ∀ b : BitVec 8, ∃ i, i < 8 ∧ gray b ^^^ gray (b + 1) = 1#8 <<< i := by decide

/-- Settles O46, by the lemmas about all 256 codes. -/
theorem grayCodeIsInvertibleAndOneBit : Obligations.GrayCodeIsInvertibleAndOneBit :=
  ⟨fun b => ⟨gray_toNat b, ungray_gray b, gray_ungray b, gray_succ_one_bit b⟩, by decide, by decide, by decide,
    by decide⟩

/-! ### The stored bytes -/

/-- The bytes still to be read do not depend on the pointers. -/
theorem bytesFrom_of_slot_eq {f g : Fifo} (h : f.slot = g.slot) (n : Nat) (p : BitVec 8) :
    f.bytesFrom n p = g.bytesFrom n p :=
  Fifo.bytesFrom_congr n p fun _ _ => by simp only [Fifo.slotAt, h]

theorem contents_of_empty {f : Fifo} (h : f.rp = f.wp) : f.contents = [] := by
  simp [Fifo.contents, Fifo.trueCount, h, Fifo.bytesFrom]

theorem trueCount_push {f : Fifo} (b : Byte) (h : f.trueCount.toNat < 255) :
    (f.push b).trueCount.toNat = f.trueCount.toNat + 1 := by
  have hpush : (f.push b).trueCount = f.wp + 1 - f.rp := rfl
  rw [hpush]
  unfold Fifo.trueCount at *
  bv_omega

/-- A push into a FIFO that is not full appends its byte. -/
theorem contents_push {f : Fifo} (b : Byte) (h : f.trueCount.toNat < 255) :
    (f.push b).contents = f.contents ++ [b] := by
  have hlast : f.rp + BitVec.ofNat 8 f.trueCount.toNat = f.wp := by unfold Fifo.trueCount; bv_omega
  have hold : (f.push b).bytesFrom f.trueCount.toNat f.rp = f.bytesFrom f.trueCount.toNat f.rp := by
    refine Fifo.bytesFrom_congr _ _ fun i hi => ?_
    rw [Fifo.slotAt_push, if_neg]
    unfold Fifo.trueCount at hi
    bv_omega
  have hrp : (f.push b).rp = f.rp := rfl
  rw [Fifo.contents, trueCount_push b h, Fifo.bytesFrom_succ, hrp, hlast, hold, Fifo.slotAt_push, if_pos rfl]
  rfl

/-- A pop from a FIFO that is not empty takes the oldest byte. -/
theorem contents_eq_front_cons {f : Fifo} (h : f.rp ≠ f.wp) : f.contents = f.front :: f.pop.contents := by
  have hcount : f.trueCount.toNat = f.pop.trueCount.toNat + 1 := by
    have hpop : f.pop.trueCount = f.wp - (f.rp + 1) := rfl
    rw [hpop]
    unfold Fifo.trueCount
    bv_omega
  rw [Fifo.contents, hcount, Fifo.bytesFrom]
  exact congrArg (f.front :: ·) (bytesFrom_of_slot_eq (f := f) (g := f.pop) rfl _ _)

theorem contents_foldl_push {f : Fifo} (bs : List Byte) (h : f.trueCount.toNat + bs.length < 256) :
    (bs.foldl Fifo.push f).contents = f.contents ++ bs := by
  induction bs generalizing f with
  | nil => simp
  | cons b bs ih =>
    rw [List.length_cons] at h
    have hroom : f.trueCount.toNat < 255 := by omega
    rw [List.foldl_cons, ih (by rw [trueCount_push b hroom]; omega), contents_push b hroom, List.append_assoc,
      List.singleton_append]

/-- A consumer that sees every pushed byte pops the stored bytes in order and then sees the FIFO empty. -/
theorem pops_return_contents {g : Fifo} {bs : List Byte} (hsync : ungray g.wps = g.wp) (hbs : g.contents = bs) :
    (∀ k (h : k < bs.length), (Fifo.pop^[k] g).seesEmpty = false ∧ (Fifo.pop^[k] g).front = bs[k])
      ∧ (Fifo.pop^[bs.length] g).seesEmpty = true := by
  have hempty : g.seesEmpty = true ↔ g.rp = g.wp := by rw [g.seesEmpty_iff, hsync]
  induction bs generalizing g with
  | nil =>
    refine ⟨fun k h => absurd h (Nat.not_lt_zero k), hempty.2 ?_⟩
    by_contra hne
    rw [contents_eq_front_cons hne] at hbs
    cases hbs
  | cons b bs ih =>
    have hne : g.rp ≠ g.wp := fun he => by rw [contents_of_empty he] at hbs; cases hbs
    rw [contents_eq_front_cons hne] at hbs
    obtain ⟨hfront, hrest⟩ := List.cons.inj hbs
    obtain ⟨hpops, hend⟩ := ih (g := g.pop) hsync hrest (by rw [g.pop.seesEmpty_iff]; exact hsync ▸ Iff.rfl)
    refine ⟨fun k h => ?_, hend⟩
    cases k with
    | zero => exact ⟨Bool.eq_false_iff.2 (hempty.not.2 hne), hfront⟩
    | succ k => exact hpops k (Nat.succ_lt_succ_iff.1 h)

theorem contents_syncW (f : Fifo) : f.syncW.contents = f.contents :=
  bytesFrom_of_slot_eq (f := f.syncW) (g := f) rfl _ _

theorem contents_syncR (f : Fifo) : f.syncR.contents = f.contents :=
  bytesFrom_of_slot_eq (f := f.syncR) (g := f) rfl _ _

/-! ### Safe views -/

/-- What the producer's view leaves room for is there, the view erring on the safe side. -/
theorem trueCount_lt_of_not_full {f : Fifo} (hsafe : f.safe = true) (h : f.seesFull = false) :
    f.trueCount.toNat < 255 := by
  obtain ⟨-, hview⟩ := f.safe_iff.1 hsafe
  have hroom : f.wp + 1 ≠ ungray f.rps := by simpa [Fifo.seesFull] using h
  bv_omega

/-- A byte the consumer sees is there. -/
theorem ne_of_not_empty {f : Fifo} (hsafe : f.safe = true) (h : f.seesEmpty = false) : f.rp ≠ f.wp := by
  obtain ⟨hview, -⟩ := f.safe_iff.1 hsafe
  have hbyte : f.rp ≠ ungray f.wps := by simpa [Fifo.seesEmpty] using h
  unfold Fifo.fillCount Fifo.trueCount at hview
  bv_omega

theorem push_safe {f : Fifo} (b : Byte) (hsafe : f.safe = true) (h : f.seesFull = false) : (f.push b).safe = true := by
  obtain ⟨hfill, htrue⟩ := f.safe_iff.1 hsafe
  have hroom : f.wp + 1 ≠ ungray f.rps := by simpa [Fifo.seesFull] using h
  have hgoal : ungray f.wps - f.rp ≤ f.wp + 1 - f.rp ∧ f.wp + 1 - f.rp ≤ f.wp + 1 - ungray f.rps := by
    unfold Fifo.fillCount Fifo.trueCount at *
    constructor <;> bv_omega
  exact (f.push b).safe_iff.2 hgoal

theorem pop_safe {f : Fifo} (hsafe : f.safe = true) (h : f.seesEmpty = false) : f.pop.safe = true := by
  obtain ⟨hfill, htrue⟩ := f.safe_iff.1 hsafe
  have hbyte : f.rp ≠ ungray f.wps := by simpa [Fifo.seesEmpty] using h
  have hgoal : ungray f.wps - (f.rp + 1) ≤ f.wp - (f.rp + 1) ∧ f.wp - (f.rp + 1) ≤ f.wp - ungray f.rps := by
    unfold Fifo.fillCount Fifo.trueCount at *
    constructor <;> bv_omega
  exact f.pop.safe_iff.2 hgoal

theorem syncW_safe {f : Fifo} (hsafe : f.safe = true) : f.syncW.safe = true := by
  obtain ⟨-, htrue⟩ := f.safe_iff.1 hsafe
  refine f.syncW.safe_iff.2 ⟨?_, htrue⟩
  have hfill : f.syncW.fillCount = f.syncW.trueCount := congrArg (· - f.rp) (ungray_gray f.wp)
  rw [hfill]; exact BitVec.le_refl _

theorem syncR_safe {f : Fifo} (hsafe : f.safe = true) : f.syncR.safe = true := by
  obtain ⟨hfill, -⟩ := f.safe_iff.1 hsafe
  refine f.syncR.safe_iff.2 ⟨hfill, ?_⟩
  have hview : f.syncR.wp - ungray f.syncR.rps = f.syncR.trueCount := congrArg (f.wp - ·) (ungray_gray f.rp)
  rw [hview]; exact BitVec.le_refl _

theorem cleared_safe (f : Fifo) : f.cleared.safe = true := by
  have hview : ungray 0 - 0 ≤ (0 - 0 : BitVec 8) ∧ (0 - 0 : BitVec 8) ≤ 0 - ungray 0 := by decide
  exact f.cleared.safe_iff.2 hview

/-- Settles O47: the pushes and pops of a safe FIFO by the true count, the round trip through the stored bytes. -/
theorem fifoKeepsOrder : Obligations.FifoKeepsOrder := by
  intro f hsafe
  refine ⟨fun b h => contents_push b (trueCount_lt_of_not_full hsafe h),
    fun h => contents_eq_front_cons (ne_of_not_empty hsafe h), contents_syncW f,
    contents_syncR f, ?_⟩
  intro bs hdrained hlen g
  obtain ⟨hrp, -, -⟩ := f.drained_iff.1 hdrained
  have hcount : f.trueCount.toNat = 0 := by simp [Fifo.trueCount, hrp]
  have hstored : g.contents = bs :=
    calc g.contents
      _ = (bs.foldl Fifo.push f).contents := contents_syncW _
      _ = f.contents ++ bs := contents_foldl_push bs (by omega)
      _ = bs := by rw [contents_of_empty hrp, List.nil_append]
  exact pops_return_contents (ungray_gray _) hstored

end Sys2Proof.Proofs
end

section
/-! The steps beside the sequencer's: the serial side, the synchronizers and TICK, and the two data registers of the
serial side on the host port (spec/44_fifo_cdc.md R365, R370, R371, R374, R375, spec/60_exceptions.md R520). -/

namespace Sys2Proof.Proofs

open Sys2Proof Sys2Proof.Machine

/-! ### The agents -/

section
variable {s : State}

theorem srxStep_full (b : Byte) (h : s.rx.seesFull = true) : s.srxStep b = s.setEvents evRxOvf := if_pos h

theorem srxStep_room (b : Byte) (h : s.rx.seesFull = false) : s.srxStep b = { s with rx := s.rx.push b } :=
  if_neg (Bool.eq_false_iff.1 h)

theorem stxStep_empty (h : s.tx.seesEmpty = true) : s.stxStep = s := if_pos h

theorem stxStep_byte (h : s.tx.seesEmpty = false) :
    s.stxStep = { s with txLine := s.txLine ++ [s.tx.front], tx := s.tx.pop } :=
  if_neg (Bool.eq_false_iff.1 h)

end

theorem seesFull_eq_false_iff (f : Fifo) : f.seesFull = false ↔ ¬ f.fullView := by
  rw [← f.seesFull_iff, Bool.not_eq_true]

theorem seesEmpty_eq_false_iff (f : Fifo) : f.seesEmpty = false ↔ f.rp ≠ ungray f.wps := by
  rw [Ne, ← f.seesEmpty_iff, Bool.not_eq_true]

/-- Settles O48: SRX and STX by what their side of the FIFO sees. -/
theorem agentStepsBesideTheCore : Obligations.AgentStepsBesideTheCore := by
  intro s b
  refine ⟨fun h => ?overflow, fun h => ?push, fun h => ?line, rfl, rfl, rfl, rfl, ?tick⟩
  case overflow => exact congrArg _ (srxStep_full b (s.rx.seesFull_iff.2 h))
  case push =>
    rw [State.agentStep, srxStep_room b ((seesFull_eq_false_iff _).2 h), Fifo.push_eq_pushed]
  case line =>
    rw [State.agentStep, stxStep_byte ((seesEmpty_eq_false_iff _).2 h), Fifo.pop_eq_popped]
    rfl
  case tick =>
    have htick : s.tick + 1 = BitVec.ofNat 32 ((s.tick.toNat + 1) % 2 ^ 32) := by
      apply BitVec.eq_of_toNat_eq; simp
    rw [State.agentStep, State.tickStep, htick]

/-! ### RXDATA and TXDATA -/

section
variable {s : State}

theorem read_rxData_none (h : s.runsBtx = true ∨ s.rx.seesEmpty = true) :
    s.hostStep (.read 0x0094 .word) = s.respond (.data 0) := by
  have hnone : (s.runsBtx || s.rx.seesEmpty) = true := Bool.or_eq_true_iff.2 h
  rw [State.hostStep_read_reg (r := .rxData) (by decide) (by decide) rfl, State.afterRead, State.regValue, if_pos hnone,
    if_pos hnone]

theorem read_rxData_byte (hrun : s.runsBtx = false) (hbyte : s.rx.seesEmpty = false) :
    s.hostStep (.read 0x0094 .word) = s.popRx.respond (.data (0#23 ++ 1#1 ++ s.rx.front)) := by
  have hsome : ¬ (s.runsBtx || s.rx.seesEmpty) = true := by rw [hrun, hbyte]; decide
  rw [State.hostStep_read_reg (r := .rxData) (by decide) (by decide) rfl, State.afterRead, State.regValue, if_neg hsome,
    if_neg hsome]

theorem writeTxData_full (v : Word) (h : s.tx.seesFull = true) : s.writeTxData v = s.setEvents evTxOvf := if_pos h

theorem writeTxData_room (v : Word) (h : s.tx.seesFull = false) : s.writeTxData v = s.pushTx (v.setWidth 8) :=
  if_neg (Bool.eq_false_iff.1 h)

theorem write_txData_idle (v : Word) (h : s.seq = .idle) :
    s.hostStep (.write 0x0098 .word v) = (s.writeTxData v).respond .written :=
  write_regAddr (r := .txData) v (.inl h)

end

/-- RXDATA with a byte: VALID is bit 8. -/
theorem rxData_value (b : Byte) : (0#23 ++ 1#1 ++ b : Word) = BitVec.ofNat 32 (256 + b.toNat) := by
  apply BitVec.eq_of_toNat_eq
  have hb := b.isLt
  rw [toNat_append_fields, toNat_append_fields, BitVec.toNat_ofNat, BitVec.toNat_ofNat, BitVec.toNat_ofNat]
  omega

theorem low_byte_eq (v : Word) : v.setWidth 8 = BitVec.ofNat 8 (v.toNat % 256) := by
  apply BitVec.eq_of_toNat_eq; simp

/-- Settles O49: each access by its law, the busy TXDATA write by the busy guard. -/
theorem serialDataDoors : Obligations.SerialDataDoors := by
  intro s v
  refine ⟨write_regAddr (r := .rxData) v (.inr rfl), read_regAddr s (r := .txData) nofun, fun h => ?none,
    fun hrun hbyte => ?byte, fun hbusy => ?dropped, fun hidle hfull => ?overflow, fun hidle hroom => ?push⟩
  case none => exact read_rxData_none (h.imp s.runsBtx_iff.2 s.rx.seesEmpty_iff.2)
  case byte =>
    have hnot : s.runsBtx = false := Bool.eq_false_iff.2 fun h => (s.runsBtx_iff.1 h).elim hrun
    rw [read_rxData_byte hnot ((seesEmpty_eq_false_iff _).2 hbyte), rxData_value, State.popRx, Fifo.pop_eq_popped]
    rfl
  case dropped =>
    rw [State.hostStep_write_reg (r := .txData) v (by decide) (by decide) rfl, State.regWrite_guarded v hbusy rfl]
    rfl
  case overflow => rw [write_txData_idle v hidle, writeTxData_full v (s.tx.seesFull_iff.2 hfull)]; rfl
  case push =>
    rw [write_txData_idle v hidle, writeTxData_room v ((seesFull_eq_false_iff _).2 hroom), low_byte_eq, State.pushTx,
      Fifo.push_eq_pushed]
    rfl

end Sys2Proof.Proofs
end

section
/-! The parts of a safe state: the legal registers, the sequencer in each progress, the block-transfer engine in each
of its states (spec/10_state.md R51, R62, R67, R88, spec/45_transport.md R440 to R446). -/

namespace Sys2Proof.Proofs

open Sys2Proof Sys2Proof.Machine

/-! ### Legal registers -/

theorem regsLegal_iff (s : State) :
    s.regsLegal = true ↔ s.tag.count.toNat ≤ 4096 ∧ (s.fftLen = 0 ∨ s.fftLen.toNat ∈ Config.fftLengths)
      ∧ s.pktStatus.getLsbD 4 = (s.pktStatus.getLsbD 0 && s.pktStatus.getLsbD 1 && s.pktStatus.getLsbD 2
          && s.pktStatus.getLsbD 3)
      ∧ s.blocksAcked.toNat ≤ 256 := by
  simp only [State.regsLegal, Bool.and_eq_true, Bool.or_eq_true, decide_eq_true_eq, beq_iff_eq, List.contains_iff_mem,
    and_assoc]

section
variable {s t : State} (h : s.regsLegal = true)
include h

theorem regsLegal_of_tag (hcount : t.tag.count.toNat ≤ 4096) (hfft : t.fftLen = s.fftLen)
    (hpkt : t.pktStatus = s.pktStatus) (hacked : t.blocksAcked = s.blocksAcked) : t.regsLegal = true := by
  rw [regsLegal_iff] at h ⊢
  rw [hfft, hpkt, hacked]
  exact ⟨hcount, h.2⟩

theorem count_le : s.count ≤ 4096 := ((regsLegal_iff s).1 h).1

theorem regsLegal_withBlocksAcked {n : Nat} (hn : n ≤ 256) :
    { s with blocksAcked := BitVec.ofNat 9 n }.regsLegal = true := by
  obtain ⟨hcount, hfft, hpkt, -⟩ := (regsLegal_iff s).1 h
  refine (regsLegal_iff _).2 ⟨hcount, hfft, hpkt, ?_⟩
  rw [BitVec.toNat_ofNat]
  omega

end

/-! ### The sequencer and the engine -/

/-- The command words whose bytes SEQ streams (R407). -/
def streamWords : List Word := [encode .sendB, encode .sendH, encode .pktBld]

/-- The codes with which a BTX can abort (R444). -/
def abortCodes : List ErrCode := [.btTimeout, .btRetries, .btCancelRemote, .btCancelHost]

/-- What holds in every state of a running BTX: the conditions of `State.engineOk` beside that on the state. -/
structure BlocksOk (s : State) : Prop where
  region : s.regionOut = false
  nonempty : s.cfg.srcLen ≠ 0
  nblk : s.bt.nblk = (s.cfg.srcLen.toNat + 127) / 128
  blk : s.bt.blk ≤ s.bt.nblk
  acked : s.blocksAcked = BitVec.ofNat 9 s.bt.blk
  retries : s.bt.retries ≤ s.cfg.btMaxRetry

theorem engineOk_iff (s : State) : s.engineOk = true ↔ BlocksOk s ∧ s.engineStateOk = true := by
  simp only [State.engineOk, Bool.and_eq_true, Bool.not_eq_true', bne_iff_ne, beq_iff_eq, decide_eq_true_eq]
  constructor
  · rintro ⟨⟨⟨⟨⟨⟨hregion, hlen⟩, hnblk⟩, hblk⟩, hacked⟩, hretries⟩, hstate⟩
    exact ⟨⟨hregion, hlen, hnblk, hblk, hacked, hretries⟩, hstate⟩
  · rintro ⟨⟨hregion, hlen, hnblk, hblk, hacked, hretries⟩, hstate⟩
    exact ⟨⟨⟨⟨⟨⟨hregion, hlen⟩, hnblk⟩, hblk⟩, hacked⟩, hretries⟩, hstate⟩

theorem atRest_iff (e : BtEngine) :
    e.atRest = true ↔ (e.state = .idle ∨ e.state = .complete ∨ e.state = .aborted) ∧ e.cancelReq = false := by
  simp [BtEngine.atRest, or_assoc]

section
variable {s : State} {w : Word}

theorem seqOk_idle (hs : s.seq = .idle) : s.seqOk = s.bt.atRest := by simp only [State.seqOk, hs]

theorem seqOk_start (hs : s.seq = .run w .start) : s.seqOk = true ↔ w = s.lastCmd ∧ s.bt.atRest = true := by
  simp only [State.seqOk, hs, Bool.and_eq_true, beq_iff_eq]

theorem seqOk_push {rest : List Byte} (hs : s.seq = .run w (.push rest)) :
    s.seqOk = true ↔ w = s.lastCmd ∧ s.bt.atRest = true ∧ w ∈ streamWords ∧ rest <:+ s.streamBytes w := by
  have hwords : w ∈ streamWords ↔ (w = 0x00000008#32 ∨ w = 0x00000108#32) ∨ w = 0x0000000A#32 := by
    simp [streamWords, encode, Instr.opCode, Instr.selCode, or_assoc]
  simp only [State.seqOk, hs, Bool.and_eq_true, Bool.or_eq_true, beq_iff_eq, decide_eq_true_eq, hwords, and_assoc]

theorem seqOk_engine (hs : s.seq = .run w .engine) :
    s.seqOk = true ↔ w = s.lastCmd ∧ w = encode .btx ∧ BlocksOk s ∧ s.engineStateOk = true := by
  simp only [State.seqOk, hs, Bool.and_eq_true, beq_iff_eq, engineOk_iff, and_assoc]
  rfl

/-- A running command is the last one accepted; the engine rests unless it is a BTX past its start. -/
theorem lastCmd_and_atRest {p : Progress} (h : s.seqOk = true) (hs : s.seq = .run w p) :
    w = s.lastCmd ∧ (s.bt.atRest = true ∨ (p = .engine ∧ w = encode .btx)) := by
  cases p with
  | start =>
    obtain ⟨hlast, hrest⟩ := (seqOk_start hs).1 h
    exact ⟨hlast, .inl hrest⟩
  | push rest =>
    obtain ⟨hlast, hrest, -⟩ := (seqOk_push hs).1 h
    exact ⟨hlast, .inl hrest⟩
  | engine =>
    obtain ⟨hlast, hbtx, -⟩ := (seqOk_engine hs).1 h
    exact ⟨hlast, .inr ⟨rfl, hbtx⟩⟩

/-! What holds in each state of a running engine. -/

theorem engineStateOk_awaitStart (hst : s.bt.state = .awaitStart) :
    s.engineStateOk = true ↔ s.bt.blk = 0 ∧ s.bt.retries = 0 := by
  simp [State.engineStateOk, hst]

theorem engineStateOk_sending (hst : s.bt.state = .sending) :
    s.engineStateOk = true ↔
      s.bt.outq ≠ [] ∧ s.bt.outq <:+ s.blockPacket s.bt.blk ∧ s.bt.blk < s.bt.nblk := by
  simp [State.engineStateOk, hst, and_assoc]

theorem engineStateOk_waitAck (hst : s.bt.state = .waitAck) :
    s.engineStateOk = true ↔ s.bt.outq = [] ∧ s.bt.blk < s.bt.nblk := by
  simp [State.engineStateOk, hst]

theorem engineStateOk_sendEot (hst : s.bt.state = .sendEot) :
    s.engineStateOk = true ↔ s.bt.outq = [btEot] ∧ s.bt.blk = s.bt.nblk := by
  simp [State.engineStateOk, hst, btEot]

theorem engineStateOk_waitEotAck (hst : s.bt.state = .waitEotAck) :
    s.engineStateOk = true ↔ s.bt.outq = [] ∧ s.bt.blk = s.bt.nblk := by
  simp [State.engineStateOk, hst]

theorem engineStateOk_aborted (hst : s.bt.state = .aborted) :
    s.engineStateOk = true ↔ s.bt.outq <:+ [btCan, btCan] ∧ s.bt.cancelReq = false ∧ s.bt.code ∈ abortCodes := by
  simp [State.engineStateOk, hst, btCan, abortCodes, and_assoc, or_assoc]

end

/-! ### Safe states -/

/-- What `State.safe` says beside the memory's form. -/
structure Consistent (s : State) : Prop where
  rx : s.rx.safe = true
  tx : s.tx.safe = true
  regs : s.regsLegal = true
  seq : s.seqOk = true

theorem safe_iff (s : State) : s.safe = true ↔ s.scr.wf = true ∧ Consistent s := by
  simp only [State.safe, State.fifosSafe, Bool.and_eq_true]
  constructor
  · rintro ⟨⟨⟨hmem, hrx, htx⟩, hregs⟩, hseq⟩
    exact ⟨hmem, hrx, htx, hregs, hseq⟩
  · rintro ⟨hmem, hrx, htx, hregs, hseq⟩
    exact ⟨⟨⟨hmem, hrx, htx⟩, hregs⟩, hseq⟩

end Sys2Proof.Proofs
end

section
/-! A running BTX stays consistent: the engine's moves, each said once, and then its step in each of its states
(spec/45_transport.md R442 to R445). -/

namespace Sys2Proof.Proofs

open Sys2Proof Sys2Proof.Machine

/-- A running BTX of which all is consistent but what depends on the engine's state. -/
structure BtxRuns (s : State) : Prop where
  rx : s.rx.safe = true
  tx : s.tx.safe = true
  regs : s.regsLegal = true
  seq : s.seq = .run (encode .btx) .engine
  lastCmd : encode .btx = s.lastCmd
  blocks : BlocksOk s

theorem Consistent.btxRuns {s : State} {w : Word} (h : Consistent s) (hs : s.seq = .run w .engine) :
    BtxRuns s ∧ s.engineStateOk = true := by
  obtain ⟨hlast, rfl, hblocks, hstate⟩ := (seqOk_engine hs).1 h.seq
  exact ⟨⟨h.rx, h.tx, h.regs, hs, hlast, hblocks⟩, hstate⟩

/-- A transfer has at most 256 blocks, its region lying in SCR. -/
theorem BlocksOk.nblk_le {s : State} (h : BlocksOk s) : s.bt.nblk ≤ 256 := by
  have hregion : ¬ 32768 < s.cfg.srcAddr.toNat + s.cfg.srcLen.toNat := fun hout => by
    exact Bool.noConfusion ((s.regionOut_iff.2 hout).symm.trans h.region)
  rw [h.nblk]
  omega

theorem BlocksOk.nblk_pos {s : State} (h : BlocksOk s) : 0 < s.bt.nblk := by
  have hlen : s.cfg.srcLen.toNat ≠ 0 := fun he => h.nonempty (BitVec.eq_of_toNat_eq he)
  rw [h.nblk]
  omega

theorem blockPacket_ne_nil (s : State) (k : Nat) : s.blockPacket k ≠ [] := nofun

/-! ### The moves of the engine -/

section
variable {s : State} (h : BtxRuns s)
include h

theorem BtxRuns.consistent (hstate : s.engineStateOk = true) : Consistent s :=
  ⟨h.rx, h.tx, h.regs, (seqOk_engine h.seq).2 ⟨h.lastCmd, rfl, h.blocks, hstate⟩⟩

theorem BtxRuns.popRx (hbyte : s.rx.seesEmpty = false) : BtxRuns s.popRx := by
  obtain ⟨hregion, hlen, hnblk, hblk, hacked, hretries⟩ := h.blocks
  exact ⟨pop_safe h.rx hbyte, h.tx, h.regs, h.seq, h.lastCmd, hregion, hlen, hnblk, hblk, hacked, hretries⟩

theorem BtxRuns.pushTx (b : Byte) (hroom : s.tx.seesFull = false) : BtxRuns (s.pushTx b) := by
  obtain ⟨hregion, hlen, hnblk, hblk, hacked, hretries⟩ := h.blocks
  exact ⟨h.rx, push_safe b h.tx hroom, h.regs, h.seq, h.lastCmd, hregion, hlen, hnblk, hblk, hacked, hretries⟩

/-- The engine goes on within its block. -/
theorem BtxRuns.withEngine {e : BtEngine} (hblk : e.blk = s.bt.blk) (hnblk : e.nblk = s.bt.nblk)
    (hretries : e.retries ≤ s.cfg.btMaxRetry) : BtxRuns { s with bt := e } := by
  obtain ⟨hregion, hlen, hn, hle, hacked, -⟩ := h.blocks
  refine ⟨h.rx, h.tx, h.regs, h.seq, h.lastCmd, hregion, hlen, hnblk.trans hn, ?_, ?_, hretries⟩
  · exact hblk ▸ hnblk ▸ hle
  · exact hblk ▸ hacked

/-- The engine goes on to a later block, or past the last. -/
theorem BtxRuns.withBlock {e : BtEngine} (hblk : e.blk ≤ s.bt.nblk) (hnblk : e.nblk = s.bt.nblk)
    (hretries : e.retries ≤ s.cfg.btMaxRetry) :
    BtxRuns { s with bt := e, blocksAcked := BitVec.ofNat 9 e.blk } := by
  have hregs := regsLegal_withBlocksAcked h.regs (hblk.trans h.blocks.nblk_le)
  obtain ⟨hregion, hlen, hn, -, -, -⟩ := h.blocks
  exact ⟨h.rx, h.tx, hregs, h.seq, h.lastCmd, hregion, hlen, hnblk.trans hn, hnblk ▸ hblk, rfl, hretries⟩

theorem BtxRuns.abort {code : ErrCode} (hcode : code ∈ abortCodes) : Consistent (s.btAbort code) := by
  refine (h.withEngine (e := (s.btAbort code).bt) rfl rfl h.blocks.retries).consistent
    ((engineStateOk_aborted rfl).2 ⟨?_, rfl, hcode⟩)
  show (if code = .btCancelRemote then [] else [btCan, btCan]) <:+ [btCan, btCan]
  split
  · exact List.nil_suffix
  · exact List.suffix_refl _

theorem BtxRuns.sendBlock (hblk : s.bt.blk < s.bt.nblk) : Consistent s.sendBlock :=
  (h.withEngine (e := s.sendBlock.bt) rfl rfl h.blocks.retries).consistent
    ((engineStateOk_sending rfl).2 ⟨blockPacket_ne_nil s _, List.suffix_refl _, hblk⟩)

theorem BtxRuns.sendEot (hblk : s.bt.blk = s.bt.nblk) : Consistent s.sendEot :=
  (h.withEngine (e := s.sendEot.bt) rfl rfl h.blocks.retries).consistent
    ((engineStateOk_sendEot rfl).2 ⟨rfl, hblk⟩)

/-- A retry sends the block again while a block waits for its answer, else the EOT. -/
theorem BtxRuns.retry {code : ErrCode} (hcode : code ∈ abortCodes)
    (hblock : s.bt.state = .waitAck → s.bt.blk < s.bt.nblk) (heot : s.bt.state ≠ .waitAck → s.bt.blk = s.bt.nblk) :
    Consistent (s.btRetry code) := by
  have hmore (hlt : s.bt.retries < s.cfg.btMaxRetry) :
      BtxRuns { s with bt := { s.bt with retries := s.bt.retries + 1 } } :=
    h.withEngine rfl rfl (show s.bt.retries + 1 ≤ s.cfg.btMaxRetry by bv_omega)
  rcases s.btRetry_cases code with ⟨-, heq⟩ | ⟨hlt, hwait, heq⟩ | ⟨hlt, hnot, heq⟩ <;> rw [heq]
  · exact h.abort hcode
  · exact (hmore hlt).sendBlock (hblock hwait)
  · exact (hmore hlt).sendEot (heot hnot)

theorem BtxRuns.acked (hblk : s.bt.blk < s.bt.nblk) : Consistent s.btAcked := by
  have hretries : 0 ≤ s.cfg.btMaxRetry := BitVec.le_def.2 (Nat.zero_le _)
  have hnext := h.withBlock (e := { s.bt with blk := s.bt.blk + 1, retries := 0 }) hblk rfl hretries
  rcases s.btAcked_cases with ⟨hlast, heq⟩ | ⟨hlast, heq⟩ <;> rw [heq]
  · exact hnext.sendEot hlast
  · exact hnext.sendBlock (Nat.lt_of_le_of_ne hblk hlast)

/-- At its end the BTX leaves the engine at rest. -/
theorem BtxRuns.ended (code : ErrCode) (hrest : s.bt.atRest = true) : Consistent (s.btEnd code) :=
  ⟨h.rx, h.tx, h.regs, hrest⟩

/-! ### The step in each state -/

theorem btAwaitStart_consistent (hst : s.bt.state = .awaitStart) (hok : s.engineStateOk = true) :
    Consistent s.btAwaitStart := by
  obtain ⟨hblk, -⟩ := (engineStateOk_awaitStart hst).1 hok
  have hpop (hempty : ¬ s.rx.seesEmpty = true) := h.popRx (Bool.not_eq_true _ ▸ hempty)
  unfold State.btAwaitStart
  split_ifs with hcancel htime hempty hstart hcan
  · exact h.abort (by decide)
  · exact h.abort (by decide)
  · exact h.consistent hok
  · exact (hpop hempty).sendBlock (hblk.trans_lt h.blocks.nblk_pos)
  · exact (hpop hempty).abort (by decide)
  · exact (hpop hempty).consistent hok

theorem btSending_consistent (hst : s.bt.state = .sending) (hok : s.engineStateOk = true) :
    Consistent s.btSending := by
  obtain ⟨-, hsuffix, hblk⟩ := (engineStateOk_sending hst).1 hok
  unfold State.btSending
  split_ifs with hcancel hfull
  · exact h.abort (by decide)
  · exact h.consistent hok
  · have hpush (b : Byte) := h.pushTx b (Bool.not_eq_true _ ▸ hfull)
    split
    case h_1 => exact h.consistent hok
    case h_2 b _ =>
      let e := { s.bt with outq := [], state := .waitAck, t0 := s.tick }
      exact ((hpush b).withEngine (e := e) rfl rfl h.blocks.retries).consistent
        ((engineStateOk_waitAck rfl).2 ⟨rfl, hblk⟩)
    case h_3 b rest hrest houtq =>
      have htail : rest <:+ s.blockPacket s.bt.blk := (List.suffix_cons b rest).trans (houtq ▸ hsuffix)
      refine ((hpush b).withEngine (e := { s.bt with outq := rest }) rfl rfl h.blocks.retries).consistent ?_
      exact (engineStateOk_sending (by exact hst)).2 ⟨hrest, htail, hblk⟩

theorem btWaitAck_consistent (hst : s.bt.state = .waitAck) (hok : s.engineStateOk = true) :
    Consistent s.btWaitAck := by
  obtain ⟨-, hblk⟩ := (engineStateOk_waitAck hst).1 hok
  have hpop (hempty : ¬ s.rx.seesEmpty = true) := h.popRx (Bool.not_eq_true _ ▸ hempty)
  unfold State.btWaitAck
  split_ifs with hcancel htime hempty hack hnak hcan
  · exact h.abort (by decide)
  · exact h.retry (by decide) (fun _ => hblk) fun hne => absurd hst hne
  · exact h.consistent hok
  · exact (hpop hempty).acked hblk
  · exact (hpop hempty).retry (by decide) (fun _ => hblk) fun hne => absurd hst hne
  · exact (hpop hempty).abort (by decide)
  · exact (hpop hempty).consistent hok

theorem btSendEot_consistent (hst : s.bt.state = .sendEot) (hok : s.engineStateOk = true) :
    Consistent s.btSendEot := by
  obtain ⟨-, hblk⟩ := (engineStateOk_sendEot hst).1 hok
  unfold State.btSendEot
  split_ifs with hcancel hfull
  · exact h.abort (by decide)
  · exact h.consistent hok
  · have hpush := h.pushTx btEot (Bool.not_eq_true _ ▸ hfull)
    let e := { s.bt with outq := [], state := .waitEotAck, t0 := s.tick }
    exact (hpush.withEngine (e := e) rfl rfl h.blocks.retries).consistent
      ((engineStateOk_waitEotAck rfl).2 ⟨rfl, hblk⟩)

theorem btWaitEotAck_consistent (hst : s.bt.state = .waitEotAck) (hok : s.engineStateOk = true) :
    Consistent s.btWaitEotAck := by
  obtain ⟨-, hblk⟩ := (engineStateOk_waitEotAck hst).1 hok
  have hpop (hempty : ¬ s.rx.seesEmpty = true) := h.popRx (Bool.not_eq_true _ ▸ hempty)
  have hnot : s.bt.state ≠ .waitAck := by rw [hst]; nofun
  unfold State.btWaitEotAck
  split_ifs with hcancel htime hempty hack hnak hcan
  · exact h.abort (by decide)
  · exact h.retry (by decide) (fun hwait => absurd hwait hnot) fun _ => hblk
  · exact h.consistent hok
  · exact ((hpop hempty).withEngine (e := { s.bt with state := .complete }) rfl rfl h.blocks.retries).ended _
      ((atRest_iff _).2 ⟨.inr (.inl rfl), Bool.not_eq_true _ ▸ hcancel⟩)
  · exact (hpop hempty).retry (by decide) (fun hwait => absurd hwait hnot) fun _ => hblk
  · exact (hpop hempty).abort (by decide)
  · exact (hpop hempty).consistent hok

theorem btAborted_consistent (hst : s.bt.state = .aborted) (hok : s.engineStateOk = true) :
    Consistent s.btAborted := by
  obtain ⟨hsuffix, hcancel, hcode⟩ := (engineStateOk_aborted hst).1 hok
  unfold State.btAborted
  split
  case h_1 => exact h.ended _ ((atRest_iff _).2 ⟨.inr (.inr hst), hcancel⟩)
  case h_2 b rest houtq =>
    split_ifs with hfull
    · exact h.consistent hok
    · have hpush := h.pushTx b (Bool.not_eq_true _ ▸ hfull)
      have htail : rest <:+ [btCan, btCan] := (List.suffix_cons b rest).trans (houtq ▸ hsuffix)
      exact (hpush.withEngine (e := { s.bt with outq := rest }) rfl rfl h.blocks.retries).consistent
        ((engineStateOk_aborted (by exact hst)).2 ⟨htail, hcancel, hcode⟩)

theorem btEngineStep_consistent (hok : s.engineStateOk = true) : Consistent s.btEngineStep := by
  unfold State.btEngineStep
  split
  case h_1 | h_7 => exact h.consistent hok
  case h_2 hst => exact btAwaitStart_consistent h hst hok
  case h_3 hst => exact btSending_consistent h hst hok
  case h_4 hst => exact btWaitAck_consistent h hst hok
  case h_5 hst => exact btSendEot_consistent h hst hok
  case h_6 hst => exact btWaitEotAck_consistent h hst hok
  case h_8 hst => exact btAborted_consistent h hst hok

end

end Sys2Proof.Proofs
end

section
/-! The results of the commands that run in one step are legal (spec/10_state.md R51, R62, R67). -/

namespace Sys2Proof.Proofs

open Sys2Proof Sys2Proof.Machine

theorem fftLength_mem (count : Nat) : fftLength count ∈ Config.fftLengths := by
  unfold fftLength
  cases h : Config.fftLengths.find? fun l => decide (l ≤ count) with
  | none => decide
  | some l => exact List.mem_of_find?_eq_some h

/-- A sample count that SCR_TAG.COUNT can hold. -/
theorem toNat_count {n : Nat} (h : n ≤ 4096) : (BitVec.ofNat 13 n).toNat = n := by
  rw [BitVec.toNat_ofNat]
  omega

theorem clipped_count_le (n : Nat) : (BitVec.ofNat 13 (min n 4096)).toNat ≤ 4096 :=
  (toNat_count (Nat.min_le_right n 4096)).trans_le (Nat.min_le_right n 4096)

/-- VALID, the head of PKT_STATUS, is the AND of the four bits below it. -/
theorem pktStatus_valid : ∀ pre sq cmp crc : Bool,
    let p : BitVec 5 := BitVec.ofBool (pre && sq && cmp && crc) ++ BitVec.ofBool crc ++ BitVec.ofBool cmp
      ++ BitVec.ofBool sq ++ BitVec.ofBool pre
    p.getLsbD 4 = (p.getLsbD 0 && p.getLsbD 1 && p.getLsbD 2 && p.getLsbD 3) := by decide

section
variable {s : State} (h : s.regsLegal = true)
include h

theorem checked_regsLegal {done : State} (checks : List (Bool × ErrCode)) (hd : done.regsLegal = true) :
    (s.checked checks done).regsLegal = true := by
  rcases s.checked_cases done checks with ⟨_, heq⟩ | ⟨_, _, heq⟩ <;> rw [heq]
  · exact hd
  · exact h

theorem synthDone_regsLegal (kind : Kind) (sample : Nat → Word) : (s.synthDone kind sample).regsLegal = true :=
  regsLegal_of_tag h (clipped_count_le _) rfl rfl rfl

theorem fftDone_regsLegal : s.fftDone.regsLegal = true := by
  have hlen := toNat_count (fftLength_le s.count)
  obtain ⟨-, -, hpkt, hacked⟩ := (regsLegal_iff s).1 h
  exact (regsLegal_iff _).2 ⟨hlen.trans_le (fftLength_le _), .inr (hlen.symm ▸ fftLength_mem _), hpkt, hacked⟩

theorem magDone_regsLegal : s.magDone.regsLegal = true := by
  have hhalf : s.count / 2 ≤ 4096 := (Nat.div_le_self _ _).trans (count_le h)
  exact regsLegal_of_tag h ((toNat_count hhalf).trans_le hhalf) rfl rfl rfl

theorem withPktStatus_regsLegal (preamble id : Byte) (p : List Byte) :
    { s with pktStatus := pktStatusOf preamble id p }.regsLegal = true := by
  obtain ⟨hcount, hfft, -, hacked⟩ := (regsLegal_iff s).1 h
  exact (regsLegal_iff _).2 ⟨hcount, hfft, pktStatus_valid _ _ _ _, hacked⟩

theorem exec_regsLegal {t : State} {i : Instr} (hm : multiStep i = false) (hexec : exec i s = .next t) :
    t.regsLegal = true := by
  cases i <;> cases hexec
  case nop | firNone => exact h
  case synthF32 | synthU16 | synthFix => exact checked_regsLegal h _ (synthDone_regsLegal h _ _)
  case firLp | firBp | normF | normQ | winBlackman | winHamming | winHann =>
    exact checked_regsLegal h _ (regsLegal_of_tag h (count_le h) rfl rfl rfl)
  case fft => exact checked_regsLegal h _ (fftDone_regsLegal h)
  case mag => exact checked_regsLegal h _ (magDone_regsLegal h)
  case crc32 | crc16 => exact checked_regsLegal h _ h
  case pktChk => exact checked_regsLegal h _ (withPktStatus_regsLegal h _ _ _)
  case sendB | sendH | pktBld | btx => exact absurd hm (by decide)

end

end Sys2Proof.Proofs
end

section
/-! Every step of every agent keeps a safe state safe: SEQ by the progress of its command, HOST by the register, and
the other agents by their side of a FIFO. -/

namespace Sys2Proof.Proofs

open Sys2Proof Sys2Proof.Machine

/-! ### SEQ -/

theorem encode_injective {i j : Instr} (h : encode i = encode j) : i = j := by
  have hi : decodeWord (encode i) = .ok i := decodeWord_eq_ok_iff.2 rfl
  rw [h, decodeWord_eq_ok_iff.2 rfl] at hi
  exact (Except.ok.inj hi).symm

/-- The sequence that a streaming command fixes at its start (R407). -/
theorem streamBytes_encode (s : State) :
    s.streamBytes (encode .sendB) = s.region ∧ s.streamBytes (encode .sendH) = s.halfwords
      ∧ s.streamBytes (encode .pktBld)
          = s.packet s.cfg.pktSeq (s.payload s.cfg.srcAddr.toNat s.cfg.srcLen.toNat) :=
  ⟨rfl, rfl, rfl⟩

theorem btxChecks_pass_iff (s : State) :
    firstError s.btxChecks = none ↔ s.cfg.srcLen ≠ 0 ∧ s.regionOut = false := by
  rw [firstError_eq_find]
  simp [State.btxChecks]

theorem reset_consistent (s : State) : Consistent s.resetBlock := by
  have hvalid : s.resetBlock.pktStatus.getLsbD 4 = false := BitVec.getLsbD_zero
  have hpre : s.resetBlock.pktStatus.getLsbD 0 = false := BitVec.getLsbD_zero
  have hregs : s.resetBlock.regsLegal = true :=
    (regsLegal_iff _).2 ⟨Nat.zero_le _, .inl rfl, by rw [hvalid, hpre]; rfl, Nat.zero_le _⟩
  exact ⟨cleared_safe s.rx, cleared_safe s.tx, hregs, rfl⟩

section
variable {s : State} (h : Consistent s)
include h

/-- While the engine rests, a command may end with any code. -/
theorem Consistent.raise (hrest : s.bt.atRest = true) (code : ErrCode) : Consistent (s.raise code) :=
  ⟨h.rx, h.tx, h.regs, hrest⟩

theorem Consistent.checked {done : State} (hrest : s.bt.atRest = true) (checks : List (Bool × ErrCode))
    (hd : firstError checks = none → Consistent done) : Consistent (s.checked checks done) := by
  rcases s.checked_cases done checks with ⟨hpass, heq⟩ | ⟨code, _, heq⟩ <;> rw [heq]
  · exact hd hpass
  · exact h.raise hrest code

theorem Consistent.atRest_of_ne_btx {i : Instr} {p : Progress} (hs : s.seq = .run (encode i) p) (hi : i ≠ .btx) :
    s.bt.atRest = true := by
  rcases (lastCmd_and_atRest h.seq hs).2 with hrest | ⟨-, hbtx⟩
  · exact hrest
  · exact absurd (encode_injective hbtx) hi

theorem oneStep_consistent {t : State} {i : Instr} (hrest : s.bt.atRest = true) (hm : multiStep i = false)
    (hexec : exec i s = .next t) : Consistent t := by
  have hregs := exec_regsLegal h.regs hm hexec
  obtain ⟨u, warns, hu, heq⟩ := exec_oneStep_complete s hm
  rw [heq] at hexec
  cases hexec
  rw [hu] at hregs ⊢
  exact ⟨h.rx, h.tx, hregs, hrest⟩

/-- A streaming command: the bytes still to push stay an end of its sequence. -/
theorem stream_consistent {i : Instr} {p : Progress} {bytes : List Byte} {finish : State → State}
    (hs : s.seq = .run (encode i) p) (hi : encode i ∈ streamWords) (hne : i ≠ .btx) (checks : List (Bool × ErrCode))
    (hbytes : s.streamBytes (encode i) = bytes) (hfinish : finish s = { s with crc32Res := (finish s).crc32Res }) :
    Consistent (s.stream i checks bytes finish) := by
  have hrest := h.atRest_of_ne_btx hs hne
  obtain ⟨hlast, -⟩ := lastCmd_and_atRest h.seq hs
  have hp := State.progress_of_run hs
  have hstart : Consistent (s.withProgress i (.push bytes)) := by
    rw [State.withProgress_of_run i _ hs]
    exact ⟨h.rx, h.tx, h.regs, (seqOk_push rfl).2 ⟨hlast, hrest, hi, hbytes ▸ List.suffix_refl _⟩⟩
  cases p with
  | start => rw [State.stream_start (.inl hp)]; exact h.checked hrest _ fun _ => hstart
  | engine => rw [State.stream_start (.inr hp)]; exact h.checked hrest _ fun _ => hstart
  | push rest =>
    cases rest with
    | nil =>
      rw [State.stream_done hp, hfinish]
      exact ⟨h.rx, h.tx, h.regs, hrest⟩
    | cons b rest =>
      obtain ⟨-, -, -, hsuffix⟩ := (seqOk_push hs).1 h.seq
      rw [State.stream_push hp]
      split_ifs with hfull
      · exact h
      · rw [State.withProgress_of_run (s := s.pushTx b) i _ hs]
        exact ⟨h.rx, push_safe b h.tx (Bool.not_eq_true _ ▸ hfull), h.regs,
          (seqOk_push rfl).2 ⟨hlast, hrest, hi, (List.suffix_cons b rest).trans hsuffix⟩⟩

/-- The start step of a BTX whose checks pass sets its engine to await the receiver (R445). -/
theorem btxStart_consistent {p : Progress} (hs : s.seq = .run (encode .btx) p)
    (hpass : firstError s.btxChecks = none) : Consistent s.btxStart := by
  obtain ⟨hlast, -⟩ := lastCmd_and_atRest h.seq hs
  obtain ⟨hlen, hregion⟩ := (btxChecks_pass_iff s).1 hpass
  have hblocks : BlocksOk s.btxStart :=
    ⟨hregion, hlen, rfl, Nat.zero_le _, rfl, BitVec.le_def.2 (Nat.zero_le _)⟩
  have hseq : s.btxStart.seq = .run (encode .btx) .engine := congrArg (SeqState.run · .engine) (s.cmdWord_of_run _ hs)
  exact ⟨h.rx, h.tx, regsLegal_withBlocksAcked h.regs (Nat.zero_le _),
    (seqOk_engine hseq).2 ⟨hlast, rfl, hblocks, rfl⟩⟩

theorem btx_consistent {t : State} {p : Progress} (hs : s.seq = .run (encode .btx) p)
    (hexec : exec .btx s = .next t) : Consistent t := by
  have hp := State.progress_of_run hs
  rw [exec, execBtx, hp] at hexec
  have hrest := (lastCmd_and_atRest h.seq hs).2
  cases p with
  | start | push =>
    cases hexec
    exact h.checked (hrest.resolve_right nofun) _ (btxStart_consistent h hs)
  | engine =>
    obtain ⟨hruns, hok⟩ := h.btxRuns hs
    cases hexec
    exact btEngineStep_consistent hruns hok

theorem exec_consistent {t : State} {i : Instr} {p : Progress} (hs : s.seq = .run (encode i) p)
    (hexec : exec i s = .next t) : Consistent t := by
  obtain ⟨hregion, hhalfwords, hpacket⟩ := streamBytes_encode s
  cases hm : multiStep i with
  | false =>
    have hne : i ≠ .btx := by rintro rfl; cases hm
    exact oneStep_consistent h (h.atRest_of_ne_btx hs hne) hm hexec
  | true =>
    cases i with
    | sendB => cases hexec; exact stream_consistent h hs (by decide) nofun _ hregion rfl
    | sendH => cases hexec; exact stream_consistent h hs (by decide) nofun _ hhalfwords rfl
    | pktBld => cases hexec; exact stream_consistent h hs (by decide) nofun _ hpacket rfl
    | btx => exact btx_consistent h hs hexec
    | _ => exact absurd hm (by decide)

theorem seqStep_consistent {t : State} (hstep : s.seqStep = .next t) : Consistent t := by
  cases hs : s.seq with
  | idle => rw [State.seqStep_idle hs] at hstep; cases hstep; exact h
  | run w p =>
    cases hd : decodeBytes (wordBytes w) with
    | ok i =>
      obtain rfl : w = encode i := decodeWord_eq_ok_iff.1 (decodeBytes_wordBytes w ▸ hd)
      exact exec_consistent h hs (State.seqStep_run hs hd ▸ hstep)
    | error e =>
      rw [State.seqStep_illegal hs hd] at hstep
      cases hstep
      rcases (lastCmd_and_atRest h.seq hs).2 with hrest | ⟨-, rfl⟩
      · exact h.raise hrest _
      · cases hd

/-! ### HOST -/

theorem accept_consistent (w : Word) (hidle : s.seq = .idle) : Consistent (s.accept w) :=
  ⟨h.rx, h.tx, h.regs, (seqOk_start rfl).2 ⟨rfl, seqOk_idle hidle ▸ h.seq⟩⟩

/-- In IDLE the operands are free to change. -/
theorem withOperands_consistent (hidle : s.seq = .idle) (c : Cfg) (m : Memory) :
    Consistent { s with cfg := c, scr := m } := by
  have hrest : s.bt.atRest = true := seqOk_idle hidle ▸ h.seq
  exact ⟨h.rx, h.tx, h.regs, (seqOk_idle (s := { s with cfg := c, scr := m }) hidle).trans hrest⟩

theorem written_tag_consistent (v : Word) : Consistent { s with tag := s.tag.written v } :=
  ⟨h.rx, h.tx, regsLegal_of_tag h.regs (clipped_count_le _) rfl rfl rfl, h.seq⟩

/-- A cancel can be requested in the engine's states 1 to 5 only, and their conditions do not speak of it (R446). -/
theorem cancel_consistent (hc : s.cancellable = true) :
    Consistent { s with bt := { s.bt with cancelReq := true } } := by
  obtain ⟨⟨p, hs⟩, hlow, hhigh⟩ := (cancellable_iff s).1 hc
  have hmoving : s.bt.state ≠ .idle ∧ s.bt.state ≠ .complete ∧ s.bt.state ≠ .aborted := by
    refine ⟨fun hst => ?_, fun hst => ?_, fun hst => ?_⟩
    · rw [hst] at hlow; exact absurd hlow (by decide)
    · rw [hst] at hhigh; exact absurd hhigh (by decide)
    · rw [hst] at hhigh; exact absurd hhigh (by decide)
  have hnotRest : ¬ s.bt.atRest = true := fun hrest => by
    obtain ⟨hst, -⟩ := (atRest_iff _).1 hrest
    tauto
  obtain ⟨rfl, -⟩ := (lastCmd_and_atRest h.seq hs).2.resolve_left hnotRest
  obtain ⟨hruns, hok⟩ := h.btxRuns hs
  refine (hruns.withEngine (e := { s.bt with cancelReq := true }) rfl rfl hruns.blocks.retries).consistent ?_
  cases hst : s.bt.state with
  | idle | complete | aborted => tauto
  | _ => simp only [State.engineStateOk, hst] at hok ⊢; exact hok

/-- A register write that is performed. -/
theorem regStore_consistent (v : Word) {r : Reg} (hr : s.seq = .idle ∨ r.busyGuarded = false) :
    Consistent (s.regStore v r) := by
  cases r with
  | ctrl =>
    show Consistent (s.writeCtrl v)
    unfold State.writeCtrl
    split_ifs with hreset hcancel
    · exact reset_consistent s
    · exact cancel_consistent h (Bool.and_eq_true_iff.1 hcancel).2
    · exact h
  | cmd =>
    show Consistent (s.writeCmd v)
    by_cases hidle : s.seq = .idle
    · rw [writeCmd_idle v hidle]; exact accept_consistent h v hidle
    · rw [writeCmd_busy v hidle]; exact ⟨h.rx, h.tx, h.regs, h.seq⟩
  | events | irqEn | warn => exact ⟨h.rx, h.tx, h.regs, h.seq⟩
  | scrTag => exact written_tag_consistent h v
  | txData =>
    show Consistent (s.writeTxData v)
    cases hfull : s.tx.seesFull with
    | true => rw [writeTxData_full v hfull]; exact ⟨h.rx, h.tx, h.regs, h.seq⟩
    | false => rw [writeTxData_room v hfull]; exact ⟨h.rx, push_safe _ h.tx hfull, h.regs, h.seq⟩
  | id | status | errCode | fftLen | crc32Res | crc16Res | pktStatus | btResult | tick | rxData =>
    rw [regStore_readOnly s v (by decide)]
    exact h
  | _ => exact withOperands_consistent h (hr.resolve_right nofun) _ s.scr

theorem regWrite_consistent (v : Word) (r : Reg) : Consistent (s.regWrite v r) := by
  by_cases hr : s.seq = .idle ∨ r.busyGuarded = false
  · rw [State.regWrite_open v hr]; exact regStore_consistent h v hr
  · obtain ⟨hbusy, hguarded⟩ := not_or.1 hr
    rw [State.regWrite_guarded v hbusy (Bool.not_eq_false _ ▸ hguarded)]
    exact ⟨h.rx, h.tx, h.regs, h.seq⟩

theorem memWrite_consistent (a : BitVec 16) (n : AccSize) (v : Word) : Consistent (s.memWrite a n v) := by
  unfold State.memWrite
  split_ifs with hbad hlow hbusy
  · exact ⟨h.rx, h.tx, h.regs, h.seq⟩
  · split
    case h_1 => exact ⟨h.rx, h.tx, h.regs, h.seq⟩
    case h_2 r _ =>
      obtain ⟨hrx, htx, hregs, hseq⟩ := regWrite_consistent h v r
      exact ⟨hrx, htx, hregs, hseq⟩
  · exact ⟨h.rx, h.tx, h.regs, h.seq⟩
  · have hidle : s.seq = .idle := (State.busy_eq_false_iff s).1 (Bool.not_eq_true _ ▸ hbusy)
    obtain ⟨hrx, htx, hregs, hseq⟩ :=
      withOperands_consistent h hidle s.cfg (s.scr.write (a.toNat - 0x8000) (lowBytes n v))
    exact ⟨hrx, htx, hregs, hseq⟩

theorem memRead_consistent (a : BitVec 16) (n : AccSize) : Consistent (s.memRead a n) := by
  obtain ⟨hframe, hrx⟩ := s.memRead_frame a n
  have hsafe : (s.memRead a n).rx.safe = true := by
    rcases hrx with heq | ⟨heq, -, hbyte⟩ <;> rw [heq]
    · exact h.rx
    · exact pop_safe h.rx hbyte
  rw [hframe]
  exact ⟨hsafe, h.tx, h.regs, h.seq⟩

/-! ### Every agent -/

theorem srxStep_consistent (b : Byte) : Consistent (s.srxStep b) := by
  cases hfull : s.rx.seesFull with
  | true => rw [srxStep_full b hfull]; exact ⟨h.rx, h.tx, h.regs, h.seq⟩
  | false => rw [srxStep_room b hfull]; exact ⟨push_safe b h.rx hfull, h.tx, h.regs, h.seq⟩

theorem stxStep_consistent : Consistent s.stxStep := by
  cases hempty : s.tx.seesEmpty with
  | true => rw [stxStep_empty hempty]; exact h
  | false => rw [stxStep_byte hempty]; exact ⟨h.rx, pop_safe h.tx hempty, h.regs, h.seq⟩

theorem syncStep_consistent (k : SyncKind) : Consistent (s.syncStep k) := by
  cases k with
  | rxW => exact ⟨syncW_safe h.rx, h.tx, h.regs, h.seq⟩
  | rxR => exact ⟨syncR_safe h.rx, h.tx, h.regs, h.seq⟩
  | txW => exact ⟨h.rx, syncW_safe h.tx, h.regs, h.seq⟩
  | txR => exact ⟨h.rx, syncR_safe h.tx, h.regs, h.seq⟩

theorem agentStep_consistent {t : State} (a : AgentStep) (hstep : s.agentStep a = .next t) : Consistent t := by
  cases a with
  | host a =>
    cases hstep
    cases a with
    | read a n => exact memRead_consistent h a n
    | write a n v => exact memWrite_consistent h a n v
  | seq => exact seqStep_consistent h hstep
  | srx b => cases hstep; exact srxStep_consistent h b
  | stx => cases hstep; exact stxStep_consistent h
  | sync k => cases hstep; exact syncStep_consistent h k
  | tick => cases hstep; exact ⟨h.rx, h.tx, h.regs, h.seq⟩
  | resetInput => cases hstep; exact reset_consistent s

theorem step_consistent {t : State} (hstep : step s = .next t) : Consistent t := by
  unfold step State.machineStep at hstep
  split at hstep
  · exact seqStep_consistent h hstep
  · rename_i rest _
    exact agentStep_consistent (s := { s with inputs := rest }) ⟨h.rx, h.tx, h.regs, h.seq⟩ _ hstep

end

/-- Settles O57: the memory by its own invariant, the rest by the step of the agent that the schedule names. -/
theorem safetyIsInvariant : Obligations.SafetyIsInvariant := by
  intro s t hs hstep
  obtain ⟨hmem, h⟩ := (safe_iff s).1 hs
  exact (safe_iff t).2 ⟨memoryStaysCanonical s t hmem hstep, step_consistent h hstep⟩

end Sys2Proof.Proofs
end

section
/-! The checksums: the step of either CRC loses nothing of its register, nor of the byte it takes in, so that sequences
which differ in one byte have different checksums (spec/45_transport.md R401 to R406). -/

namespace Sys2Proof.Proofs

open Sys2Proof Sys2Proof.Machine

/-! ### One step of a CRC -/

/-- The bit shifted out comes back in bit 31, where the shifted register has a 0. -/
theorem crc32Bit_top (c : Word) : (crc32Bit c).getLsbD 31 = c.getLsbD 0 := by
  have hshift : (c >>> 1).getLsbD 31 = false := by simp
  unfold crc32Bit
  split_ifs with h
  · rw [BitVec.getLsbD_xor, hshift, h]; rfl
  · rw [hshift, Bool.eq_false_iff.2 h]

theorem crc32Bit_injective : Function.Injective crc32Bit := by
  intro c d h
  have hlow : c.getLsbD 0 = d.getLsbD 0 := by rw [← crc32Bit_top, ← crc32Bit_top, h]
  have hshift : c >>> 1 = d >>> 1 := by
    unfold crc32Bit at h
    rw [hlow] at h
    split_ifs at h
    · exact (BitVec.xor_left_inj _).1 h
    · exact h
  refine BitVec.eq_of_getLsbD_eq fun i _ => ?_
  cases i with
  | zero => exact hlow
  | succ i => simpa [Nat.add_comm] using congrArg (·.getLsbD i) hshift

/-- The bit shifted out comes back in bit 0, where the shifted register has a 0. -/
theorem crc16Bit_bottom (c : BitVec 16) : (crc16Bit c).getLsbD 0 = c.getLsbD 15 := by
  have hshift : (c <<< 1).getLsbD 0 = false := by simp
  unfold crc16Bit
  split_ifs with h
  · rw [BitVec.getLsbD_xor, hshift, h]; rfl
  · rw [hshift, Bool.eq_false_iff.2 h]

theorem crc16Bit_injective : Function.Injective crc16Bit := by
  intro c d h
  have hhigh : c.getLsbD 15 = d.getLsbD 15 := by rw [← crc16Bit_bottom, ← crc16Bit_bottom, h]
  have hshift : c <<< 1 = d <<< 1 := by
    unfold crc16Bit at h
    rw [hhigh] at h
    split_ifs at h
    · exact (BitVec.xor_left_inj _).1 h
    · exact h
  refine BitVec.eq_of_getElem_eq fun i hi => ?_
  rcases Nat.lt_succ_iff_lt_or_eq.1 hi with hlt | rfl
  · have hin : i + 1 < 16 := Nat.succ_lt_succ hlt
    simpa [hin] using congrArg (·.getLsbD (i + 1)) hshift
  · simpa using hhigh

/-! A byte's step is eight bit steps after an XOR with the byte. -/

theorem crc32Byte_left_injective (b : Byte) : Function.Injective (crc32Byte · b) := fun _ _ h =>
  (BitVec.xor_left_inj _).1 (crc32Bit_injective.iterate 8 h)

theorem crc16Byte_left_injective (b : Byte) : Function.Injective (crc16Byte · b) := fun _ _ h =>
  (BitVec.xor_left_inj _).1 (crc16Bit_injective.iterate 8 h)

theorem crc32Byte_right_injective (c : Word) : Function.Injective (crc32Byte c) := by
  intro b d h
  have hwide := (BitVec.xor_right_inj _).1 (crc32Bit_injective.iterate 8 h)
  simpa using congrArg (·.setWidth 8) hwide

theorem crc16Byte_right_injective (c : BitVec 16) : Function.Injective (crc16Byte c) := by
  have hplace : ∀ b : Byte, (b.setWidth 16 <<< 8).extractLsb' 8 8 = b := by decide
  intro b d h
  have hwide := (BitVec.xor_right_inj _).1 (crc16Bit_injective.iterate 8 h)
  rw [← hplace b, ← hplace d, hwide]

/-! ### Sequences -/

/-- A fold whose step is injective in both arguments tells apart sequences that differ in one element. -/
theorem foldl_ne_of_one_changed {α β : Type} {f : α → β → α} (hleft : ∀ b, Function.Injective (f · b))
    (hright : ∀ a, Function.Injective (f a)) (a : α) (pre post : List β) {b b' : β} (h : b ≠ b') :
    (pre ++ b :: post).foldl f a ≠ (pre ++ b' :: post).foldl f a := by
  have hpost : Function.Injective fun c => post.foldl f c := by
    induction post with
    | nil => exact Function.injective_id
    | cons x post ih => exact ih.comp (hleft x)
  rw [List.foldl_append, List.foldl_append]
  exact fun heq => h (hright _ (hpost heq))

/-- Settles O31: each byte's step is injective in the register and in the byte. -/
theorem crcDetectsOneChangedByte : Obligations.CrcDetectsOneChangedByte := fun pre post _ _ h =>
  ⟨foldl_ne_of_one_changed crc16Byte_left_injective crc16Byte_right_injective _ pre post h,
    fun heq => foldl_ne_of_one_changed crc32Byte_left_injective crc32Byte_right_injective _ pre post h
      ((BitVec.xor_left_inj _).1 heq)⟩

/-- Settles O30, by running both engines. -/
theorem crcCheckValues : Obligations.CrcCheckValues := by
  unfold Obligations.CrcCheckValues
  decide +kernel

/-! ### The commands -/

/-- A region in SCR passes the region check (R400). -/
theorem regionOut_eq_false {s : State} (h : s.cfg.srcAddr.toNat + s.cfg.srcLen.toNat ≤ 32768) :
    s.regionOut = false := by
  rw [← Bool.not_eq_true, s.regionOut_iff]
  omega

/-- Settles O32: the region check passes, and the command succeeds with its result register written. -/
theorem crcCommandsResult : Obligations.CrcCommandsResult := by
  intro s h
  have hpass : firstError [(s.regionOut, .range)] = none := by rw [regionOut_eq_false h]; rfl
  constructor
  · rw [exec, execCrc32, State.checked_of_none hpass, State.succeed_eq]; rfl
  · rw [exec, execCrc16, State.checked_of_none hpass, State.succeed_eq]; rfl

end Sys2Proof.Proofs
end

section
/-! Packets: the builder's bytes are those of the rule, and PKTCHK's status bits are its conditions one by one, so that
a change to a built packet shows in the bits it should (spec/45_transport.md R420 to R424, R442). -/

namespace Sys2Proof.Proofs

open Sys2Proof Sys2Proof.Machine

/-! ### The built packet -/

theorem complement_eq_sub : ∀ id : Byte, id ^^^ 0xFF = 255#8 - id := by decide

theorem complement_iff : ∀ c id : Byte, c = id ^^^ 0xFF ↔ c.toNat = 255 - id.toNat := by
  intro c id
  rw [complement_eq_sub]
  constructor <;> intro h <;> bv_omega

/-- The two bytes of a 16-bit value, the high one first, as digits of its number. -/
theorem crc16_digits (c : BitVec 16) :
    c.extractLsb' 8 8 = BitVec.ofNat 8 (c.toNat / 256) ∧ c.extractLsb' 0 8 = BitVec.ofNat 8 (c.toNat % 256) := by
  constructor <;> apply BitVec.eq_of_toNat_eq <;> simp [Nat.shiftRight_eq_div_pow]

theorem packet_eq_specPacket (s : State) (id : Byte) (pay : List Byte) :
    s.packet id pay = specPacket s.cfg.preamble id pay := by
  obtain ⟨hhigh, hlow⟩ := crc16_digits (crc16 pay)
  rw [State.packet, specPacket, hhigh, hlow, complement_eq_sub]

theorem payload_eq_specPayload (s : State) (k : Nat) :
    s.payload (s.cfg.srcAddr.toNat + 128 * k) (s.cfg.srcLen.toNat - 128 * k) = specPayload s k := by
  unfold State.payload specPayload
  refine List.map_congr_left fun i _ => ?_
  rw [Nat.add_assoc]
  exact if_congr (by omega) rfl rfl

theorem blockPacket_eq_specBlock (s : State) (k : Nat) : s.blockPacket k = specBlock s k := by
  rw [specBlock, ← payload_eq_specPayload, ← packet_eq_specPacket]
  rfl

theorem specPayload_length (s : State) (k : Nat) : (specPayload s k).length = 128 := by simp [specPayload]

theorem specPacket_length (pre id : Byte) {pay : List Byte} (h : pay.length = 128) :
    (specPacket pre id pay).length = 133 := by simp [specPacket, h]

/-! ### The status bits -/

/-- PKT_STATUS made of its four conditions, VALID their AND (spec/10_state.md R67). -/
def statusBits (pre sq cmp crc : Bool) : BitVec 5 :=
  BitVec.ofBool (pre && sq && cmp && crc) ++ BitVec.ofBool crc ++ BitVec.ofBool cmp ++ BitVec.ofBool sq
    ++ BitVec.ofBool pre

theorem pktStatusOf_eq (preamble id : Byte) (p : List Byte) :
    pktStatusOf preamble id p = statusBits (p.getD 0 0 == preamble) (p.getD 1 0 == id)
      (p.getD 2 0 == p.getD 1 0 ^^^ 0xFF)
      (p.getD 131 0 ++ p.getD 132 0 == crc16 ((p.drop 3).take Config.pktPayload)) := rfl

theorem statusBits_getLsbD : ∀ pre sq cmp crc : Bool, (statusBits pre sq cmp crc).getLsbD 0 = pre
    ∧ (statusBits pre sq cmp crc).getLsbD 1 = sq ∧ (statusBits pre sq cmp crc).getLsbD 2 = cmp
    ∧ (statusBits pre sq cmp crc).getLsbD 3 = crc
    ∧ (statusBits pre sq cmp crc).getLsbD 4 = (pre && sq && cmp && crc) := by decide

/-- A number of two bytes, the high one first. -/
theorem append_eq_iff_toNat (h l : Byte) (c : BitVec 16) : h ++ l = c ↔ h.toNat * 256 + l.toNat = c.toNat := by
  rw [← BitVec.toNat_inj, toNat_append_fields]; rfl

/-- The status of a packet in its fields. -/
theorem pktStatusOf_fields (preamble e pre id cmp high low : Byte) {pay : List Byte} (h : pay.length = 128) :
    pktStatusOf preamble e ([pre, id, cmp] ++ pay ++ [high, low])
      = statusBits (pre == preamble) (id == e) (cmp == id ^^^ 0xFF) (high ++ low == crc16 pay) := by
  rw [pktStatusOf_eq]
  simp [h, Config.pktPayload]

/-! ### PKTCHK -/

section
variable (m : Memory) (base : Nat)

theorem bytes_getD {n j : Nat} (h : j < n) : (m.bytes base n).getD j 0 = m.read (base + j) := by
  simp [Memory.bytes, h]

theorem bytes_drop_take {n i k : Nat} (h : i + k ≤ n) :
    ((m.bytes base n).drop i).take k = (List.range k).map fun j => m.read (base + (i + j)) := by
  refine List.ext_getElem ?_ fun j _ _ => ?_
  · simp [Memory.bytes]; omega
  · simp [Memory.bytes]

end

theorem pktChk_pass {s : State} (h : s.cfg.srcAddr.toNat + 133 ≤ 32768) :
    firstError [(decide (Config.scrBytes < s.cfg.srcAddr.toNat + Config.pktBytes), ErrCode.range)] = none := by
  have hin : ¬ Config.scrBytes < s.cfg.srcAddr.toNat + Config.pktBytes := Nat.not_lt.2 h
  rw [decide_eq_false hin]; rfl

/-- The status of 133 bytes of SCR. -/
theorem pktStatusOf_bytes (m : Memory) (base : Nat) (preamble id : Byte) :
    pktStatusOf preamble id (m.bytes base 133)
      = statusBits (m.read (base + 0) == preamble) (m.read (base + 1) == id)
          (m.read (base + 2) == m.read (base + 1) ^^^ 0xFF)
          (m.read (base + 131) ++ m.read (base + 132)
            == crc16 ((List.range 128).map fun j => m.read (base + (3 + j)))) := by
  rw [pktStatusOf_eq, bytes_getD _ _ (by decide), bytes_getD _ _ (by decide), bytes_getD _ _ (by decide),
    bytes_getD _ _ (by decide), bytes_getD _ _ (by decide), bytes_drop_take _ _ (by decide)]
  rfl

/-- Settles O36: the conditions of the status bits, each read as R421 says it. -/
theorem pktChkResult : Obligations.PktChkResult := by
  intro s h p pre seq cmp crc
  refine ⟨_, by rw [exec, execPktChk, State.checked_of_none (pktChk_pass h), State.succeed_eq], ?_⟩
  have hstatus := pktStatusOf_bytes s.scr s.cfg.srcAddr.toNat s.cfg.preamble s.cfg.pktSeq
  obtain ⟨h0, h1, h2, h3, h4⟩ := statusBits_getLsbD (p 0 == s.cfg.preamble) (p 1 == s.cfg.pktSeq)
    (p 2 == p 1 ^^^ 0xFF) (p 131 ++ p 132 == crc16 ((List.range 128).map fun j => p (3 + j)))
  have hcmp : cmp ↔ p 2 = p 1 ^^^ 0xFF := (complement_iff _ _).symm
  have hcrc : crc ↔ p 131 ++ p 132 = crc16 ((List.range 128).map fun j => p (3 + j)) :=
    (append_eq_iff_toNat _ _ _).symm
  rw [← hstatus] at h0 h1 h2 h3 h4
  have bit_iff {x y : Bool} {q : Prop} (hx : x = y) (hy : y = true ↔ q) : x = true ↔ q := hx ▸ hy
  refine ⟨bit_iff h0 beq_iff_eq, bit_iff h1 beq_iff_eq, bit_iff h2 (beq_iff_eq.trans hcmp.symm),
    bit_iff h3 (beq_iff_eq.trans hcrc.symm), bit_iff h4 ?_, rfl⟩
  rw [hcmp, hcrc]
  simp only [Bool.and_eq_true, beq_iff_eq, and_assoc]
  rfl

/-! ### Built and corrupted packets -/

/-- The trailing field of a built packet is the CRC of its payload. -/
theorem specPacket_eq_fields (pre id : Byte) (pay : List Byte) : ∃ high low, high ++ low = crc16 pay
    ∧ specPacket pre id pay = [pre, id, id ^^^ 0xFF] ++ pay ++ [high, low] := by
  refine ⟨_, _, ?_, by rw [complement_eq_sub]; rfl⟩
  rw [append_eq_iff_toNat, BitVec.toNat_ofNat, BitVec.toNat_ofNat]
  omega

/-- Settles O37, from the fields of the built packet. -/
theorem builtPacketIsValid : Obligations.BuiltPacketIsValid := by
  intro pre id e pay hlen
  obtain ⟨high, low, hcrc, hpacket⟩ := specPacket_eq_fields pre id pay
  refine ⟨specPacket_length pre id hlen, ?own, fun hne => ?other⟩ <;>
    rw [hpacket, pktStatusOf_fields _ _ _ _ _ _ _ hlen, hcrc, beq_self_eq_true, beq_self_eq_true, beq_self_eq_true]
  case own => rw [beq_self_eq_true]; rfl
  case other => rw [beq_false_of_ne hne.symm]; rfl

/-- A payload with one byte replaced by another has another CRC (R404). -/
theorem crc16_set_ne {pay : List Byte} {k : Nat} {b : Byte} (hk : k < pay.length) (hne : pay[k]? ≠ some b) :
    crc16 (pay.set k b) ≠ crc16 pay := by
  have hchanged : b ≠ pay[k] := by
    rintro rfl
    exact hne (List.getElem?_eq_getElem hk)
  rw [List.set_eq_take_append_cons_drop, if_pos hk]
  conv_rhs => rw [← List.take_append_drop k pay, List.drop_eq_getElem_cons hk]
  exact (crcDetectsOneChangedByte _ _ _ _ hchanged).1

/-- Settles O38, from the fields of the corrupted packet. -/
theorem corruptedPacketIsInvalid : Obligations.CorruptedPacketIsInvalid := by
  intro pre id b pay k hlen
  obtain ⟨high, low, hcrc, hpacket⟩ := specPacket_eq_fields pre id pay
  refine ⟨fun hk hne => ?payload, fun hne => ?complement⟩
  case payload =>
    have hset : (specPacket pre id pay).set (3 + k) b = [pre, id, id ^^^ 0xFF] ++ pay.set k b ++ [high, low] := by
      rw [hpacket, List.append_assoc, List.append_assoc, List.set_append_right _ _ (Nat.le_add_right 3 k),
        List.set_append_left]
      · congr 3; simp
      · simpa [hlen] using hk
    have hbad : (high ++ low == crc16 (pay.set k b)) = false := by
      rw [hcrc]
      exact beq_false_of_ne (crc16_set_ne (hlen ▸ hk) hne).symm
    rw [hset, pktStatusOf_fields _ _ _ _ _ _ _ (by rw [List.length_set, hlen]), hbad, beq_self_eq_true,
      beq_self_eq_true, beq_self_eq_true]
    rfl
  case complement =>
    have hset : (specPacket pre id pay).set 2 b = [pre, id, b] ++ pay ++ [high, low] := by rw [hpacket]; rfl
    have hbad : (b == id ^^^ 0xFF) = false := beq_false_of_ne (by rw [complement_eq_sub]; exact hne)
    rw [hset, pktStatusOf_fields _ _ _ _ _ _ _ hlen, hbad, hcrc, beq_self_eq_true, beq_self_eq_true,
      beq_self_eq_true]
    rfl

end Sys2Proof.Proofs
end

section
/-! The streaming commands SEND.B, SEND.H and PKTBLD: their steps, the bytes that no step of any agent loses, repeats or
reorders (spec/45_transport.md R407 to R411, R423). -/

namespace Sys2Proof.Proofs

open Sys2Proof Sys2Proof.Machine

/-! ### The sequence of each command -/

/-- The low halfword of a word, from the word's bytes (R408). -/
theorem word_low_bytes (m : Memory) (i : Nat) :
    (m.word i).extractLsb' 0 8 = m.read (4 * i) ∧ (m.word i).extractLsb' 8 8 = m.read (4 * i + 1) := by
  have hbytes := wordBytes_bytesWord (m.read (4 * i)) (m.read (4 * i + 1)) (m.read (4 * i + 2)) (m.read (4 * i + 3))
  simp only [wordBytes, List.cons.injEq] at hbytes
  exact ⟨hbytes.1, hbytes.2.1⟩

theorem halfwords_eq_specHalfwords {s : State} (h : s.cfg.srcAddr.toNat % 4 = 0) : s.halfwords = specHalfwords s := by
  unfold State.halfwords specHalfwords
  refine List.flatMap_congr fun i _ => ?_
  obtain ⟨hlow, hhigh⟩ := word_low_bytes s.scr (s.cfg.srcAddr.toNat / 4 + i)
  have haddr : 4 * (s.cfg.srcAddr.toNat / 4 + i) = s.cfg.srcAddr.toNat + 4 * i := by omega
  simp only [hlow, hhigh, haddr]

theorem aligned_of_sendH_passes {s : State} (h : specError .sendH s = none) : s.cfg.srcAddr.toNat % 4 = 0 := by
  simp [specError, specChecks] at h
  exact h.1

/-- The commands that stream a byte sequence. -/
def IsStream (i : Instr) : Prop := i = .sendB ∨ i = .sendH ∨ i = .pktBld

theorem isStream_of_mem {w : Word} {i : Instr}
    (h : (w, i) ∈ [(0x00000008#32, Instr.sendB), (0x00000108#32, .sendH), (0x0000000A#32, .pktBld)]) :
    IsStream i ∧ w = encode i := by
  simp only [List.mem_cons, List.not_mem_nil, or_false, Prod.mk.injEq] at h
  rcases h with ⟨rfl, rfl⟩ | ⟨rfl, rfl⟩ | ⟨rfl, rfl⟩
  · exact ⟨.inl rfl, rfl⟩
  · exact ⟨.inr (.inl rfl), rfl⟩
  · exact ⟨.inr (.inr rfl), rfl⟩

/-- A streaming command is a stream of its sequence, with its checks and its result. -/
theorem exec_stream {i : Instr} (hi : IsStream i) (s : State) :
    ∃ bytes finish, exec i s = .next (s.stream i (specChecks i s) bytes finish)
      ∧ (specError i s = none → bytes = specStream i s ∧ finish s = { s with crc32Res := specStreamResult i s })
      ∧ finish s = { s with crc32Res := (finish s).crc32Res } := by
  rcases hi with rfl | rfl | rfl
  · rw [← s.regionChecks_eq (.inr (.inr rfl))]
    exact ⟨_, _, rfl, fun _ => ⟨rfl, rfl⟩, rfl⟩
  · rw [← s.sendHChecks_eq]
    refine ⟨_, _, rfl, fun hpass => ?_, rfl⟩
    have hbytes := halfwords_eq_specHalfwords (aligned_of_sendH_passes hpass)
    exact ⟨hbytes, by rw [hbytes]; rfl⟩
  · rw [← s.pktBldChecks_eq]
    refine ⟨_, _, rfl, fun _ => ⟨?_, rfl⟩, rfl⟩
    rw [packet_eq_specPacket]
    exact congrArg _ (payload_eq_specPayload s 0)

/-! ### The steps -/

section
variable {i : Instr} {w : Word} {s : State} (hi : IsStream i)
include hi

theorem exec_stream_start (hs : s.seq = .run w .start) (hpass : specError i s = none) :
    exec i s = .next { s with seq := .run w (.push (specStream i s)) } := by
  obtain ⟨bytes, finish, hexec, hspec, -⟩ := exec_stream hi s
  rw [hexec, State.stream_start (.inl (State.progress_of_run hs)),
    State.checked_of_none ((firstError_eq_specError rfl).trans hpass), State.withProgress_of_run i _ hs,
    (hspec hpass).1]

theorem exec_stream_push {b : Byte} {rest : List Byte} (hs : s.seq = .run w (.push (b :: rest)))
    (hroom : s.tx.seesFull = false) :
    exec i s = .next { s with tx := s.tx.push b, seq := .run w (.push rest) } := by
  obtain ⟨bytes, finish, hexec, -⟩ := exec_stream hi s
  rw [hexec, State.stream_push (State.progress_of_run hs), if_neg (Bool.eq_false_iff.1 hroom),
    State.withProgress_of_run (s := s.pushTx b) i _ hs]
  rfl

theorem exec_stream_wait {b : Byte} {rest : List Byte} (hs : s.seq = .run w (.push (b :: rest)))
    (hfull : s.tx.seesFull = true) : exec i s = .next s := by
  obtain ⟨bytes, finish, hexec, -⟩ := exec_stream hi s
  rw [hexec, State.stream_push (State.progress_of_run hs), if_pos hfull]

/-- The last step, whatever the checks would now say. -/
theorem exec_stream_end (hs : s.seq = .run w (.push [])) :
    ∃ r, exec i s = .next { s.finished 0 with crc32Res := r } := by
  obtain ⟨bytes, finish, hexec, -, hframe⟩ := exec_stream hi s
  refine ⟨(finish s).crc32Res, ?_⟩
  rw [hexec, State.stream_done (State.progress_of_run hs), hframe, State.succeed_eq]
  rfl

theorem exec_stream_done (hs : s.seq = .run w (.push [])) (hpass : specError i s = none) :
    exec i s = .next { s.finished 0 with crc32Res := specStreamResult i s } := by
  obtain ⟨bytes, finish, hexec, hspec, -⟩ := exec_stream hi s
  rw [hexec, State.stream_done (State.progress_of_run hs), (hspec hpass).2, State.succeed_eq]
  rfl

end

/-- Settles O33: a streaming command's step by its progress and by what the producer sees of the TX FIFO. -/
theorem streamingCommandSteps : Obligations.StreamingCommandSteps := by
  intro i w s hmem
  obtain ⟨hi, -⟩ := isStream_of_mem hmem
  refine ⟨exec_stream_start hi, fun b rest hs hroom => ?_, fun b rest hs hfull => ?_, exec_stream_done hi⟩
  · rw [exec_stream_push hi hs ((seesFull_eq_false_iff _).2 hroom), Fifo.push_eq_pushed]
  · exact exec_stream_wait hi hs (s.tx.seesFull_iff.2 hfull)

/-! ### Conservation -/

/-- `t` has streamed what `s` had, SEQSTATE and the TX side being the same. -/
structure TxKept (s t : State) : Prop where
  seq : t.seq = s.seq
  tx : t.tx = s.tx
  line : t.txLine = s.txLine

theorem TxKept.refl (s : State) : TxKept s s := ⟨rfl, rfl, rfl⟩

/-- CTRL's address is 4 alone (spec/10_state.md R42). -/
theorem regAt_eq_ctrl {a : Nat} (h4 : a % 4 = 0) (h : regAt a = some .ctrl) : a = 4 := by
  have hlow : ∀ k < 0x180, regAt (4 * k) = some .ctrl → k = 1 := by decide +kernel
  obtain ⟨k, rfl⟩ := Nat.dvd_of_mod_eq_zero h4
  refine congrArg (4 * ·) (hlow k ?_ h)
  by_contra hhigh
  rw [regAt_none (by omega)] at h
  cases h

/-- The only register access that resets is a word-sized write of 1 to bit 0 of CTRL's address (R551). -/
theorem ctrl_bit_of_not_reset {a : BitVec 16} {n : AccSize} {v : Word} (hl : a.toNat < 0x8000)
    (hlegal : legalAccess a n = true) (hreset : (AgentStep.host (.write a n v)).isReset = false)
    (hctrl : regAt a.toNat = some .ctrl) : v.getLsbD 0 = false := by
  rw [legalAccess, if_pos hl, Bool.and_eq_true, beq_iff_eq, beq_iff_eq] at hlegal
  obtain ⟨rfl, h4⟩ := hlegal
  obtain rfl : a = 4 := BitVec.eq_of_toNat_eq (regAt_eq_ctrl h4 hctrl)
  exact hreset

section
variable {s : State} (hbusy : s.seq ≠ .idle)
include hbusy

/-- While a command runs, no register write but a reset pushes or touches SEQSTATE (spec/44_fifo_cdc.md R372). -/
theorem regWrite_txKept (v : Word) {r : Reg} (h : r = .ctrl → v.getLsbD 0 = false) : TxKept s (s.regWrite v r) := by
  cases hr : r.busyGuarded with
  | true => rw [State.regWrite_guarded v hbusy hr]; exact ⟨rfl, rfl, rfl⟩
  | false =>
    rw [State.regWrite_open v (.inr hr)]
    cases r with
    | ctrl =>
      show TxKept s (s.writeCtrl v)
      unfold State.writeCtrl
      split_ifs with hreset
      · exact absurd (h rfl) (by rw [hreset]; decide)
      · exact ⟨rfl, rfl, rfl⟩
      · exact .refl s
    | cmd =>
      show TxKept s (s.writeCmd v)
      rw [writeCmd_busy v hbusy]
      exact ⟨rfl, rfl, rfl⟩
    | events | irqEn | warn => exact ⟨rfl, rfl, rfl⟩
    | id | status | errCode | fftLen | crc32Res | crc16Res | pktStatus | btResult | tick | rxData =>
      rw [regStore_readOnly s v (by decide)]
      exact .refl s
    | _ => cases hr

theorem memWrite_txKept {a : BitVec 16} {n : AccSize} {v : Word}
    (h : (AgentStep.host (.write a n v)).isReset = false) : TxKept s (s.memWrite a n v) := by
  unfold State.memWrite
  split_ifs with hbad hlow hrun
  · exact ⟨rfl, rfl, rfl⟩
  · split
    case h_1 => exact ⟨rfl, rfl, rfl⟩
    case h_2 r hr =>
      have hlegal : legalAccess a n = true := by rwa [Bool.not_eq_true', Bool.not_eq_false] at hbad
      have hctrl (h' : r = .ctrl) := ctrl_bit_of_not_reset hlow hlegal h (h' ▸ hr)
      obtain ⟨hseq, htx, hline⟩ := regWrite_txKept hbusy v hctrl
      exact ⟨hseq, htx, hline⟩
  · exact ⟨rfl, rfl, rfl⟩
  · exact absurd ((State.busy_iff s).2 hbusy) hrun

theorem hostStep_txKept {a : HostAccess} (h : (AgentStep.host a).isReset = false) : TxKept s (s.hostStep a) := by
  cases a with
  | read a n =>
    show TxKept s (s.memRead a n)
    rw [(s.memRead_frame a n).1]
    exact ⟨rfl, rfl, rfl⟩
  | write a n v => exact memWrite_txKept hbusy h

end

/-- What conservation says of one step: the bytes are the same, some of them still to push, or none is left. -/
def Conserves (w : Word) (rest : List Byte) (s t : State) : Prop :=
  (∃ rest', t.seq = .run w (.push rest') ∧ t.sentBytes ++ rest' = s.sentBytes ++ rest)
    ∨ (t.seq = .idle ∧ rest = [] ∧ t.sentBytes = s.sentBytes)

section
variable {s : State} {w : Word} {rest : List Byte} (hs : s.seq = .run w (.push rest))
include hs

theorem Conserves.of_seq_kept {t : State} (hseq : t.seq = s.seq) (hsent : t.sentBytes = s.sentBytes) :
    Conserves w rest s t := .inl ⟨rest, hseq.trans hs, by rw [hsent]⟩

theorem Conserves.of_txKept {t : State} (h : TxKept s t) : Conserves w rest s t :=
  .of_seq_kept hs h.seq (by rw [State.sentBytes, State.sentBytes, h.tx, h.line])

theorem exec_stream_conserves {i : Instr} {t : State} (hi : IsStream i) (htx : s.tx.safe = true)
    (hstep : exec i s = .next t) : Conserves w rest s t := by
  cases rest with
  | nil =>
    obtain ⟨r, hexec⟩ := exec_stream_end hi hs
    rw [hexec] at hstep
    cases hstep
    exact .inr ⟨rfl, rfl, rfl⟩
  | cons b rest =>
    cases hfull : s.tx.seesFull with
    | true =>
      rw [exec_stream_wait hi hs hfull] at hstep
      cases hstep
      exact .of_seq_kept hs rfl rfl
    | false =>
      rw [exec_stream_push hi hs hfull] at hstep
      cases hstep
      refine .inl ⟨rest, rfl, ?_⟩
      simp [State.sentBytes, contents_push b (trueCount_lt_of_not_full htx hfull)]

/-- STX moves the oldest waiting byte to the end of those sent. -/
theorem stxStep_conserves (htx : s.tx.safe = true) : Conserves w rest s s.stxStep := by
  cases hempty : s.tx.seesEmpty with
  | true => rw [stxStep_empty hempty]; exact .of_seq_kept hs rfl rfl
  | false =>
    rw [stxStep_byte hempty]
    refine .of_seq_kept hs rfl ?_
    simp [State.sentBytes, contents_eq_front_cons (ne_of_not_empty htx hempty)]

theorem syncStep_conserves (k : SyncKind) : Conserves w rest s (s.syncStep k) := by
  cases k with
  | rxW | rxR => exact .of_seq_kept hs rfl rfl
  | txW => exact .of_seq_kept hs rfl (congrArg (s.txLine ++ ·) (contents_syncW s.tx))
  | txR => exact .of_seq_kept hs rfl (congrArg (s.txLine ++ ·) (contents_syncR s.tx))

theorem srxStep_conserves (b : Byte) : Conserves w rest s (s.srxStep b) := by
  unfold State.srxStep
  split <;> exact .of_seq_kept hs rfl rfl

end

/-- A streaming word decodes to its command. -/
theorem decode_streamWord {w : Word} (h : w ∈ streamWords) : ∃ i, IsStream i ∧ decodeBytes (wordBytes w) = .ok i := by
  simp only [streamWords, List.mem_cons, List.not_mem_nil, or_false] at h
  rcases h with rfl | rfl | rfl
  · exact ⟨_, .inl rfl, decodeBytes_eq_ok_iff.2 rfl⟩
  · exact ⟨_, .inr (.inl rfl), decodeBytes_eq_ok_iff.2 rfl⟩
  · exact ⟨_, .inr (.inr rfl), decodeBytes_eq_ok_iff.2 rfl⟩

/-- Settles O34, agent by agent: SEQ pushes at the TX FIFO's end, STX takes at its front, no other touches it. -/
theorem streamedBytesAreConserved : Obligations.StreamedBytesAreConserved := by
  intro s t a w rest hsafe hreset hs hstep
  obtain ⟨-, h⟩ := (safe_iff s).1 hsafe
  show Conserves w rest s t
  cases a with
  | host a =>
    cases hstep
    exact .of_txKept hs (hostStep_txKept (by rw [hs]; nofun) hreset)
  | seq =>
    obtain ⟨-, -, hword, -⟩ := (seqOk_push hs).1 h.seq
    obtain ⟨i, hi, hd⟩ := decode_streamWord hword
    exact exec_stream_conserves hs hi h.tx (State.seqStep_run hs hd ▸ hstep)
  | srx b => cases hstep; exact srxStep_conserves hs b
  | stx => cases hstep; exact stxStep_conserves hs h.tx
  | sync k => cases hstep; exact syncStep_conserves hs k
  | tick => cases hstep; exact .of_seq_kept hs rfl rfl
  | resetInput => cases hreset

end Sys2Proof.Proofs
end

section
/-! The block-transfer engine: its step in each state, case by case (spec/45_transport.md R441 to R445). -/

namespace Sys2Proof.Proofs

open Sys2Proof Sys2Proof.Machine

/-! ### The engine's operations in the words of the rules -/

section
variable (s : State)

theorem timedOut_eq_specElapsed (timeout : Word) : s.timedOut timeout = specElapsed s timeout := by
  have helapsed : (s.tick - s.bt.t0).toNat = (s.tick.toNat + 2 ^ 32 - s.bt.t0.toNat) % 2 ^ 32 := by bv_omega
  rw [State.timedOut, specElapsed, ← helapsed]
  rfl

theorem btRetry_eq_specRetry (code : ErrCode) : s.btRetry code = specRetry s code := by
  rcases s.btRetry_cases code with ⟨hmax, heq⟩ | ⟨hmax, hwait, heq⟩ | ⟨hmax, hwait, heq⟩ <;> rw [heq, specRetry]
  · rw [if_pos (BitVec.le_def.1 hmax)]; rfl
  · rw [if_neg (Nat.not_le.2 (BitVec.lt_def.1 hmax)), if_pos hwait, blockPacket_eq_specBlock]
  · rw [if_neg (Nat.not_le.2 (BitVec.lt_def.1 hmax)), if_neg hwait]; rfl

theorem popRx_eq : s.popRx = { s with rx := s.rx.popped } := by rw [State.popRx, Fifo.pop_eq_popped]

theorem sendBlock_eq :
    s.sendBlock = { s with bt := { s.bt with state := .sending, outq := specBlock s s.bt.blk } } := by
  rw [State.sendBlock, blockPacket_eq_specBlock]

end

/-- A running BTX takes its engine's step. -/
theorem exec_btx_engine {s : State} {w : Word} (hs : s.seq = .run w .engine) :
    exec .btx s = .next s.btEngineStep := by
  rw [exec, execBtx, State.progress_of_run hs]

/-- The start step of a BTX whose checks pass (R445). -/
theorem exec_btx_start {s : State} {w : Word} (hs : s.seq = .run w .start) (hpass : firstError s.btxChecks = none) :
    exec .btx s = .next { s with
      seq := .run w .engine, blocksAcked := 0
      bt := { s.bt with
        nblk := (s.cfg.srcLen.toNat + 127) / 128, blk := 0, retries := 0, cancelReq := false, t0 := s.tick
        state := .awaitStart } } := by
  rw [exec, execBtx, State.progress_of_run hs]
  show Host.Outcome.next (s.checked s.btxChecks s.btxStart) = _
  rw [State.checked_of_none hpass, State.btxStart, State.withProgress_of_run .btx _ hs]
  rfl

/-- Settles O39: a region in SCR that is not empty passes the checks. -/
theorem btxStartStep : Obligations.BtxStartStep := fun s hs hlen hregion =>
  exec_btx_start hs ((btxChecks_pass_iff s).2 ⟨hlen, regionOut_eq_false hregion⟩)

section
variable {s : State}

theorem exec_btx_awaitStart (h : s.inEngine .awaitStart) : exec .btx s = .next s.btAwaitStart := by
  rw [exec_btx_engine h.1, State.btEngineStep, h.2]

theorem exec_btx_sending (h : s.inEngine .sending) : exec .btx s = .next s.btSending := by
  rw [exec_btx_engine h.1, State.btEngineStep, h.2]

theorem exec_btx_waitAck (h : s.inEngine .waitAck) : exec .btx s = .next s.btWaitAck := by
  rw [exec_btx_engine h.1, State.btEngineStep, h.2]

theorem exec_btx_sendEot (h : s.inEngine .sendEot) : exec .btx s = .next s.btSendEot := by
  rw [exec_btx_engine h.1, State.btEngineStep, h.2]

theorem exec_btx_waitEotAck (h : s.inEngine .waitEotAck) : exec .btx s = .next s.btWaitEotAck := by
  rw [exec_btx_engine h.1, State.btEngineStep, h.2]

theorem exec_btx_aborted (h : s.inEngine .aborted) : exec .btx s = .next s.btAborted := by
  rw [exec_btx_engine h.1, State.btEngineStep, h.2]

end

/-! ### The states that wait for a byte -/

/-- Settles O40: the branches of the engine's step are those of the rule. -/
theorem btxAwaitStartStep : Obligations.BtxAwaitStartStep := by
  intro s h popped
  have hpop : s.popRx = popped := popRx_eq s
  rw [exec_btx_awaitStart h, State.btAwaitStart, timedOut_eq_specElapsed, hpop, sendBlock_eq]
  simp only [Fifo.seesEmpty_iff]
  rfl

/-- The engine's answer to an ACK of a block. -/
theorem btAcked_eq (s : State) :
    s.btAcked = if s.bt.blk + 1 = s.bt.nblk
      then { s with
        blocksAcked := BitVec.ofNat 9 (s.bt.blk + 1)
        bt := { s.bt with blk := s.bt.blk + 1, retries := 0, state := .sendEot, outq := [0x04#8] } }
      else { s with
        blocksAcked := BitVec.ofNat 9 (s.bt.blk + 1)
        bt := { s.bt with
          blk := s.bt.blk + 1, retries := 0, state := .sending, outq := specBlock s (s.bt.blk + 1) } } := by
  rcases s.btAcked_cases with ⟨hlast, heq⟩ | ⟨hlast, heq⟩ <;> rw [heq]
  · rw [if_pos hlast]; rfl
  · rw [if_neg hlast, blockPacket_eq_specBlock]

/-- Settles O42: the branches of the engine's step are those of the rule. -/
theorem btxWaitAckStep : Obligations.BtxWaitAckStep := by
  intro s h popped acked
  have hpop : s.popRx = popped := popRx_eq s
  rw [exec_btx_waitAck h, State.btWaitAck, timedOut_eq_specElapsed, hpop, btAcked_eq, btRetry_eq_specRetry,
    btRetry_eq_specRetry]
  simp only [Fifo.seesEmpty_iff]
  rfl

/-- Settles O43: the branches of the engine's step are those of the rule; an ACK ends the command without error. -/
theorem btxWaitEotAckStep : Obligations.BtxWaitEotAckStep := by
  intro s h popped
  have hpop : s.popRx = popped := popRx_eq s
  rw [exec_btx_waitEotAck h, State.btWaitEotAck, timedOut_eq_specElapsed, hpop, State.btEnd_eq, btRetry_eq_specRetry,
    btRetry_eq_specRetry]
  simp only [Fifo.seesEmpty_iff]
  rfl

/-! ### The states that push -/

section
variable {s : State} {b : Byte} {rest : List Byte}

theorem btSending_cancel (h : s.bt.cancelReq = true) : s.btSending = specAbort s .btCancelHost := if_pos h

theorem btSendEot_cancel (h : s.bt.cancelReq = true) : s.btSendEot = specAbort s .btCancelHost := if_pos h

section
variable (hcancel : s.bt.cancelReq = false)
include hcancel

theorem btSending_full (hfull : s.tx.seesFull = true) : s.btSending = s := by
  rw [State.btSending, if_neg (Bool.eq_false_iff.1 hcancel), if_pos hfull]

theorem btSendEot_full (hfull : s.tx.seesFull = true) : s.btSendEot = s := by
  rw [State.btSendEot, if_neg (Bool.eq_false_iff.1 hcancel), if_pos hfull]

theorem btSendEot_room (hroom : s.tx.seesFull = false) :
    s.btSendEot = { s with
      tx := s.tx.push 0x04#8, bt := { s.bt with outq := [], state := .waitEotAck, t0 := s.tick } } := by
  rw [State.btSendEot, if_neg (Bool.eq_false_iff.1 hcancel), if_neg (Bool.eq_false_iff.1 hroom)]
  rfl

theorem btSending_more (hroom : s.tx.seesFull = false) (houtq : s.bt.outq = b :: rest) (hrest : rest ≠ []) :
    s.btSending = { s with tx := s.tx.push b, bt := { s.bt with outq := rest } } := by
  rw [State.btSending, if_neg (Bool.eq_false_iff.1 hcancel), if_neg (Bool.eq_false_iff.1 hroom), houtq]
  cases rest with
  | nil => exact absurd rfl hrest
  | cons c rest => rfl

theorem btSending_last (hroom : s.tx.seesFull = false) (houtq : s.bt.outq = [b]) :
    s.btSending = { s with
      tx := s.tx.push b, bt := { s.bt with outq := [], state := .waitAck, t0 := s.tick } } := by
  rw [State.btSending, if_neg (Bool.eq_false_iff.1 hcancel), if_neg (Bool.eq_false_iff.1 hroom), houtq]
  rfl

end

theorem btAborted_full (houtq : s.bt.outq = b :: rest) (hfull : s.tx.seesFull = true) : s.btAborted = s := by
  rw [State.btAborted, houtq]
  exact if_pos hfull

theorem btAborted_room (houtq : s.bt.outq = b :: rest) (hroom : s.tx.seesFull = false) :
    s.btAborted = { s with tx := s.tx.push b, bt := { s.bt with outq := rest } } := by
  rw [State.btAborted, houtq]
  exact if_neg (Bool.eq_false_iff.1 hroom)

theorem btAborted_end (houtq : s.bt.outq = []) (hcode : s.bt.code ≠ .ok) :
    s.btAborted = { s with errCode := s.bt.code, seq := .idle, events := s.events ||| 0x83#8 } := by
  rw [State.btAborted, houtq]
  show s.btEnd s.bt.code = _
  rw [State.btEnd_eq, if_neg hcode]

end

/-- Settles O41: each clause by the lemma about its branch. -/
theorem btxPushingStates : Obligations.BtxPushingStates := by
  intro s b rest
  refine ⟨fun h hcancel => ?cancel, fun h hcancel hfull => ?wait, fun h hcancel hroom houtq hrest => ?more,
    fun h hcancel hroom houtq => ?last, fun h hcancel hroom => ?eot, fun h houtq hfull => ?abortWait,
    fun h houtq hroom => ?abortPush, fun h houtq hcode => ?abortEnd⟩
  case cancel =>
    rcases h with h | h
    · rw [exec_btx_sending h, btSending_cancel hcancel]
    · rw [exec_btx_sendEot h, btSendEot_cancel hcancel]
  case wait =>
    have hfull := s.tx.seesFull_iff.2 hfull
    rcases h with h | h
    · rw [exec_btx_sending h, btSending_full hcancel hfull]
    · rw [exec_btx_sendEot h, btSendEot_full hcancel hfull]
  case more =>
    rw [exec_btx_sending h, btSending_more hcancel ((seesFull_eq_false_iff _).2 hroom) houtq hrest, Fifo.push_eq_pushed]
  case last =>
    rw [exec_btx_sending h, btSending_last hcancel ((seesFull_eq_false_iff _).2 hroom) houtq, Fifo.push_eq_pushed]
  case eot =>
    rw [exec_btx_sendEot h, btSendEot_room hcancel ((seesFull_eq_false_iff _).2 hroom), Fifo.push_eq_pushed]
  case abortWait => rw [exec_btx_aborted h, btAborted_full houtq (s.tx.seesFull_iff.2 hfull)]
  case abortPush =>
    rw [exec_btx_aborted h, btAborted_room houtq ((seesFull_eq_false_iff _).2 hroom), Fifo.push_eq_pushed]
  case abortEnd => rw [exec_btx_aborted h, btAborted_end houtq hcode]

end Sys2Proof.Proofs
end

section
/-! Runs of an explicit schedule: what one agent's step does whatever is scheduled behind it, and the two rounds of the
serial side, in which a drained FIFO takes one byte and is drained again (spec/44_fifo_cdc.md R365, R370, R371). -/

namespace Sys2Proof.Proofs

open Sys2Proof Sys2Proof.Machine

/-! ### Schedules -/

/-- The agent steps `l`, scheduled in `s`, leave `t`, whatever is scheduled behind them. -/
def Plays (l : List AgentStep) (s t : State) : Prop :=
  ∀ rest, runSteps l.length { s with inputs := l ++ rest } = .next { t with inputs := rest }

theorem Plays.nil (s : State) : Plays [] s s := fun _ => rfl

theorem Plays.append {l l' : List AgentStep} {s t u : State} (h : Plays l s t) (h' : Plays l' t u) :
    Plays (l ++ l') s u := by
  intro rest
  rw [List.length_append, List.append_assoc, runSteps_add _ _ (h (l' ++ rest))]
  exact h' rest

/-- One step, of an agent that does not look at the schedule. -/
theorem Plays.single {a : AgentStep} {s t : State}
    (h : ∀ rest, { s with inputs := rest }.agentStep a = .next { t with inputs := rest }) : Plays [a] s t :=
  fun rest => runSteps_succ 0 (h rest)

/-- SEQ's step, for a command whose meaning does not look at the schedule. -/
theorem Plays.seq {i : Instr} {p : Progress} {s t : State} (hs : s.seq = .run (encode i) p)
    (h : ∀ rest, exec i { s with inputs := rest } = .next { t with inputs := rest }) : Plays [.seq] s t := by
  refine .single fun rest => ?_
  have hd : decodeBytes (wordBytes (encode i)) = .ok i := decodeBytes_eq_ok_iff.2 rfl
  exact (State.seqStep_run (s := { s with inputs := rest }) hs hd).trans (h rest)

/-- A schedule that is played to its end. -/
theorem Plays.run {l : List AgentStep} {s t : State} (h : Plays l s t) (hs : s.inputs = l) :
    runSteps s.inputs.length s = .next { t with inputs := [] } := by
  have hrun := h []
  rw [List.append_nil] at hrun
  subst hs
  exact hrun

/-! ### One byte through a drained FIFO -/

/-- The FIFO after a byte went through it and both copies followed. -/
def passed (f : Fifo) (b : Byte) : Fifo := (f.push b).syncW.pop.syncR

theorem drained_passed (f : Fifo) (b : Byte) (h : f.drained = true) : (passed f b).drained = true := by
  obtain ⟨hrp, -, -⟩ := f.drained_iff.1 h
  have hpop : (passed f b).rp = (passed f b).wp := congrArg (· + 1) hrp
  refine (passed f b).drained_iff.2 ⟨hpop, ungray_gray (f.wp + 1), ?_⟩
  exact (ungray_gray (f.rp + 1)).trans hpop

section
variable {f : Fifo} (h : f.drained = true)
include h

theorem seesFull_of_drained : f.seesFull = false := by
  obtain ⟨-, -, hr⟩ := f.drained_iff.1 h
  rw [Fifo.seesFull, hr]
  exact beq_false_of_ne (by bv_omega)

/-- A pushed byte that the consumer has been told of is the one it sees. -/
theorem pushed_byte_seen (b : Byte) : (f.push b).syncW.seesEmpty = false ∧ (f.push b).syncW.front = b := by
  obtain ⟨hrp, -, -⟩ := f.drained_iff.1 h
  constructor
  · rw [seesEmpty_eq_false_iff]
    show f.rp ≠ ungray (gray (f.wp + 1))
    rw [ungray_gray, hrp]
    bv_omega
  · show (f.push b).slotAt f.rp = b
    rw [Fifo.slotAt_push, if_pos hrp]

end

/-! ### The rounds -/

theorem plays_stx {s : State} (h : s.tx.seesEmpty = false) :
    Plays [.stx] s { s with txLine := s.txLine ++ [s.tx.front], tx := s.tx.pop } :=
  .single fun rest => congrArg Host.Outcome.next (stxStep_byte (s := { s with inputs := rest }) h)

theorem plays_srx {s : State} (b : Byte) (h : s.rx.seesFull = false) :
    Plays [.srx b] s { s with rx := s.rx.push b } :=
  .single fun rest => congrArg Host.Outcome.next (srxStep_room (s := { s with inputs := rest }) b h)

theorem plays_sync (s : State) (k : SyncKind) : Plays [.sync k] s (s.syncStep k) :=
  .single fun rest => by cases k <;> rfl

/-- SEQ pushes a byte, the line takes it and the copies follow. -/
theorem plays_lineRound {s u : State} {b : Byte} (hd : s.tx.drained = true) (hseq : Plays [.seq] s u)
    (htx : u.tx = s.tx.push b) : Plays lineRound s { u with tx := passed s.tx b, txLine := u.txLine ++ [b] } := by
  obtain ⟨hbyte, hfront⟩ := pushed_byte_seen hd b
  rw [← htx] at hbyte hfront
  have hline : Plays [.stx] (u.syncStep .txW) { u with tx := u.tx.syncW.pop, txLine := u.txLine ++ [b] } := by
    rw [← hfront]
    exact plays_stx (s := u.syncStep .txW) hbyte
  rw [passed, ← htx]
  exact ((hseq.append (plays_sync u .txW)).append hline).append (plays_sync _ .txR)

/-- A byte arrives, SEQ sees and takes it, and the copies follow. -/
theorem plays_answerRound {s u : State} {b : Byte} (hd : s.rx.drained = true)
    (hseq : Plays [.seq] { s with rx := (s.rx.push b).syncW } u) (hrx : u.rx = (s.rx.push b).syncW.pop) :
    Plays (answerRound b) s { u with rx := passed s.rx b } := by
  rw [passed, ← hrx]
  exact (((plays_srx b (seesFull_of_drained hd)).append (plays_sync _ .rxW)).append hseq).append (plays_sync u .rxR)

/-! ### A sequence of bytes -/

/-- `s` at this progress of its command, which is SEQSTATE and the engine, with this TX FIFO and these bytes sent. -/
def atProgress (s : State) (p : SeqState × BtEngine) (tx : Fifo) (line : List Byte) : State :=
  { s with tx := tx, txLine := line, seq := p.1, bt := p.2 }

/-- From the progress `p` SEQ pushes the byte `b` and goes on to the progress `p'`. -/
def PushesByte (s : State) (p p' : SeqState × BtEngine) (b : Byte) : Prop :=
  ∀ tx line, tx.drained = true → Plays [.seq] (atProgress s p tx line) (atProgress s p' (tx.push b) line)

/-- While the line takes each byte, a command that pushes a byte sequence sends exactly that. -/
theorem plays_lineRounds {s : State} {p : List Byte → SeqState × BtEngine}
    (hpush : ∀ b rest, PushesByte s (p (b :: rest)) (p rest) b) (bs : List Byte) {tx : Fifo} (line : List Byte)
    (hd : tx.drained = true) :
    (bs.foldl passed tx).drained = true
      ∧ Plays (List.replicate bs.length lineRound).flatten (atProgress s (p bs) tx line)
          (atProgress s (p []) (bs.foldl passed tx) (line ++ bs)) := by
  induction bs generalizing tx line with
  | nil => exact ⟨hd, by rw [List.append_nil]; exact .nil _⟩
  | cons b bs ih =>
    obtain ⟨hend, hrest⟩ := ih (line ++ [b]) (drained_passed tx b hd)
    refine ⟨hend, ?_⟩
    rw [List.append_assoc, List.singleton_append] at hrest
    rw [List.length_cons, List.replicate_succ, List.flatten_cons]
    exact (plays_lineRound hd (hpush b bs tx line hd) rfl).append hrest

end Sys2Proof.Proofs
end

section
/-! A streaming command sends exactly its sequence while the line takes each byte (spec/45_transport.md R407, R410,
R411, R423). -/

namespace Sys2Proof.Proofs

open Sys2Proof Sys2Proof.Machine

section
variable {i : Instr} {s : State} (hi : IsStream i)
include hi

theorem plays_stream_start (hs : s.seq = .run (encode i) .start) (hpass : specError i s = none) :
    Plays [.seq] s { s with seq := .run (encode i) (.push (specStream i s)) } :=
  .seq hs fun rest => exec_stream_start (s := { s with inputs := rest }) hi hs hpass

theorem stream_pushesByte (b : Byte) (rest : List Byte) :
    PushesByte s (.run (encode i) (.push (b :: rest)), s.bt) (.run (encode i) (.push rest), s.bt) b :=
  fun _ _ hd => .seq rfl fun _ => exec_stream_push hi rfl (seesFull_of_drained hd)

theorem plays_stream_done (hs : s.seq = .run (encode i) (.push [])) (hpass : specError i s = none) :
    Plays [.seq] s { s.finished 0 with crc32Res := specStreamResult i s } :=
  .seq hs fun rest => exec_stream_done (s := { s with inputs := rest }) hi hs hpass

end

theorem lineRounds_length (n : Nat) : (List.replicate n lineRound).flatten.length = 4 * n := by
  simp [lineRound, Nat.mul_comm]

/-- Settles O35: the start step, a round of the line for each byte of Q, and the completion. -/
theorem streamSendsTheWholeSequence : Obligations.StreamSendsTheWholeSequence := by
  intro i w s n hmem hs hpass hd hn hin
  subst hn
  obtain ⟨hi, rfl⟩ := isStream_of_mem hmem
  obtain ⟨hend, hpush⟩ := plays_lineRounds (s := s) (p := fun rest => (.run (encode i) (.push rest), s.bt))
    (stream_pushesByte hi) (specStream i s) s.txLine hd
  have hplay := ((plays_stream_start hi hs hpass).append hpush).append (plays_stream_done hi rfl hpass)
  have hrun := hplay.run hin
  rw [hin, List.length_append, List.length_append, lineRounds_length, List.length_singleton, Nat.add_comm 1,
    Nat.add_assoc] at hrun
  exact ⟨_, hrun, hend, rfl⟩

end Sys2Proof.Proofs
end

section
/-! A BTX whose receiver sends 'C' and acknowledges every block and the EOT in time delivers every block: the engine's
states along that run, round by round (spec/45_transport.md R442, R443, R445). -/

namespace Sys2Proof.Proofs

open Sys2Proof Sys2Proof.Machine

/-! ### An answer that arrives in time -/

/-- The engine sees this byte, no cancel is requested, and this timeout has not passed. -/
structure Answered (s : State) (timeout : Word) (b : Byte) : Prop where
  cancel : s.bt.cancelReq = false
  inTime : s.timedOut timeout = false
  byte : s.rx.seesEmpty = false
  front : s.rx.front = b

/-- A byte that has come through the drained RX FIFO, before a tick. -/
theorem Answered.of_drained {s : State} {timeout : Word} (b : Byte) (hd : s.rx.drained = true)
    (hcancel : s.bt.cancelReq = false) (ht0 : s.bt.t0 = s.tick) (htimeout : timeout ≠ 0) :
    Answered { s with rx := (s.rx.push b).syncW } timeout b := by
  obtain ⟨hbyte, hfront⟩ := pushed_byte_seen hd b
  refine ⟨hcancel, ?_, hbyte, hfront⟩
  show decide (timeout ≤ s.tick - s.bt.t0) = false
  rw [ht0, decide_eq_false]
  bv_omega

section
variable {s : State}

theorem btAwaitStart_start (h : Answered s s.cfg.btToStart btStart) :
    s.btAwaitStart = { s with
      rx := s.rx.pop, bt := { s.bt with state := .sending, outq := specBlock s s.bt.blk } } := by
  rw [State.btAwaitStart, h.cancel, h.inTime, h.byte, h.front]
  exact sendBlock_eq s.popRx

theorem btWaitAck_ack (h : Answered s s.cfg.btToAck btAck) : s.btWaitAck = s.popRx.btAcked := by
  rw [State.btWaitAck, h.cancel, h.inTime, h.byte, h.front]
  rfl

theorem btWaitEotAck_ack (h : Answered s s.cfg.btToAck btAck) :
    s.btWaitEotAck = { s with
      rx := s.rx.pop, bt := { s.bt with state := .complete }, errCode := .ok, seq := .idle
      events := s.events ||| 0x81#8 } := by
  rw [State.btWaitEotAck, h.cancel, h.inTime, h.byte, h.front]
  exact State.btEnd_eq _ _

end

/-! ### The states of the run -/

section
variable (s : State) (n : Nat)

/-- The engine of a transfer of `n` blocks with the blocks below `k` acknowledged, in this state with this still to
push. -/
def engineAt (k : Nat) (st : BtState) (outq : List Byte) : BtEngine :=
  { s.bt with
    nblk := n, blk := k, retries := 0, cancelReq := false, t0 := s.tick, state := st, outq := outq }

/-- The machine with that engine, these FIFOs and these bytes sent. -/
def transferAt (k : Nat) (st : BtState) (outq : List Byte) (tx rx : Fifo) (line : List Byte) : State :=
  { s with
    tx := tx, rx := rx, txLine := line, seq := .run (encode .btx) .engine, blocksAcked := BitVec.ofNat 9 k
    bt := engineAt s n k st outq }

/-- The machine with all below block `k` acknowledged, about to send block `k`, or EOT after the last. -/
def sendingBlock (k : Nat) (tx rx : Fifo) (line : List Byte) : State :=
  if k = n then transferAt s n k .sendEot [btEot] tx rx line
  else transferAt s n k .sending (specBlock s k) tx rx line

/-- The machine after such a transfer. -/
def transferDone (tx rx : Fifo) (line : List Byte) : State :=
  { s with
    tx := tx, rx := rx, txLine := line, seq := .idle, blocksAcked := BitVec.ofNat 9 n
    bt := engineAt s n n .complete [], errCode := .ok, events := s.events ||| 0x81#8 }

end

/-- The conditions of a running BTX hold after a start step whose checks pass. -/
theorem btxStart_blocksOk {s : State} (hlen : s.cfg.srcLen ≠ 0) (hregion : s.regionOut = false) :
    BlocksOk s.btxStart :=
  ⟨hregion, hlen, rfl, Nat.zero_le _, rfl, BitVec.le_def.2 (Nat.zero_le _)⟩

/-- The progress of a BTX that sends block `k`, by the bytes still to push. -/
def blockProgress (s : State) (n k : Nat) : List Byte → SeqState × BtEngine
  | [] => (.run (encode .btx) .engine, engineAt s n k .waitAck [])
  | b :: rest => (.run (encode .btx) .engine, engineAt s n k .sending (b :: rest))

/-- The engine's step, for a step that does not look at the schedule. -/
theorem plays_engine {s t : State} (hs : s.seq = .run (encode .btx) .engine)
    (h : ∀ rest, { s with inputs := rest }.btEngineStep = { t with inputs := rest }) : Plays [.seq] s t :=
  .seq hs fun rest => (exec_btx_engine (s := { s with inputs := rest }) hs).trans (congrArg _ (h rest))

section
variable {s : State} {n k : Nat} {tx rx : Fifo} {line : List Byte}

/-- The start step of a BTX whose checks pass. -/
theorem plays_btx_start (hs : s.seq = .run (encode .btx) .start) (hpass : firstError s.btxChecks = none)
    (hn : n = (s.cfg.srcLen.toNat + 127) / 128) :
    Plays [.seq] s (transferAt s n 0 .awaitStart s.bt.outq s.tx s.rx s.txLine) := by
  subst hn
  exact .seq hs fun rest => exec_btx_start (s := { s with inputs := rest }) hs hpass

/-- 'C' arrives: block 0 is next. -/
theorem plays_answer_start {outq : List Byte} (hrx : rx.drained = true) (hto : s.cfg.btToStart ≠ 0) (hpos : n ≠ 0) :
    Plays (answerRound 0x43) (transferAt s n 0 .awaitStart outq tx rx line)
      (sendingBlock s n 0 tx (passed rx 0x43) line) := by
  rw [sendingBlock, if_neg hpos.symm]
  refine plays_answerRound (u := transferAt s n 0 .sending (specBlock s 0) tx (rx.push 0x43).syncW.pop line) hrx
    (plays_engine rfl fun rest => ?_) rfl
  exact btAwaitStart_start
    (.of_drained (s := { transferAt s n 0 .awaitStart outq tx rx line with inputs := rest }) 0x43 hrx rfl rfl hto)

theorem block_pushesByte (b : Byte) (rest : List Byte) :
    PushesByte (transferAt s n k .sending (specBlock s k) tx rx line) (blockProgress s n k (b :: rest))
      (blockProgress s n k rest) b := by
  intro tx' line' hd
  have hroom := seesFull_of_drained hd
  cases rest with
  | nil =>
    exact plays_engine rfl fun ahead => btSending_last
      (s := { transferAt s n k .sending [b] tx' rx line' with inputs := ahead }) rfl hroom rfl
  | cons c rest =>
    exact plays_engine rfl fun ahead => btSending_more
      (s := { transferAt s n k .sending (b :: c :: rest) tx' rx line' with inputs := ahead }) rfl hroom rfl nofun

/-- The bytes of block `k` leave one by one; after the last the engine waits for the answer. -/
theorem plays_block (htx : tx.drained = true) (hk : k ≠ n) :
    ((specBlock s k).foldl passed tx).drained = true
      ∧ Plays (List.replicate 133 lineRound).flatten (sendingBlock s n k tx rx line)
          (transferAt s n k .waitAck [] ((specBlock s k).foldl passed tx) rx (line ++ specBlock s k)) := by
  have hlength : (specBlock s k).length = 133 := specPacket_length _ _ (specPayload_length s k)
  rw [sendingBlock, if_neg hk, ← hlength]
  exact plays_lineRounds (s := transferAt s n k .sending (specBlock s k) tx rx line)
    (p := blockProgress s n k) block_pushesByte (specBlock s k) line htx

/-- The ACK of block `k` arrives: the block counts, and the next is next, or EOT. -/
theorem plays_answer_ack (hrx : rx.drained = true) (hto : s.cfg.btToAck ≠ 0) :
    Plays (answerRound 0x06) (transferAt s n k .waitAck [] tx rx line)
      (sendingBlock s n (k + 1) tx (passed rx 0x06) line) := by
  have hans (rest : List AgentStep) := Answered.of_drained
    (s := { transferAt s n k .waitAck [] tx rx line with inputs := rest }) 0x06 hrx rfl rfl hto
  unfold sendingBlock
  split_ifs with hlast
  · exact plays_answerRound (u := transferAt s n (k + 1) .sendEot [btEot] tx (rx.push 0x06).syncW.pop line) hrx
      (plays_engine rfl fun rest => (btWaitAck_ack (hans rest)).trans ((btAcked_eq _).trans (if_pos hlast))) rfl
  · exact plays_answerRound
      (u := transferAt s n (k + 1) .sending (specBlock s (k + 1)) tx (rx.push 0x06).syncW.pop line) hrx
      (plays_engine rfl fun rest => (btWaitAck_ack (hans rest)).trans ((btAcked_eq _).trans (if_neg hlast))) rfl

/-- EOT leaves. -/
theorem plays_eot (htx : tx.drained = true) :
    Plays lineRound (sendingBlock s n n tx rx line)
      (transferAt s n n .waitEotAck [] (passed tx 0x04) rx (line ++ [0x04])) := by
  rw [sendingBlock, if_pos rfl]
  exact plays_lineRound (u := transferAt s n n .waitEotAck [] (tx.push 0x04) rx line) htx
    (plays_engine rfl fun rest => btSendEot_room
      (s := { transferAt s n n .sendEot [btEot] tx rx line with inputs := rest }) rfl (seesFull_of_drained htx)) rfl

/-- The ACK of EOT arrives: the BTX ends. -/
theorem plays_answer_end (hrx : rx.drained = true) (hto : s.cfg.btToAck ≠ 0) :
    Plays (answerRound 0x06) (transferAt s n n .waitEotAck [] tx rx line) (transferDone s n tx (passed rx 0x06) line) :=
  plays_answerRound (u := transferDone s n tx (rx.push 0x06).syncW.pop line) hrx
    (plays_engine rfl fun rest => btWaitEotAck_ack
      (.of_drained (s := { transferAt s n n .waitEotAck [] tx rx line with inputs := rest }) 0x06 hrx rfl rfl hto)) rfl

/-- The blocks below `k`, each sent and acknowledged. -/
theorem plays_blocks (htx : tx.drained = true) (hrx : rx.drained = true) (hto : s.cfg.btToAck ≠ 0) (hk : k ≤ n) :
    ∃ tx' rx', tx'.drained = true ∧ rx'.drained = true
      ∧ Plays (List.replicate k ((List.replicate 133 lineRound).flatten ++ answerRound 0x06)).flatten
          (sendingBlock s n 0 tx rx line)
          (sendingBlock s n k tx' rx' (line ++ (List.range k).flatMap (specBlock s))) := by
  induction k with
  | zero => exact ⟨tx, rx, htx, hrx, by rw [List.range_zero, List.flatMap_nil, List.append_nil]; exact .nil _⟩
  | succ k ih =>
    obtain ⟨tx', rx', htx', hrx', hbelow⟩ := ih (Nat.le_of_succ_le hk)
    obtain ⟨htx'', hblock⟩ := plays_block (rx := rx') (line := line ++ (List.range k).flatMap (specBlock s)) htx'
      (Nat.ne_of_lt hk)
    refine ⟨_, passed rx' 0x06, htx'', drained_passed _ _ hrx', ?_⟩
    rw [List.replicate_succ', List.flatten_append, List.flatten_singleton, List.range_succ, List.flatMap_append,
      List.flatMap_singleton, ← List.append_assoc line]
    exact hbelow.append (hblock.append (plays_answer_ack hrx' hto))

end

/-- Settles O44: the rounds of the schedule one after the other, by what each leaves. -/
theorem btxDeliversEveryBlock : Obligations.BtxDeliversEveryBlock := by
  intro s n hs hpass hstart hack htx hrx hn hin
  have hchecks : firstError s.btxChecks = none := (firstError_eq_specError s.btxChecks_eq).trans hpass
  obtain ⟨hlen, hregion⟩ := (btxChecks_pass_iff s).1 hchecks
  have hpos : n ≠ 0 := hn ▸ (btxStart_blocksOk hlen hregion).nblk_pos.ne'
  have hle : n ≤ 256 := hn ▸ (btxStart_blocksOk hlen hregion).nblk_le
  obtain ⟨tx, rx, htx', hrx', hblocks⟩ := plays_blocks (n := n) (line := s.txLine) htx (drained_passed _ 0x43 hrx) hack
    (Nat.le_refl n)
  have hplay := ((((plays_btx_start hs hchecks hn).append (plays_answer_start hrx hstart hpos)).append hblocks).append
    (plays_eot htx')).append (plays_answer_end hrx' hack)
  refine ⟨_, hplay.run hin, rfl, rfl, rfl, rfl, ?_, rfl, rfl, drained_passed _ _ htx', drained_passed _ _ hrx', rfl⟩
  show (BitVec.ofNat 9 n).toNat = n
  rw [BitVec.toNat_ofNat]
  omega

end Sys2Proof.Proofs
end

section
/-! STATUS and the interrupt output: the word as the number made of its fields, its one-bit fields as the views of the
sequencer and the FIFOs, and IRQ as an enabled source that is on (spec/10_state.md R45, spec/60_exceptions.md R510). -/

namespace Sys2Proof.Proofs

open Sys2Proof Sys2Proof.Machine

/-! ### The status views (spec/44_fifo_cdc.md R368) -/

theorem rxNe_iff (s : State) : s.rxNe = true ↔ s.rx.rp ≠ ungray s.rx.wps := by
  rw [State.rxNe, Bool.not_eq_true', seesEmpty_eq_false_iff]

theorem txFull_iff (s : State) : s.txFull = true ↔ s.tx.fullView := s.tx.seesFull_iff

theorem txEmpty_iff (s : State) : s.txEmpty = true ↔ s.tx.wp = ungray s.tx.rps := beq_iff_eq

/-! ### STATUS -/

theorem toNat_statusWord (s : State) :
    s.statusWord.toNat = s.busy.toNat + 2 ^ 1 * s.rxNe.toNat + 2 ^ 2 * s.txFull.toNat + 2 ^ 3 * s.txEmpty.toNat
      + 2 ^ 4 * specBtNumber s.bt.state + 2 ^ 8 * (s.lastCmd.toNat % 2 ^ 8) := by
  simp only [specBtNumber_eq, State.statusWord, toNat_append_fields, BitVec.toNat_ofNat, BitVec.toNat_ofBool,
    BitVec.extractLsb'_toNat, Nat.shiftRight_zero]
  omega

/-- A bit of a word is the binary digit of its number. -/
theorem getLsbD_eq_of_digit {w i : Nat} {v : BitVec w} {b : Bool} (h : v.toNat / 2 ^ i % 2 = b.toNat) :
    v.getLsbD i = b := by
  rw [BitVec.getLsbD, Nat.testBit_eq_decide_div_mod_eq, h]
  cases b <;> rfl

theorem statusWord_fields (s : State) :
    s.statusWord.getLsbD 0 = s.busy ∧ s.statusWord.getLsbD 1 = s.rxNe ∧ s.statusWord.getLsbD 2 = s.txFull
      ∧ s.statusWord.getLsbD 3 = s.txEmpty ∧ s.statusWord.toNat / 16 % 8 = specBtNumber s.bt.state
      ∧ s.statusWord.getLsbD 7 = false ∧ s.statusWord.toNat / 256 = s.lastCmd.toNat % 256 := by
  have hnumber := toNat_statusWord s
  have hbusy := s.busy.toNat_le
  have hrxNe := s.rxNe.toNat_le
  have htxFull := s.txFull.toNat_le
  have htxEmpty := s.txEmpty.toNat_le
  have hbt : specBtNumber s.bt.state < 8 := specBtNumber_eq _ ▸ s.bt.state.code.isLt
  have hreserved : s.statusWord.toNat / 2 ^ 7 % 2 = false.toNat := by rw [Bool.toNat_false]; omega
  exact ⟨getLsbD_eq_of_digit (by omega), getLsbD_eq_of_digit (by omega), getLsbD_eq_of_digit (by omega),
    getLsbD_eq_of_digit (by omega), by omega, getLsbD_eq_of_digit hreserved, by omega⟩

/-! ### The interrupt output -/

/-- Two words share a set bit when their AND is not zero. -/
theorem and_ne_zero_iff {w : Nat} (x y : BitVec w) :
    x &&& y ≠ 0 ↔ ∃ i, i < w ∧ x.getLsbD i = true ∧ y.getLsbD i = true := by
  have hzero : x &&& y = 0 ↔ ∀ i, i < w → (x &&& y).getLsbD i = (0#w).getLsbD i := BitVec.eq_of_getLsbD_eq_iff
  simp only [Ne, hzero, BitVec.getLsbD_and, BitVec.getLsbD_zero, not_forall, Bool.not_eq_false, exists_prop,
    Bool.and_eq_true]

theorem enabledEvent_iff (s : State) :
    ((s.events &&& s.irqEn.extractLsb' 0 8) != 0) = true
      ↔ ∃ i, i < 8 ∧ s.events.getLsbD i = true ∧ s.irqEn.getLsbD i = true := by
  rw [bne_iff_ne, and_ne_zero_iff]
  refine exists_congr fun i => and_congr_right fun hi => ?_
  rw [BitVec.getLsbD_extractLsb', Nat.zero_add, decide_eq_true hi, Bool.true_and]

/-- The enabled sources of IRQ, one by one. -/
theorem irq_iff (s : State) :
    s.irq = true ↔ (∃ i, i < 8 ∧ s.events.getLsbD i = true ∧ s.irqEn.getLsbD i = true)
      ∨ (s.rx.rp ≠ ungray s.rx.wps ∧ s.irqEn.getLsbD 8 = true)
      ∨ (s.tx.wp = ungray s.tx.rps ∧ s.irqEn.getLsbD 9 = true) := by
  simp only [State.irq, Bool.or_eq_true, Bool.and_eq_true, enabledEvent_iff, rxNe_iff, txEmpty_iff, or_assoc]

/-- Settles O54: the fields of the word that a STATUS read answers, and the sources of IRQ. -/
theorem statusAndInterruptOutput : Obligations.StatusAndInterruptOutput := by
  intro s
  obtain ⟨hbusy, hrxNe, htxFull, htxEmpty, hbt, hreserved, hop⟩ := statusWord_fields s
  refine ⟨⟨s.statusWord, read_regAddr s (r := .status) nofun, ?busy, ?rxNe, ?txFull, ?txEmpty, hbt, hreserved, hop⟩,
    irq_iff s⟩
  case busy => rw [hbusy, s.busy_iff]
  case rxNe => rw [hrxNe, rxNe_iff]
  case txFull => rw [htxFull, txFull_iff]
  case txEmpty => rw [htxEmpty, txEmpty_iff]

end Sys2Proof.Proofs
end

section
/-! The machine after a reset and after power-on: the reset value of every register that has one, read back through the
host port, and the invariant (spec/70_reset_and_hazards.md R550, R552). -/

namespace Sys2Proof.Proofs

open Sys2Proof Sys2Proof.Machine

/-! ### The reset values -/

/-- The table of R550, by register; the coefficient banks have no reset value (R552). -/
def resetValue : Reg → Option Word
  | .id => some Config.blockId
  | .status => some 8
  | .vref => some 3300
  | .noiseSeed => some 1
  | .btMaxRetry => some 10
  | .btToStart => some 10000
  | .btToAck => some 1000
  | .preamble => some 0x01
  | .padByte => some 0x1A
  | .coefLp _ | .coefBp _ => none
  | _ => some 0

theorem ungray_zero : ungray 0 = 0 := by decide

/-- A reset empties a FIFO in every view (spec/44_fifo_cdc.md R376). -/
theorem drained_cleared (f : Fifo) : f.cleared.drained = true :=
  f.cleared.drained_iff.2 ⟨rfl, ungray_zero, ungray_zero⟩

theorem seesEmpty_cleared (f : Fifo) : f.cleared.seesEmpty = true := f.cleared.seesEmpty_iff.2 ungray_zero.symm

/-- STATUS after a reset is its TX_EMPTY bit alone. -/
theorem statusWord_resetBlock (s : State) : s.resetBlock.statusWord = 8 := by
  have hrxNe : s.resetBlock.rxNe = false := congrArg Bool.not (seesEmpty_cleared s.rx)
  have htxFull : s.resetBlock.txFull = false := seesFull_of_drained (drained_cleared s.tx)
  have htxEmpty : s.resetBlock.txEmpty = true := (txEmpty_iff _).2 ungray_zero.symm
  apply BitVec.eq_of_toNat_eq
  rw [toNat_statusWord, hrxNe, htxFull, htxEmpty]
  rfl

/-- RXDATA after a reset has no byte to show. -/
theorem rxData_resetBlock (s : State) : s.resetBlock.regValue .rxData = 0 :=
  if_pos (Bool.or_eq_true_iff.2 (.inr (seesEmpty_cleared s.rx)))

theorem regValue_resetBlock (s : State) {r : Reg} {v : Word} (h : resetValue r = some v) :
    s.resetBlock.regValue r = v := by
  cases r with
  | coefLp k | coefBp k => cases h
  | status => cases h; exact statusWord_resetBlock s
  | rxData => cases h; exact rxData_resetBlock s
  | freq t => cases h; exact Vector.getElem_replicate t.isLt
  | amp t => cases h; exact congrArg (BitVec.setWidth 32) (Vector.getElem_replicate t.isLt)
  | scrTag => cases h; exact BitVec.eq_of_toNat_eq (toNat_scrTag _)
  | btResult => cases h; exact BitVec.eq_of_toNat_eq (toNat_btResult _)
  | _ => cases h; rfl

/-- A read of any register, RXDATA included, answers its value. -/
theorem reads_register (s : State) (r : Reg) : s.reads (regAddr r) = .data (s.regValue r) := by
  obtain ⟨hlow, haligned⟩ := regAddr_legal r
  rw [State.reads, State.hostStep_read_reg hlow haligned (regAt_regAddr r)]
  rfl

theorem reads_resetBlock (s : State) {r : Reg} {v : Word} (h : resetValue r = some v) :
    s.resetBlock.reads (regAddr r) = .data v := by
  rw [reads_register, regValue_resetBlock s h]

/-! ### The reset values by address -/

/-- The single registers after ID, in the order of the map, with their reset values. -/
def resetTable : List (BitVec 16 × Word) :=
  regMap.tail.filterMap fun e => (resetValue e.2).map (regAddr e.2, ·)

theorem reads_of_mem_resetTable (s : State) {a : BitVec 16} {v : Word} (h : (a, v) ∈ resetTable) :
    s.resetBlock.reads a = .data v := by
  obtain ⟨⟨_, r⟩, -, hentry⟩ := List.mem_filterMap.1 h
  obtain ⟨v', hv, hpair⟩ := Option.map_eq_some_iff.1 hentry
  obtain ⟨rfl, rfl⟩ := Prod.mk.inj hpair
  exact reads_resetBlock s hv

/-- FREQ and AMP stand side by side, eight words each, and all are cleared. -/
theorem reads_tone_resetBlock (s : State) {k : Nat} (hk : k < 16) :
    s.resetBlock.reads (BitVec.ofNat 16 (0x100 + 4 * k)) = .data 0 := by
  by_cases hfreq : k < 8
  · exact reads_resetBlock s (r := .freq ⟨k, hfreq⟩) rfl
  · have haddr : 0x100 + 4 * k = 0x120 + 4 * (k - 8) := by omega
    rw [haddr]
    exact reads_resetBlock s (r := .amp ⟨k - 8, by omega⟩) rfl

/-! ### The interrupt output -/

theorem irq_eq_false_of_masked {s : State} (h : s.irqEn = 0) : s.irq = false := by
  rw [Bool.eq_false_iff, Ne, irq_iff, h]
  simp

/-- Settles O55: the fields of `State.resetBlock`, and its registers by their reset values. -/
theorem resetState : Obligations.ResetState := by
  intro s
  have hirq : s.resetBlock.irq = false := irq_eq_false_of_masked rfl
  have hid : s.resetBlock.reads 0x00 = .data Config.blockId := reads_resetBlock s (r := .id) rfl
  exact ⟨s.resetBlock, rfl, rfl, rfl, rfl, rfl, rfl, rfl, rfl, rfl, rfl, rfl, rfl, rfl, rfl, rfl, rfl, rfl, hirq, hid,
    fun _ _ => reads_of_mem_resetTable s, fun _ => reads_tone_resetBlock s⟩

/-! ### The invariant -/

/-- A machine just powered on is as a reset leaves it. -/
theorem resetBlock_powerOn (m : Memory) (lp bp : Vector Word 64) :
    (State.powerOn m lp bp).resetBlock = State.powerOn m lp bp := rfl

theorem powerOn_safe {m : Memory} (hm : m.wf = true) (lp bp : Vector Word 64) : (State.powerOn m lp bp).safe = true :=
  (safe_iff _).2 ⟨hm, resetBlock_powerOn m lp bp ▸ reset_consistent _⟩

/-- Settles O58: `State.reset` is the machine powered on with an empty memory and banks of zeros. -/
theorem resetIsSafe : Obligations.ResetIsSafe :=
  ⟨powerOn_safe (m := []) rfl Cfg.reset.coefLp Cfg.reset.coefBp, fun _ lp bp hm => powerOn_safe hm lp bp⟩

end Sys2Proof.Proofs
end
